-- ==== Sys2Proof/Word.lean ====
section
/-! DEFINITION. The word types of the codec block: a byte of a buffer and a token (rules R5, R8). The contents of a host-visible
register are a natural below `2 ^ LEN_BITS`, since the width is a parameter (rules R6, R12): `Config.fit` cuts whatever is put into
a register to the width (log entry 11). -/

namespace Sys2Proof

/-- One byte of SRC, DST or SCRATCH. -/
abbrev Byte := BitVec 8

/-- A token of the stream, `TOKEN_BITS` = 24 bits (rules R5, R71). -/
abbrev Token := BitVec 24

end Sys2Proof
end

