-- ==== Sys2Proof/Syntax.lean ====
section
/-! DEFINITION. The instructions: one constructor per row of spec/opcode_table.json (rule R82), with the fields a decoder
reads from the row's bits. -/

namespace Sys2Proof

/-- The twelve forms of rule R82: eight token forms, two escape-byte forms, two command codes. -/
inductive Instr where
  /-- `SEQ`: a match sequence, neither length field saturated (rule R198). -/
  | seq (off : BitVec 16) (mf lf : BitVec 4)
  /-- `SEQ.LX`: the literal length is saturated: a chain follows the token. -/
  | seqLx (off : BitVec 16) (mf : BitVec 4)
  /-- `SEQ.MX`: the match length is saturated: a chain follows the literals. -/
  | seqMx (off : BitVec 16) (lf : BitVec 4)
  /-- `SEQ.LX.MX`: both length fields are saturated. -/
  | seqLxMx (off : BitVec 16)
  /-- `END`: end of block with 1 to 14 literals (rule R197). -/
  | endTok (lf : BitVec 4)
  /-- `END.LX`: end of block with 15 or more literals. -/
  | endLx
  /-- `ILL.END0`: an end of block with no literals (case I1 of rule R79). -/
  | illEnd0
  /-- `ILL.ENDM`: an end of block with a match length field other than 0 (case I2 of rule R79). -/
  | illEndM (mf lf : BitVec 4)
  /-- `ESC.CONT`: an escape byte of value 255 (rule R107). -/
  | escCont
  /-- `ESC.TERM`: an escape byte of value 0 to 254 (rule R107). -/
  | escTerm (value : Byte)
  /-- `COMPRESS`: a write of 1 to `CMD` (rule R145). -/
  | compress
  /-- `DECOMPRESS`: a write of 2 to `CMD` (rule R190). -/
  | decompress
  deriving DecidableEq, Repr

/-- Where an instruction is fetched from: a token or an escape byte from SRC, a command code from a write to `CMD`. -/
inductive FetchKind where
  | token
  | escape
  | command
  deriving DecidableEq, Repr

/-- The format column of the opcode table. -/
def Instr.kind : Instr → FetchKind
  | .seq _ _ _ => .token
  | .seqLx _ _ => .token
  | .seqMx _ _ => .token
  | .seqLxMx _ => .token
  | .endTok _ => .token
  | .endLx => .token
  | .illEnd0 => .token
  | .illEndM _ _ => .token
  | .escCont => .escape
  | .escTerm _ => .escape
  | .compress => .command
  | .decompress => .command

/-- The mnemonic column of the opcode table. -/
def Instr.mnemonic : Instr → String
  | .seq _ _ _ => "SEQ"
  | .seqLx _ _ => "SEQ.LX"
  | .seqMx _ _ => "SEQ.MX"
  | .seqLxMx _ => "SEQ.LX.MX"
  | .endTok _ => "END"
  | .endLx => "END.LX"
  | .illEnd0 => "ILL.END0"
  | .illEndM _ _ => "ILL.ENDM"
  | .escCont => "ESC.CONT"
  | .escTerm _ => "ESC.TERM"
  | .compress => "COMPRESS"
  | .decompress => "DECOMPRESS"

end Sys2Proof
end

