-- ==== Sys2Proof/WellFormed.lean ====
section
/-! DEFINITION. Which terms of Instr are instructions: the "extra condition" column of rule R82. -/

namespace Sys2Proof

/-- The constraints rule R82 puts on the fields of each form. -/
def Instr.wf : Instr → Bool
  | .seq off mf lf => decide (off ≠ 0) && decide (mf ≠ 15) && decide (lf ≠ 15)
  | .seqLx off mf => decide (off ≠ 0) && decide (mf ≠ 15)
  | .seqMx off lf => decide (off ≠ 0) && decide (lf ≠ 15)
  | .seqLxMx off => decide (off ≠ 0)
  | .endTok lf => decide (lf ≠ 0) && decide (lf ≠ 15)
  | .endLx => true
  | .illEnd0 => true
  | .illEndM mf _ => decide (mf ≠ 0)
  | .escCont => true
  | .escTerm value => decide (value ≠ 255)
  | .compress => true
  | .decompress => true

end Sys2Proof
end

