-- ==== Sys2Proof/Decode.lean ====
section
/-! DEFINITION. The token format (rules R71, R101, R102), the decoder of tokens, escape bytes and command codes (rule R82), the
encoder, and the codec of one whole sequence (rules R72 to R76, R103 to R108). -/

namespace Sys2Proof

/-- PACK as bit fields (rule R101): `offset` in bits 15:0, `match_len_field` in 19:16, `lit_len_field` in 23:20. Together with
the three accessors below this is the one place that knows the field widths (rule R100). -/
def tokenOf (off : BitVec 16) (mf lf : BitVec 4) : Token := (lf ++ mf : BitVec 8) ++ off

/-- `V[15:0]` (rules R71, R102). -/
def tokenOff (v : Token) : BitVec 16 := v.extractLsb' 0 16

/-- `V[19:16]` (rules R71, R102). -/
def tokenMf (v : Token) : BitVec 4 := v.extractLsb' 16 4

/-- `V[23:20]` (rules R71, R102). -/
def tokenLf (v : Token) : BitVec 4 := v.extractLsb' 20 4

/-- The three stream bytes of a token, least significant first (rules R41, R71, R101). -/
def tokenBytes (v : Token) : List Byte := [v.extractLsb' 0 8, v.extractLsb' 8 8, v.extractLsb' 16 8]

/-- `S[ip] + S[ip+1]*2^8 + S[ip+2]*2^16` (rules R46, R193). -/
def tokenOfBytes (b0 b1 b2 : Byte) : Token := (b2 ++ b1 : BitVec 16) ++ b0

/-- The form of a token value, testing `offset == 0` first and then the two length fields (rule R82). Total: every one of the
`2^24` values is one of the eight forms. -/
def decodeToken (v : Token) : Instr :=
  if tokenOff v = 0 then
    if tokenMf v ≠ 0 then .illEndM (tokenMf v) (tokenLf v)
    else if tokenLf v = 0 then .illEnd0
    else if tokenLf v = 15 then .endLx
    else .endTok (tokenLf v)
  else if tokenLf v = 15 then
    if tokenMf v = 15 then .seqLxMx (tokenOff v) else .seqLx (tokenOff v) (tokenMf v)
  else if tokenMf v = 15 then .seqMx (tokenOff v) (tokenLf v)
  else .seq (tokenOff v) (tokenMf v) (tokenLf v)

/-- The form of an escape byte (rules R75, R82, R107). Total. -/
def decodeEscape (b : Byte) : Instr := if b = 255 then .escCont else .escTerm b

/-- The command a write to `CMD` selects: 1 COMPRESS, 2 DECOMPRESS, every other value reserved (rules R14, R81). -/
def decodeCommand (w : Nat) : Option Instr :=
  if w = 1 then some .compress else if w = 2 then some .decompress else none

/-- Why bytes are no instruction. -/
inductive DecodeError where
  /-- Fewer bytes than the form has. -/
  | truncated
  /-- A reserved command code (rule R81). -/
  | reservedCommand
  deriving DecidableEq, Repr

/-- The instruction at the front of a byte string, and the bytes after it. A command code is laid out as four bytes, least
significant first (log entry 21). -/
def decode (k : FetchKind) (bytes : List Byte) : Except DecodeError (Instr × List Byte) :=
  match k with
  | .token =>
    match bytes with
    | b0 :: b1 :: b2 :: rest => .ok (decodeToken (tokenOfBytes b0 b1 b2), rest)
    | _ => .error .truncated
  | .escape =>
    match bytes with
    | b :: rest => .ok (decodeEscape b, rest)
    | _ => .error .truncated
  | .command =>
    match bytes with
    | b0 :: b1 :: b2 :: b3 :: rest =>
      match decodeCommand ((b3 ++ b2 : BitVec 16) ++ (b1 ++ b0 : BitVec 16)).toNat with
      | some i => .ok (i, rest)
      | none => .error .reservedCommand
    | _ => .error .truncated

/-- The token of a token form (rules R71, R82). An escape byte or a command has none; it is given the all-zero token. -/
def Instr.token : Instr → Token
  | .seq off mf lf => tokenOf off mf lf
  | .seqLx off mf => tokenOf off mf 15
  | .seqMx off lf => tokenOf off 15 lf
  | .seqLxMx off => tokenOf off 15 15
  | .endTok lf => tokenOf 0 0 lf
  | .endLx => tokenOf 0 0 15
  | .illEnd0 => tokenOf 0 0 0
  | .illEndM mf lf => tokenOf 0 mf lf
  | .escCont => 0
  | .escTerm _ => 0
  | .compress => 0
  | .decompress => 0

/-- The bytes of an instruction, as `decode` reads them (rules R71, R75, R81). -/
def encode (i : Instr) : List Byte :=
  match i with
  | .escCont => [255]
  | .escTerm value => [value]
  | .compress => [1, 0, 0, 0]
  | .decompress => [2, 0, 0, 0]
  | .seq _ _ _ => tokenBytes i.token
  | .seqLx _ _ => tokenBytes i.token
  | .seqMx _ _ => tokenBytes i.token
  | .seqLxMx _ => tokenBytes i.token
  | .endTok _ => tokenBytes i.token
  | .endLx => tokenBytes i.token
  | .illEnd0 => tokenBytes i.token
  | .illEndM _ _ => tokenBytes i.token

/-- The first `k` bytes of a number, least significant first. -/
def bytesOfNat : Nat → Nat → List Byte
  | 0, _ => []
  | k + 1, w => BitVec.ofNat 8 w :: bytesOfNat k (w / 256)

/-- The instruction the decoder reads from an instruction whose bits are `w`, numbered as spec/opcode_table.json numbers them:
24 bits are a token, 8 bits an escape byte, 32 bits a command code. -/
def decodeTableWord (nbits w : Nat) : Option Instr :=
  let read (k : FetchKind) (n : Nat) : Option Instr :=
    match decode k (bytesOfNat n w) with
    | .ok (i, _) => some i
    | .error _ => none
  if nbits = 24 then read .token 3
  else if nbits = 8 then read .escape 1
  else if nbits = 32 then read .command 4
  else none

/-! ### The opcode table as data (rule R82) -/

/-- One token row of rule R82: mask and match over the 24-bit value, and the extra conditions. -/
structure TokenRow where
  mnemonic : String
  mask : Token
  value : Token
  offNot0 : Bool
  mfNot0 : Bool
  mfNot15 : Bool
  lfNot0 : Bool
  lfNot15 : Bool
  deriving DecidableEq, Repr

/-- A token value is of a row's form. -/
def TokenRow.selects (row : TokenRow) (v : Token) : Bool :=
  decide (v &&& row.mask = row.value) &&
  (!row.offNot0 || decide (tokenOff v ≠ 0)) &&
  (!row.mfNot0 || decide (tokenMf v ≠ 0)) && (!row.mfNot15 || decide (tokenMf v ≠ 15)) &&
  (!row.lfNot0 || decide (tokenLf v ≠ 0)) && (!row.lfNot15 || decide (tokenLf v ≠ 15))

/-- The eight token rows, as rule R82 writes them; `SEQ.LX` and the other match rows carry their whole extra condition. -/
def tokenRows : List TokenRow :=
  [ ⟨"SEQ", 0x000000, 0x000000, true, false, true, false, true⟩,
    ⟨"SEQ.LX", 0xF00000, 0xF00000, true, false, true, false, false⟩,
    ⟨"SEQ.MX", 0x0F0000, 0x0F0000, true, false, false, false, true⟩,
    ⟨"SEQ.LX.MX", 0xFF0000, 0xFF0000, true, false, false, false, false⟩,
    ⟨"END", 0x0FFFFF, 0x000000, false, false, false, true, true⟩,
    ⟨"END.LX", 0xFFFFFF, 0xF00000, false, false, false, false, false⟩,
    ⟨"ILL.END0", 0xFFFFFF, 0x000000, false, false, false, false, false⟩,
    ⟨"ILL.ENDM", 0x00FFFF, 0x000000, false, true, false, false, false⟩ ]

/-! ### Length fields and escape chains -/

/-- FIELD (rule R103): the saturated value of a length field. -/
def field (x : Nat) : Nat := min x 15

/-- `esc(x)`: the number of escape bytes the value `x` needs (rule R104). -/
def escCount (x : Nat) : Nat := if x < 15 then 0 else 1 + (x - 15) / 255

/-- The escape bytes of a value `x >= 15` (rules R75, R105): as many `FF` as 255 goes into `x - 15`, then the remainder. -/
def escChain (x : Nat) : List Byte :=
  List.replicate ((x - 15) / 255) (255 : Byte) ++ [BitVec.ofNat 8 ((x - 15) % 255)]

/-- The escape bytes present for a length: none below 15 (rule R72). -/
def escBytes (x : Nat) : List Byte := if x < 15 then [] else escChain x

/-- ESC.DEC over a byte string (rule R107): the value, and the bytes after the chain; nothing if the string ends inside it. -/
def escDecode : Nat → List Byte → Option (Nat × List Byte)
  | _, [] => none
  | acc, b :: rest => if b = 255 then escDecode (acc + 255) rest else some (acc + b.toNat, rest)

/-! ### One whole sequence (rules R72, R76, R106) -/

/-- A sequence: its back-offset, its literal bytes, its match length. `off = 0` is an END. -/
structure Sequence where
  off : BitVec 16
  literals : List Byte
  mlen : Nat
  deriving DecidableEq, Repr

/-- The sequence's token (rule R106). -/
def Sequence.token (q : Sequence) : Token :=
  tokenOf q.off (BitVec.ofNat 4 (field (q.mlen - 4))) (BitVec.ofNat 4 (field q.literals.length))

/-- The sequence's bytes in the order of rule R72. -/
def Sequence.encode (q : Sequence) : List Byte :=
  tokenBytes q.token ++ escBytes q.literals.length ++ q.literals ++ escBytes (q.mlen - 4)

/-- A length from its field and, where the field is saturated, its chain (rules R74, R107). -/
def lengthParse (f : BitVec 4) (bytes : List Byte) : Option (Nat × List Byte) :=
  if f = 15 then escDecode 15 bytes else some (f.toNat, bytes)

/-- The sequence at the front of a byte string, read in the order of rule R72, and the bytes after it. -/
def Sequence.parse (bytes : List Byte) : Option (Sequence × List Byte) :=
  match bytes with
  | b0 :: b1 :: b2 :: rest =>
    let v := tokenOfBytes b0 b1 b2
    match lengthParse (tokenLf v) rest with
    | none => none
    | some (lit, rest1) =>
      if rest1.length < lit then none
      else
        match lengthParse (tokenMf v) (rest1.drop lit) with
        | none => none
        | some (m, rest2) => some (⟨tokenOff v, rest1.take lit, 4 + m⟩, rest2)
  | _ => none

/-- The literal bytes and operand bytes a decoder still expects after a token whose every escape byte is 0: what
`State.withFetchWord` lays behind the token as zeros. -/
def tokenTail (v : Token) : Nat :=
  (tokenLf v).toNat + (if tokenLf v = 15 then 1 else 0) + (if tokenMf v = 15 then 1 else 0)

end Sys2Proof
end

