-- ==== Sys2Proof/Config.lean ====
section
/-! DEFINITION. The format constants (rule R5), the parameters the source leaves open with the spec's defaults (rule R6), and
the free values (rules R34, R37; entries U1, U2, U8 of 93_implementation_defined.md). -/

namespace Sys2Proof

/-- The parameters of rule R6. They stay fixed while the machine runs. -/
structure Config where
  /-- `HASH_MULT`, an odd 64-bit multiplier (rule R121). -/
  hashMult : BitVec 64
  /-- `ACCEL_LOG2`: the search step grows by 1 every `2 ^ accelLog2` consecutive misses (rule R151). -/
  accelLog2 : Nat
  /-- `SEARCH_TAIL`: the search stops when `r + searchTail > n` (rules R147, R151). -/
  searchTail : Nat
  /-- `LOOKAHEAD`: after a match the search resumes only if `r + lookahead <= n` (rule R156). -/
  lookahead : Nat
  /-- `ENC_MARGIN`: slack demanded in DST before a match sequence is emitted (rule R154). -/
  encMargin : Nat
  /-- `LEN_BITS`: the width of the host-visible registers and of every length (rule R12). -/
  lenBits : Nat
  deriving DecidableEq, Repr

/-- The defaults of rule R6 (the hash multiplier and the acceleration are the spec's, from general knowledge: G1, G2). -/
def Config.default : Config :=
  { hashMult := 0x9E3779B97F4A7C15#64, accelLog2 := 6, searchTail := 16, lookahead := 8, encMargin := 0,
    lenBits := 32 }

/-- What rule R6 demands of the parameters: the multiplier is odd, both end-of-search limits are at least `HASH_WINDOW`;
and that a register holds the three bits of `STATUS` (rule R13, DEDUCED, log entry 11). -/
def Config.wf (c : Config) : Bool :=
  c.hashMult.getLsbD 0 && decide (8 ≤ c.searchTail) && decide (8 ≤ c.lookahead) && decide (3 ≤ c.lenBits)

/-- A number put into a register: its low `LEN_BITS` bits (rule R12). -/
def Config.fit (c : Config) (v : Nat) : Nat := v % 2 ^ c.lenBits

/-- All ones, `0xFFFFFFFF` at the default width: `RESULT` after a failure, −1 read as a signed number (rules R12, R13; other
widths: log entry 11). -/
def Config.allOnes (c : Config) : Nat := 2 ^ c.lenBits - 1

/-- `MIN_MATCH` (rule R5). -/
abbrev minMatch : Nat := 4

/-- `R_ESC` = `NR_ESC`: the saturated value of a length field (rule R5). -/
abbrev fieldEsc : Nat := 15

/-- `MAX_SRC`: the largest COMPRESS source length (rules R5, R146). -/
abbrev maxSrc : Nat := 65536

/-- `HASH_WINDOW` (rule R5). -/
abbrev hashWindow : Nat := 8

/-- Bytes of SCRATCH: `HT_SLOTS` slots of `HT_SLOT_BITS` bits (rules R5, R30). -/
abbrev scratchBytes : Nat := 8192

/-- A byte of a buffer that nothing specifies: SRC, DST or SCRATCH before the host has written it (rule R37), slack after a
command, all of DST after a failed one (rules R34, R222), SCRATCH after a failed COMPRESS. A FREE VALUE with no body: nothing
can evaluate it. Arguments: the buffer (0 SRC, 1 DST, 2 SCRATCH), the draw (a counter of how often the buffer's contents became
unspecified anew), the index. (log entry 5, DESIGN CHOICE, safe) -/
opaque Config.freeByte : Nat → Nat → Nat → Byte

end Sys2Proof
end

