-- ==== Sys2Proof/Machine/State.lean ====
section
/-! DEFINITION. The state of the codec block: host-visible registers, working registers of both engines, the three buffers, and
the state after reset (10_state.md). The reasons a step can stop. -/

namespace Sys2Proof.Machine

/-! ### The buffers -/

/-- SRC or DST (rule R30): the bytes that are specified, by index, in rising order. An index not listed holds an unspecified
byte (rules R34, R37), a free value drawn from `Config.freeByte` and `draw`, the count of how often contents of this buffer
became unspecified anew (log entries 5, 6). -/
structure Memory where
  cells : List Host.Cell
  draw : Nat
  deriving DecidableEq, Repr

/-- What a byte of SCRATCH that is not listed holds (rules R32, R37, R255; log entry 7). -/
inductive ScratchKind where
  /-- A byte that has not been written is unspecified: after reset, after a binding, after a COMPRESS. -/
  | unspecified
  /-- It has been zeroed as a whole: a byte that has not been written since is 0. -/
  | cleared
  deriving DecidableEq, Repr

/-- SCRATCH, the home of the hash index (rules R30, R31): bytes by index in rising order. An index not listed holds 0 when
`kind` is cleared, and an unspecified byte otherwise. -/
structure Scratch where
  cells : List Host.Cell
  kind : ScratchKind
  draw : Nat
  deriving DecidableEq, Repr

/-- The three buffers (rule R30), for the host's moves. -/
inductive BufferName where
  | src
  | dst
  | scratch
  deriving DecidableEq, Repr

/-- Where the platform places one buffer and how many bytes are really there (rules R6, R30, R257, entry U10). -/
structure Extent where
  base : Nat
  size : Nat
  deriving DecidableEq, Repr

/-- The platform's binding of the three buffers (rule R30). -/
structure Platform where
  src : Extent
  dst : Extent
  scratch : Extent
  deriving DecidableEq, Repr

/-! ### The host -/

/-- What the host and the platform can do (rules R10, R12, R14, R30, R245). -/
inductive HostMove where
  /-- The host writes a register by its index (rule R12). -/
  | writeReg (index : Nat) (value : Nat)
  /-- The host writes a byte string into a buffer from an index on (rule R250 items 2 to 4, rule R251 item 2). -/
  | load (buffer : BufferName) (start : Nat) (bytes : List Byte)
  /-- The host zeroes the whole of SCRATCH (rules R250 item 4, R255). -/
  | zeroScratch
  /-- The platform binds the three buffers to memory (rule R30). -/
  | bind (platform : Platform)
  /-- The platform resets the block (rules R245, R246). -/
  | reset
  deriving DecidableEq, Repr

/-- Who moves next (log entry 1). -/
inductive Turn where
  | engine
  | host (move : HostMove)
  deriving DecidableEq, Repr

/-! ### The engines -/

/-- Where the active engine stands in its listing (43_encoder.md section 7, 45_decoder.md section 6). -/
inductive Phase where
  /-- No command runs. -/
  | idle
  /-- COMPRESS has been accepted: the tests of rules R146 and R147 come next. -/
  | encStart
  /-- The label SEARCH (rule R148). -/
  | encSearch
  /-- The label FLUSH (rule R157). -/
  | encFlush
  /-- A sequence boundary: the label LOOP (rule R192). -/
  | decBoundary
  /-- Inside ESC.DEC (rule R107): the next escape byte comes next. -/
  | decChain
  deriving DecidableEq, Repr

/-- Which length an escape chain extends (rules R194, R196). -/
inductive ChainKind where
  | literal
  | mtch
  deriving DecidableEq, Repr

/-- The encoder engine's working registers (rule R17). -/
structure Encoder where
  n : Nat
  cap : Nat
  r : Nat
  anchor : Nat
  o : Nat
  miss : Nat
  h : BitVec 12
  q : BitVec 16
  e : Nat
  lit : Nat
  mlen : Nat
  off : Nat
  deriving DecidableEq, Repr

/-- The decoder engine's working registers (rule R20), with the accumulator of ESC.DEC (rules R107, R109) and the length it is
for. `ip` is the decoder's program counter (rule R23). -/
structure Decoder where
  n : Nat
  cap : Nat
  ip : Nat
  op : Nat
  v : Token
  off : BitVec 16
  mf : BitVec 4
  lf : BitVec 4
  lit : Nat
  mlen : Nat
  acc : Nat
  chain : ChainKind
  deriving DecidableEq, Repr

/-! ### Failures -/

/-- The two error kinds (rule R215). -/
inductive ErrorKind where
  | destinationTooSmall
  | malformedStream
  deriving DecidableEq, Repr

/-- The cause names of rules R216 and R217, visible in no register (rule R206, log entry 13). -/
inductive Cause where
  | noRoom
  | sourceTooLong
  | escapeTruncated
  | literalOverrunsSource
  | dstOverflow
  | badEnd
  | offsetUnderflow
  | trailingBytes
  deriving DecidableEq, Repr

/-! ### The whole state -/

/-- Everything the spec gives the block (rules R12, R13, R17, R20, R30, R31), its configuration and binding (rules R6, R30), and
the model's own `agenda` and `cause`. -/
structure State where
  /-- The parameters of rule R6; no step changes them. -/
  cfg : Config
  /-- The binding of the buffers (rule R30). -/
  platform : Platform
  /-- The model's own: the moves and turns still to come, first first. Empty: the engine moves. -/
  agenda : List Turn
  /-- Register 0 `CMD`: the last accepted command code (rules R12, R14). -/
  cmd : Nat
  /-- Register 1 `SRC_LEN`. -/
  srcLen : Nat
  /-- Register 2 `DST_CAP`. -/
  dstCap : Nat
  /-- Register 3 `STATUS` (rule R13). -/
  status : Nat
  /-- Register 4 `RESULT`. -/
  result : Nat
  /-- Register 5 `ERR_KIND`. -/
  errKind : Nat
  /-- The model's own: the cause name of the last command's failure. -/
  cause : Option Cause
  /-- Where the active engine stands. -/
  phase : Phase
  /-- The encoder engine's registers. -/
  enc : Encoder
  /-- The decoder engine's registers. -/
  dec : Decoder
  /-- The SRC buffer. -/
  src : Memory
  /-- The DST buffer. -/
  dst : Memory
  /-- The SCRATCH buffer, home of the hash index `HT`. -/
  scratch : Scratch
  deriving DecidableEq, Repr

/-- Why the machine stops where a primitive is called outside its bound: "a model should make such a call a fault, never a
value" (rule R9). No rule of the spec does it (rules R50, R207, R166), so no state of `Safety.Inv` reaches one. All are safe. -/
inductive Fault where
  /-- A read of SRC at or above the sampled length. Raised by `memReadSrc`, `fetchToken`, `litCopyDec`, `litCopyEnc`.
  Safe. -/
  | srcOutOfBounds
  /-- A read or write of DST at or above the sampled capacity. Raised by `putDst`, `litCopyDec`, `litCopyEnc`, `matchCopy` and
  the tiers. Safe. -/
  | dstOutOfBounds
  /-- A PACK operand outside its field (rule R101). Raised by `pack`. Safe. -/
  | fieldOutOfRange
  /-- A position above 65535 to be put in a slot (rule R123). Raised by `lookupInsert` and `insertPosition`. Safe. -/
  | positionOutOfRange
  /-- A candidate that is not below the scan cursor (rule R126). Raised by `searchMatch`. Safe. -/
  | candidateNotEarlier
  deriving DecidableEq, Repr

/-- Why the model gives a move no meaning, where the spec tells a model to refuse it (93_implementation_defined.md). All are
safe. -/
inductive Refusal where
  /-- An instruction with no meaning yet, by its mnemonic. No arm of `exec` answers it. Safe. -/
  | notModelled (mnemonic : String)
  /-- COMPRESS launched on a SCRATCH that is not all zero (rules R128, R250, R255, U3). Raised by `execCompress`. Safe. -/
  | scratchNotZero
  /-- Two buffers of a command overlap (rules R58, R259, U4). Raised by `execCompress` and `execDecompress`. Safe. -/
  | buffersOverlap
  /-- A buffer bound to less memory than its declared length (U10). Raised by `execCompress` and `execDecompress`. Safe. -/
  | bufferTooSmall
  /-- The host writes or rebinds a buffer while a command runs (rules R55, R258, U5). Raised by the host's moves. Safe. -/
  | lentBuffer
  /-- The host writes outside the memory bound to a buffer (U18). Raised by `hostLoad` and `hostZeroScratch`. Safe. -/
  | outsideBuffer
  /-- A register index above 5 (rule R12 numbers 0 to 5). Raised by a register write. Safe. -/
  | noSuchRegister
  deriving DecidableEq, Repr

/-! ### Reset -/

/-- Working registers of the encoder after reset: unspecified by rule R37, named 0 here (log entry 4, DESIGN CHOICE, unsafe). -/
def Encoder.reset : Encoder :=
  { n := 0, cap := 0, r := 0, anchor := 0, o := 0, miss := 0, h := 0, q := 0, e := 0, lit := 0, mlen := 0, off := 0 }

/-- Working registers of the decoder after reset: unspecified by rule R37, named 0 here (log entry 4, DESIGN CHOICE, unsafe). -/
def Decoder.reset : Decoder :=
  { n := 0, cap := 0, ip := 0, op := 0, v := 0, off := 0, mf := 0, lf := 0, lit := 0, mlen := 0, acc := 0,
    chain := .literal }

/-- A buffer nothing has specified (rule R37), at a given draw. -/
def Memory.unspecified (draw : Nat) : Memory := { cells := [], draw := draw }

/-- A SCRATCH nothing has specified (rule R37), at a given draw. -/
def Scratch.unspecified (draw : Nat) : Scratch := { cells := [], kind := .unspecified, draw := draw }

/-- A binding with three disjoint regions, each of the largest length its register can declare (log entry 9, DESIGN CHOICE: the
spec leaves the bases OPEN). -/
def Platform.default : Platform :=
  { src := { base := 0, size := 4294967296 },
    dst := { base := 4294967296, size := 4294967296 },
    scratch := { base := 8589934592, size := 8192 } }

/-- The machine right after reset (rules R37, R245): the six registers 0, no command running, every buffer unspecified. -/
def State.reset : State :=
  { cfg := Config.default, platform := Platform.default, agenda := [],
    cmd := 0, srcLen := 0, dstCap := 0, status := 0, result := 0, errKind := 0,
    cause := none, phase := .idle, enc := Encoder.reset, dec := Decoder.reset,
    src := Memory.unspecified 0, dst := Memory.unspecified 0, scratch := Scratch.unspecified 0 }

end Sys2Proof.Machine
end

