-- ==== Sys2Proof/Machine/Ops.lean ====
section
/-! DEFINITION. The named operations over buffers and registers: reads, writes and loss of specified bytes; the hash-index
slots; the host's view of a register; completion in success and in failure, which is this block's taking of an exception
(rules R9, R12, R221, R222). -/

namespace Sys2Proof.Machine

/-! ### Lists of cells -/

/-- Addresses strictly rise. -/
abbrev Rising (cells : List Host.Cell) : Prop := List.Pairwise (fun c d => c.1 < d.1) cells

/-- The byte listed at an index. -/
def cellAt : List Host.Cell → Nat → Option Byte
  | [], _ => none
  | (k, b) :: rest, i => if k = i then some b else cellAt rest i

/-- List a byte at an index, keeping addresses rising. -/
def cellPut : List Host.Cell → Nat → Byte → List Host.Cell
  | [], i, b => [(i, b)]
  | (k, c) :: rest, i, b =>
    if i < k then (i, b) :: (k, c) :: rest
    else if i = k then (i, b) :: rest
    else (k, c) :: cellPut rest i b

/-- Unlist every index from `lo` to below `hi`. -/
def cellsDrop (cells : List Host.Cell) (lo hi : Nat) : List Host.Cell :=
  cells.filter (fun c => decide (c.1 < lo) || decide (hi ≤ c.1))

/-! ### SRC and DST -/

/-- The canonical form: addresses strictly rising. What an unlisted index reads as is no value (log entry 5), so no entry can
equal it. -/
abbrev Memory.wf (m : Memory) : Prop := Rising m.cells

/-- What is specified at an index: nothing where no entry lists it. -/
def Memory.get? (m : Memory) (i : Nat) : Option Byte := cellAt m.cells i

/-- The byte an engine reads at an index: what is specified, else a free value (rules R34, R37). -/
def Memory.byte (m : Memory) (buffer i : Nat) : Byte := (m.get? i).getD (Config.freeByte buffer m.draw i)

/-- Write one byte. -/
def Memory.write (m : Memory) (i : Nat) (b : Byte) : Memory := { m with cells := cellPut m.cells i b }

/-- Write a byte string in ascending order. -/
def Memory.writeBytes (m : Memory) (i : Nat) : List Byte → Memory
  | [] => m
  | b :: rest => (m.write i b).writeBytes (i + 1) rest

/-- The bytes from `lo` to below `hi` become unspecified anew (rules R34, R172, R183). -/
def Memory.forget (m : Memory) (lo hi : Nat) : Memory := { cells := cellsDrop m.cells lo hi, draw := m.draw + 1 }

/-! ### SCRATCH and the hash index -/

/-- What an unlisted index of SCRATCH reads as: 0 once the host has zeroed it, else no value. -/
def Scratch.unlisted (t : Scratch) : Option Byte :=
  match t.kind with
  | .unspecified => none
  | .cleared => some 0

/-- The canonical form: addresses strictly rising and inside the 8192 bytes, and no entry equal to what an unlisted index reads
as. -/
abbrev Scratch.wf (t : Scratch) : Prop :=
  Rising t.cells ∧ ∀ c ∈ t.cells, c.1 < scratchBytes ∧ some c.2 ≠ t.unlisted

/-- What is specified at an index of SCRATCH. -/
def Scratch.get? (t : Scratch) (i : Nat) : Option Byte := (cellAt t.cells i).or t.unlisted

/-- The byte read at an index of SCRATCH: what is specified, else a free value (rule R37). -/
def Scratch.byte (t : Scratch) (i : Nat) : Byte := (t.get? i).getD (Config.freeByte 2 t.draw i)

/-- Write one byte of SCRATCH, keeping the canonical form. -/
def Scratch.write (t : Scratch) (i : Nat) (b : Byte) : Scratch :=
  if some b = t.unlisted then { t with cells := cellsDrop t.cells i (i + 1) }
  else { t with cells := cellPut t.cells i b }

/-- Write a byte string into SCRATCH in ascending order. -/
def Scratch.writeBytes (t : Scratch) (i : Nat) : List Byte → Scratch
  | [] => t
  | b :: rest => (t.write i b).writeBytes (i + 1) rest

/-- `HT[h]`: bytes `2h` and `2h + 1` of SCRATCH, low byte first (rule R31). -/
def Scratch.slot (t : Scratch) (h : BitVec 12) : BitVec 16 := t.byte (2 * h.toNat + 1) ++ t.byte (2 * h.toNat)

/-- `HT[h] <- p` (rules R31, R123, R124). -/
def Scratch.setSlot (t : Scratch) (h : BitVec 12) (p : BitVec 16) : Scratch :=
  (t.write (2 * h.toNat) (p.extractLsb' 0 8)).write (2 * h.toNat + 1) (p.extractLsb' 8 8)

/-- SCRATCH with every byte 0 (rules R250 item 4, R255). -/
def Scratch.zero (t : Scratch) : Scratch := { cells := [], kind := .cleared, draw := t.draw }

/-- The cells are a 0 at each index from `i` on up to the end of SCRATCH, and no more. -/
def zerosFrom : Nat → List Host.Cell → Bool
  | i, [] => decide (i = scratchBytes)
  | i, (k, b) :: rest => decide (k = i) && decide (b = 0) && zerosFrom (i + 1) rest

/-- Every byte of SCRATCH is 0 (rules R128, R250 item 4), read off the canonical form. -/
def Scratch.allZero (t : Scratch) : Bool :=
  match t.kind with
  | .unspecified => zerosFrom 0 t.cells
  | .cleared => t.cells.isEmpty

/-- SCRATCH whose contents have become unspecified (rules R37, R222, R246). -/
def Scratch.forget (t : Scratch) : Scratch := Scratch.unspecified (t.draw + 1)

/-- The specified bytes of SCRATCH among `k` indices from `i` on, as far as they are to be kept. -/
def Scratch.specified (t : Scratch) (keep : Nat → Bool) : Nat → Nat → List Host.Cell
  | _, 0 => []
  | i, k + 1 =>
    match if keep i then t.get? i else none with
    | some b => (i, b) :: t.specified keep (i + 1) k
    | none => t.specified keep (i + 1) k

/-- SCRATCH of which the bytes that are not kept have become unspecified. -/
def Scratch.keepOnly (t : Scratch) (keep : Nat → Bool) : Scratch :=
  { cells := t.specified keep 0 scratchBytes, kind := .unspecified, draw := t.draw + 1 }

/-- SCRATCH after a COMPRESS that succeeded (rules R32, R164, R255; D22, U7): a slot that holds a position of the source keeps it,
every other slot is unspecified, so that the whole is not zero until the host has zeroed it again (log entry 7). -/
def Scratch.spend (t : Scratch) : Scratch := t.keepOnly (fun i => decide (t.slot (BitVec.ofNat 12 (i / 2)) ≠ 0))

/-! ### Reading the buffers of the running command (rule R9) -/

/-- `S[i]` (rule R9). -/
def State.srcByte (s : State) (i : Nat) : Byte := s.src.byte 0 i

/-- `D[i]` (rule R9). -/
def State.dstByte (s : State) (i : Nat) : Byte := s.dst.byte 1 i

/-- The number whose bytes, least significant first, are given (rules R9, R40). -/
def leValue : List Byte → Nat
  | [] => 0
  | b :: rest => b.toNat + 256 * leValue rest

/-- `k` bytes read in ascending order from an index on. -/
def bytesFrom (read : Nat → Byte) (a : Nat) : Nat → List Byte
  | 0 => []
  | k + 1 => read a :: bytesFrom read (a + 1) k

/-- `MemRead(SRC, a, k)`: defined only if `a + k <= n` (rule R9). -/
def memReadSrc (s : State) (n a k : Nat) : Except Fault Nat :=
  if a + k ≤ n then .ok (leValue (bytesFrom s.srcByte a k)) else .error .srcOutOfBounds

/-! ### The host's view of the registers -/

/-- The value the host reads from a register (rule R12): `CMD` reads as 0; an index above 5 is no register. Reading has no side
effect. -/
def State.hostRead (s : State) (index : Nat) : Option Nat :=
  match index with
  | 0 => some 0
  | 1 => some s.srcLen
  | 2 => some s.dstCap
  | 3 => some s.status
  | 4 => some s.result
  | 5 => some s.errKind
  | _ => none

/-! ### Completion (rules R215 to R217, R221, R222) -/

/-- Which error kind a cause belongs to (rules R216, R217). -/
def Cause.kind : Cause → ErrorKind
  | .noRoom => .destinationTooSmall
  | .sourceTooLong => .destinationTooSmall
  | .escapeTruncated => .malformedStream
  | .literalOverrunsSource => .malformedStream
  | .dstOverflow => .malformedStream
  | .badEnd => .malformedStream
  | .offsetUnderflow => .malformedStream
  | .trailingBytes => .malformedStream

/-- `ERR_KIND` codes (rules R12, R216, R217). -/
def ErrorKind.code : ErrorKind → Nat
  | .destinationTooSmall => 1
  | .malformedStream => 2

/-- The destination capacity of the command an error kind belongs to: only COMPRESS raises DestinationTooSmall and only
DECOMPRESS MalformedStream (rule R215). -/
def ErrorKind.cap (k : ErrorKind) (s : State) : Nat :=
  match k with
  | .destinationTooSmall => s.enc.cap
  | .malformedStream => s.dec.cap

/-- SCRATCH after a failure: unspecified for COMPRESS, untouched for DECOMPRESS (rules R190, R222). -/
def ErrorKind.scratchAfter (k : ErrorKind) (s : State) : Scratch :=
  match k with
  | .destinationTooSmall => s.scratch.forget
  | .malformedStream => s.scratch

/-- `raise Kind(cause)` (rule R222), the one way a command takes its exception: `RESULT` all ones, `ERR_KIND` the kind's code,
`STATUS = DONE + ERR`, the engine stopped, all of `D[0 .. cap)` unspecified, and SCRATCH too for COMPRESS. Nothing is saved and
control goes nowhere. -/
def raise (s : State) (c : Cause) : State :=
  { s with
    result := s.cfg.allOnes
    errKind := c.kind.code
    status := 6
    cause := some c
    phase := .idle
    dst := s.dst.forget 0 (c.kind.cap s)
    scratch := c.kind.scratchAfter s }

/-- `return v` (rule R221): `RESULT <- v`, `ERR_KIND <- 0`, `STATUS <- DONE`, the engine stopped, `D[v .. cap)` unspecified
(rule R34). -/
def complete (s : State) (cap v : Nat) : State :=
  { s with
    result := s.cfg.fit v
    errKind := 0
    status := 2
    cause := none
    phase := .idle
    dst := s.dst.forget v cap }

/-- What an engine step answers: the next state, or the fault of a primitive called outside its bound. -/
def toOutcome : Except Fault State → Host.Outcome State Fault Refusal
  | .ok t => .next t
  | .error f => .fault f

end Sys2Proof.Machine
end

