-- ==== Sys2Proof/Machine/Flags.lean ====
section
/-! DEFINITION. The three flags of the block, bits of `STATUS` (rule R13), and the acceptance of a command, which sets BUSY and
clears DONE and ERR (rule R14). There are no condition codes. -/

namespace Sys2Proof.Machine

/-- `STATUS.BUSY`, bit 0: an engine executes a command. -/
def State.busy (s : State) : Bool := s.status.testBit 0

/-- `STATUS.DONE`, bit 1: the last command has completed and its result registers are valid. -/
def State.done (s : State) : Bool := s.status.testBit 1

/-- `STATUS.ERR`, bit 2: the last command ended in failure. -/
def State.err (s : State) : Bool := s.status.testBit 2

/-- What every accepted write to `CMD` does (rule R14): the code is held, `STATUS <- BUSY`, `RESULT <- 0`, `ERR_KIND <- 0`. -/
def accept (s : State) (code : Nat) : State :=
  { s with cmd := code, status := 1, result := 0, errKind := 0, cause := none }

end Sys2Proof.Machine
end

