-- ==== Sys2Proof/Machine/Commands.lean ====
section
/-! DEFINITION. The two commands: the launch premises (rules R250, R251), without which a model refuses the launch, and what an
accepted write to `CMD` starts (rules R14, R18, R22, R145, R147, R190, R191). -/

namespace Sys2Proof.Machine

/-! ### Which addresses a command uses -/

/-- Two regions share no address. -/
def Extent.disjoint (a b : Extent) : Bool :=
  decide (a.size = 0) || decide (b.size = 0) || decide (a.base + a.size ≤ b.base) || decide (b.base + b.size ≤ a.base)

/-- The addresses of `S[0 .. SRC_LEN)` (rule R30). -/
def State.srcUsed (s : State) : Extent := { base := s.platform.src.base, size := s.srcLen }

/-- The addresses of `D[0 .. DST_CAP)` (rule R30). -/
def State.dstUsed (s : State) : Extent := { base := s.platform.dst.base, size := s.dstCap }

/-- The addresses of the 8192 bytes of SCRATCH (rule R30). -/
def State.scratchUsed (s : State) : Extent := { base := s.platform.scratch.base, size := scratchBytes }

/-- Premise 5 of rule R250: the buffers of the command, as long as it declares them, are pairwise disjoint (rules R30, R58,
R259). -/
def State.disjointForCompress (s : State) : Bool :=
  s.srcUsed.disjoint s.dstUsed && s.srcUsed.disjoint s.scratchUsed && s.dstUsed.disjoint s.scratchUsed

/-- Premise 4 of rule R251: SRC and DST are disjoint; SCRATCH need not exist. -/
def State.disjointForDecompress (s : State) : Bool := s.srcUsed.disjoint s.dstUsed

/-- Premises 2 and 3 of rules R250 and R251: SRC and DST are bound to as much memory as declared (U10). -/
def State.buffersHold (s : State) : Bool :=
  decide (s.srcLen ≤ s.platform.src.size) && decide (s.dstCap ≤ s.platform.dst.size)

/-! ### Memory lent to a command under another buffer's name -/

/-- The bound region of a buffer; SCRATCH is 8192 bytes, whatever more is there. -/
def Platform.extent (p : Platform) : BufferName → Extent
  | .src => p.src
  | .dst => p.dst
  | .scratch => { base := p.scratch.base, size := min p.scratch.size scratchBytes }

/-- The indices of a region, from the first to below the second, at which the addresses of another lie. -/
def Extent.meeting (e w : Extent) : Nat × Nat := (w.base - e.base, min (w.base + w.size - e.base) e.size)

/-- The bytes of a buffer that lie in a region the command may write: unspecified from its start on, until the host writes them
again (rules R55, R257; log entry 10). Nothing where the regions do not meet. -/
def Memory.lend (m : Memory) (e w : Extent) : Memory :=
  if (e.meeting w).1 < (e.meeting w).2 then m.forget (e.meeting w).1 (e.meeting w).2 else m

/-- The same for SCRATCH (rule R190: no other byte of it is touched). -/
def Scratch.lend (t : Scratch) (e w : Extent) : Scratch :=
  if (e.meeting w).1 < (e.meeting w).2 then
    t.keepOnly (fun i => decide (i < (e.meeting w).1) || decide ((e.meeting w).2 ≤ i))
  else t

/-! ### Starting -/

/-- COMPRESS started: the encoder's registers as rules R18 and R147 say, nothing kept of an earlier command (rule R11), the entry
tests next. SCRATCH is all zero. -/
def startCompress (s : State) : State :=
  { accept s 1 with
    phase := .encStart
    enc := { Encoder.reset with n := s.srcLen, cap := s.dstCap, r := 1, anchor := 0, o := 0, miss := 0 }
    src := (s.src.lend (s.platform.extent .src) s.dstUsed).lend (s.platform.extent .src) s.scratchUsed
    dst := s.dst.lend (s.platform.extent .dst) s.scratchUsed
    scratch := s.scratch.zero }

/-- DECOMPRESS started: the decoder's registers as rules R22 and R191 say, nothing kept of an earlier command, at the first
sequence boundary. -/
def startDecompress (s : State) : State :=
  { accept s 2 with
    phase := .decBoundary
    dec := { Decoder.reset with n := s.srcLen, cap := s.dstCap, ip := 0, op := 0 }
    src := s.src.lend (s.platform.extent .src) s.dstUsed
    scratch := s.scratch.lend (s.platform.extent .scratch) s.dstUsed }

/-- COMPRESS, a write of 1 to `CMD` (rules R14, R145): no effect while BUSY; refused without its launch premises (rules R128,
R250, R255); else the encoder engine starts. -/
def execCompress (s : State) : Host.Outcome State Fault Refusal :=
  if s.busy then .next s
  else if !s.scratch.allZero then .refused .scratchNotZero
  else if !s.disjointForCompress then .refused .buffersOverlap
  else if !s.buffersHold || decide (s.platform.scratch.size < scratchBytes) then .refused .bufferTooSmall
  else .next (startCompress s)

/-- DECOMPRESS, a write of 2 to `CMD` (rules R14, R190): no effect while BUSY; refused without its launch premises (rule R251);
else the decoder engine starts. -/
def execDecompress (s : State) : Host.Outcome State Fault Refusal :=
  if s.busy then .next s
  else if !s.disjointForDecompress then .refused .buffersOverlap
  else if !s.buffersHold then .refused .bufferTooSmall
  else .next (startDecompress s)

end Sys2Proof.Machine
end

