-- ==== Sys2Proof/Machine/Operands.lean ====
section
/-! DEFINITION. The operand forms: PACK with its operand ranges (rule R101), the token read of rule R193 as it fills the decoder's
registers, and the lengths of rules R74, R194 and R196. -/

namespace Sys2Proof.Machine

/-- PACK (rule R101): an operand outside its range is a caller error, never truncated. -/
def pack (off lf mf : Nat) : Except Fault Token :=
  if off < 65536 ∧ lf < 16 ∧ mf < 16 then
    .ok (tokenOf (BitVec.ofNat 16 off) (BitVec.ofNat 4 mf) (BitVec.ofNat 4 lf))
  else .error .fieldOutOfRange

/-- Step 1 of a sequence (rule R193) on the registers: the token is at `V`, its fields at `off`, `mf`, `lf`, and `ip` has moved
past its three bytes. The literal length starts at `lf` (rule R194). -/
def takeToken (s : State) (off : BitVec 16) (mf lf : BitVec 4) : State :=
  { s with dec := { s.dec with
      ip := s.dec.ip + 3, v := tokenOf off mf lf, off := off, mf := mf, lf := lf, lit := lf.toNat } }

/-- `mlen <- 4 + mf` (rule R196), which a chain may replace. -/
def takeMatchField (s : State) : State := { s with dec := { s.dec with mlen := 4 + s.dec.mf.toNat } }

/-- The start of ESC.DEC (rule R107): `acc <- 15`, for one of the two lengths; its bytes come one by one. -/
def startChain (s : State) (c : ChainKind) : State :=
  { s with phase := .decChain, dec := { s.dec with acc := 15, chain := c } }

/-- One escape byte taken into the accumulator (rule R107): `ip <- ip + 1; acc <- acc + b`. -/
def takeEscape (s : State) (b : Byte) : State :=
  { s with dec := { s.dec with ip := s.dec.ip + 1, acc := s.dec.acc + b.toNat } }

end Sys2Proof.Machine
end

