-- ==== Sys2Proof/Machine/Copy.lean ====
section
/-! DEFINITION. The copies by their reference effect (rules R170, R172, R176, R183): what a literal copy and a match copy do to
DST. Bytes above the run and below `cap` are slack and become unspecified. The burst strategies are in Tiers.lean. -/

namespace Sys2Proof.Machine

/-- `for i in 0 .. len-1: D[d+i] <- S[s+i]` (rule R172), without the slack. -/
def literalRun (read : Nat → Byte) (d : Memory) (si di : Nat) : Nat → Memory
  | 0 => d
  | k + 1 => literalRun read (d.write di (read si)) (si + 1) (di + 1) k

/-- `for i in 0 .. mlen-1: D[op+i] <- D[op+i-off]`, strictly ascending, each step reading what earlier steps wrote (rule R176),
without the slack. -/
def matchRun (d : Memory) (op off : Nat) : Nat → Memory
  | 0 => d
  | k + 1 => matchRun (d.write op (d.byte 1 (op - off))) (op + 1) off k

/-- LITCOPY.DEC(ip, op, lit) by its reference effect (rules R172, R175), with the requirements of rule R172. -/
def litCopyDec (s : State) : Except Fault State :=
  if s.dec.n < s.dec.ip + s.dec.lit then .error .srcOutOfBounds
  else if s.dec.cap < s.dec.op + s.dec.lit then .error .dstOutOfBounds
  else .ok { s with
    dst := (literalRun s.srcByte s.dst s.dec.ip s.dec.op s.dec.lit).forget (s.dec.op + s.dec.lit) s.dec.cap }

/-- LITCOPY.ENC(anchor, o, lit) by its reference effect, and `o <- o + lit` (rules R155, R172, R173). -/
def litCopyEnc (s : State) (lit : Nat) : Except Fault State :=
  if s.enc.n < s.enc.anchor + lit then .error .srcOutOfBounds
  else if s.enc.cap < s.enc.o + lit then .error .dstOutOfBounds
  else .ok { s with
    dst := (literalRun s.srcByte s.dst s.enc.anchor s.enc.o lit).forget (s.enc.o + lit) s.enc.cap
    enc := { s.enc with o := s.enc.o + lit } }

/-- MATCHCOPY(op, off, mlen) by its reference effect (rules R176, R183), with its requirements `1 <= off <= op` and
`mlen <= cap - op`. -/
def matchCopy (s : State) : Except Fault State :=
  if s.dec.off.toNat = 0 ∨ s.dec.op < s.dec.off.toNat ∨ s.dec.cap < s.dec.op + s.dec.mlen then
    .error .dstOutOfBounds
  else .ok { s with
    dst := (matchRun s.dst s.dec.op s.dec.off.toNat s.dec.mlen).forget (s.dec.op + s.dec.mlen) s.dec.cap }

end Sys2Proof.Machine
end

