-- ==== Sys2Proof/Machine/Decoder.lean ====
section
/-! DEFINITION. The decoder engine (45_decoder.md): the steps of a sequence, the meanings of the eight token forms and of the two
escape bytes, the end test. One step of the machine is one token or one escape byte with everything that follows it up to the
next byte the decoder must read as an instruction (log entry 12). -/

namespace Sys2Proof.Machine

/-! ### The steps of a sequence -/

/-- Step 5, END (rule R197): the three tests in the rule's order, then success. -/
def endStep (s : State) : State :=
  if s.dec.lit = 0 then raise s .badEnd
  else if s.dec.mf ≠ 0 then raise s .badEnd
  else if s.dec.ip ≠ s.dec.n then raise s .badEnd
  else complete s s.dec.cap s.dec.op

/-- Steps 6 and 7, SEQ (rules R199 to R201): the offset test, the room test, the match copy, `op <- op + mlen`, and the next
sequence boundary. -/
def matchStep (s : State) : Except Fault State :=
  if s.dec.op < s.dec.off.toNat then .ok (raise s .offsetUnderflow)
  else if s.dec.cap - s.dec.op < s.dec.mlen then .ok (raise s .dstOverflow)
  else
    match matchCopy s with
    | .error f => .error f
    | .ok t => .ok { t with phase := .decBoundary, dec := { t.dec with op := t.dec.op + t.dec.mlen } }

/-- Once the match length is in its register: END or SEQ by the offset (rules R77, R197, R198). -/
def finishSequence (s : State) : Except Fault State :=
  if s.dec.off = 0 then .ok (endStep s) else matchStep s

/-- Step 4, the match length (rule R196): from its field, then, where the field is saturated, from a chain to be read first. -/
def matchLength (s : State) : Except Fault State :=
  if s.dec.mf = 15 then .ok (startChain (takeMatchField s) .mtch) else finishSequence (takeMatchField s)

/-- Step 3, the literal run (rule R195): both room tests, the copy, the two cursors; then step 4. -/
def literalStep (s : State) : Except Fault State :=
  if s.dec.n - s.dec.ip < s.dec.lit then .ok (raise s .literalOverrunsSource)
  else if s.dec.cap - s.dec.op < s.dec.lit then .ok (raise s .dstOverflow)
  else
    match litCopyDec s with
    | .error f => .error f
    | .ok t => matchLength { t with dec := { t.dec with ip := t.dec.ip + t.dec.lit, op := t.dec.op + t.dec.lit } }

/-- Step 2, the literal length (rule R194): from its field, or a chain to be read first. -/
def literalLength (s : State) : Except Fault State :=
  if s.dec.lf = 15 then .ok (startChain s .literal) else literalStep s

/-- A token with everything up to the next byte that is an instruction (rules R193 to R201). The four SEQ rows and the four rows
with `offset == 0` differ only in their fields (rule R198). -/
def runToken (s : State) (off : BitVec 16) (mf lf : BitVec 4) : Except Fault State :=
  literalLength (takeToken s off mf lf)

/-- The end of a chain (rules R107, R194, R196): the accumulated value is the literal length, or 4 less than the match length. -/
def chainDone (s : State) : Except Fault State :=
  match s.dec.chain with
  | .literal => literalStep { s with dec := { s.dec with lit := s.dec.acc } }
  | .mtch => finishSequence { s with dec := { s.dec with mlen := 4 + s.dec.acc } }

/-- The end test (rule R202), at a sequence boundary with fewer than three bytes left. -/
def tailStep (s : State) : State :=
  if s.dec.ip ≠ s.dec.n then raise s .trailingBytes else complete s s.dec.cap s.dec.op

/-! ### The meanings of the token forms -/

/-- SEQ (rule R198): neither field saturated, the whole sequence in one step. -/
def execSeq (off : BitVec 16) (mf lf : BitVec 4) (s : State) : Host.Outcome State Fault Refusal :=
  toOutcome (runToken s off mf lf)

/-- SEQ.LX (rule R198): the literal chain is read next. -/
def execSeqLx (off : BitVec 16) (mf : BitVec 4) (s : State) : Host.Outcome State Fault Refusal :=
  toOutcome (runToken s off mf 15)

/-- SEQ.MX (rule R198): the literals are copied, the match chain is read next. -/
def execSeqMx (off : BitVec 16) (lf : BitVec 4) (s : State) : Host.Outcome State Fault Refusal :=
  toOutcome (runToken s off 15 lf)

/-- SEQ.LX.MX (rule R198): the literal chain is read next, the match chain after the literals. -/
def execSeqLxMx (off : BitVec 16) (s : State) : Host.Outcome State Fault Refusal :=
  toOutcome (runToken s off 15 15)

/-- END (rule R197): 1 to 14 literals, then the command returns if they end the stream. -/
def execEndTok (lf : BitVec 4) (s : State) : Host.Outcome State Fault Refusal :=
  toOutcome (runToken s 0 0 lf)

/-- END.LX (rule R197): the literal chain is read next. -/
def execEndLx (s : State) : Host.Outcome State Fault Refusal :=
  toOutcome (runToken s 0 0 15)

/-- ILL.END0 (rules R79 I1, R197): no literals; always MalformedStream(BadEnd). -/
def execIllEnd0 (s : State) : Host.Outcome State Fault Refusal :=
  toOutcome (runToken s 0 0 0)

/-- ILL.ENDM (rules R79 I2, R197): always MalformedStream, after its literals and chains have been read (rule R209). -/
def execIllEndM (mf lf : BitVec 4) (s : State) : Host.Outcome State Fault Refusal :=
  toOutcome (runToken s 0 mf lf)

/-! ### The meanings of the escape bytes -/

/-- ESC.CONT (rule R107): adds 255, and the chain goes on. -/
def execEscCont (s : State) : Host.Outcome State Fault Refusal :=
  toOutcome (.ok (takeEscape s 255))

/-- ESC.TERM (rule R107): adds its value and ends the chain; the sequence goes on with the length it gave. -/
def execEscTerm (value : Byte) (s : State) : Host.Outcome State Fault Refusal :=
  toOutcome (chainDone (takeEscape s value))

end Sys2Proof.Machine
end

