-- ==== Sys2Proof/Machine/Dispatch.lean ====
section
/-! DEFINITION. The meaning of every instruction: one arm per constructor of Instr. -/

namespace Sys2Proof.Machine

/-- The instruction's meaning. -/
def exec (i : Instr) (s : State) : Host.Outcome State Fault Refusal :=
  match i with
  | .seq off mf lf => Sys2Proof.Machine.execSeq off mf lf s
  | .seqLx off mf => Sys2Proof.Machine.execSeqLx off mf s
  | .seqMx off lf => Sys2Proof.Machine.execSeqMx off lf s
  | .seqLxMx off => Sys2Proof.Machine.execSeqLxMx off s
  | .endTok lf => Sys2Proof.Machine.execEndTok lf s
  | .endLx => Sys2Proof.Machine.execEndLx s
  | .illEnd0 => Sys2Proof.Machine.execIllEnd0 s
  | .illEndM mf lf => Sys2Proof.Machine.execIllEndM mf lf s
  | .escCont => Sys2Proof.Machine.execEscCont s
  | .escTerm value => Sys2Proof.Machine.execEscTerm value s
  | .compress => Sys2Proof.Machine.execCompress s
  | .decompress => Sys2Proof.Machine.execDecompress s

end Sys2Proof.Machine
end

