-- ==== Sys2Proof/Machine/Extend.lean ====
section
/-! DEFINITION. Match extension by XOR and count-trailing-zeros (42_match_extension.md). -/

namespace Sys2Proof.Machine

/-- `ctz64(x)`: the number of zero bits below the lowest set bit (rule R8). It is applied only to a nonzero word. -/
def ctz64 (x : BitVec 64) : Nat := ((List.range 64).find? (fun i => x.getLsbD i)).getD 64

/-- The 8-byte little-endian word at an index (rule R42). -/
def word64 (read : Nat → Byte) (a : Nat) : BitVec 64 := BitVec.ofNat 64 (leValue (bytesFrom read a 8))

/-- The byte phase of EXTEND (rule R136): `while b < end and S[a] == S[b]`. Fuel first. -/
def extendBytes (read : Nat → Byte) : Nat → Nat → Nat → Nat → Nat
  | 0, _, b, _ => b
  | fuel + 1, a, b, stop =>
    if b < stop ∧ read a = read b then extendBytes read fuel (a + 1) (b + 1) stop else b

/-- The word phase of EXTEND (rule R136), then the byte phase. Fuel first. -/
def extendWords (read : Nat → Byte) : Nat → Nat → Nat → Nat → Nat
  | 0, _, b, _ => b
  | fuel + 1, a, b, stop =>
    if 8 ≤ stop - b then
      if word64 read a ^^^ word64 read b = 0 then extendWords read fuel (a + 8) (b + 8) stop
      else b + ctz64 (word64 read a ^^^ word64 read b) / 8
    else extendBytes read (stop - b) a b stop

/-- EXTEND(a, b, end) as rule R136 walks it; the fuel covers every pass. -/
def extendWalk (read : Nat → Byte) (a b stop : Nat) : Nat := extendWords read (stop - b + 1) a b stop

end Sys2Proof.Machine
end

