-- ==== Sys2Proof/Machine/Hash.lean ====
section
/-! DEFINITION. The hash index: HASH, LOOKUP_INSERT, INSERT (41_hash_index.md). -/

namespace Sys2Proof.Machine

/-- The hash of a 64-bit window: the top 12 bits of the low 64 bits of its product with the multiplier (rule R121). -/
def hashWord (mult w : BitVec 64) : BitVec 12 := (w * mult).extractLsb' 52 12

/-- HASH(p) (rule R121): requires `p + 8 <= n`. -/
def hashAt (s : State) (p : Nat) : Except Fault (BitVec 12) :=
  match memReadSrc s s.enc.n p 8 with
  | .ok w => .ok (hashWord s.cfg.hashMult (BitVec.ofNat 64 w))
  | .error f => .error f

/-- LOOKUP_INSERT(h, p) (rule R123): read the previous occupant and overwrite it, in one step; `h` and the answer `q` go to the
encoder's registers (rule R17). A position must fit the slot. -/
def lookupInsert (s : State) (h : BitVec 12) (p : Nat) : Except Fault State :=
  if p < 65536 then
    .ok { s with
      scratch := s.scratch.setSlot h (BitVec.ofNat 16 p)
      enc := { s.enc with h := h, q := s.scratch.slot h } }
  else .error .positionOutOfRange

/-- INSERT(h, p) (rule R124): LOOKUP_INSERT with the result discarded. -/
def insertPosition (s : State) (h : BitVec 12) (p : Nat) : Except Fault State :=
  if p < 65536 then .ok { s with scratch := s.scratch.setSlot h (BitVec.ofNat 16 p) }
  else .error .positionOutOfRange

end Sys2Proof.Machine
end

