-- ==== Sys2Proof/Machine/Encoder.lean ====
section
/-! DEFINITION. The encoder engine (43_encoder.md): the entry tests, one pass through SEARCH, emission, FLUSH. One step of the
machine is one entry test, one pass or one FLUSH (log entry 12). -/

namespace Sys2Proof.Machine

/-! ### Emission -/

/-- Write bytes at the output cursor and move it past them (rules R101, R105); requires the room. -/
def putDst (s : State) (bytes : List Byte) : Except Fault State :=
  if s.enc.o + bytes.length ≤ s.enc.cap then
    .ok { s with
      dst := s.dst.writeBytes s.enc.o bytes
      enc := { s.enc with o := s.enc.o + bytes.length } }
  else .error .dstOutOfBounds

/-- `if field == 15: o <- ESC.ENC(o, x)` (rules R105, R155). -/
def putEscape (s : State) (x : Nat) : Except Fault State :=
  if field x = 15 then putDst s (escChain x) else .ok s

/-- PUT_TOKEN(o, PACK(off, lf, mf)) (rules R101, R155). -/
def putToken (s : State) (off lf mf : Nat) : Except Fault State :=
  match pack off lf mf with
  | .ok v => putDst s (tokenBytes v)
  | .error f => .error f

/-- EMIT(off, lit, mlen) (rule R155): token, literal chain, literals from `anchor`, match chain. -/
def emit (s : State) (off lit mlen : Nat) : Except Fault State :=
  match putToken s off (field lit) (field (mlen - 4)) with
  | .error f => .error f
  | .ok s1 =>
    match putEscape s1 lit with
    | .error f => .error f
    | .ok s2 =>
      match litCopyEnc s2 lit with
      | .error f => .error f
      | .ok s3 => putEscape s3 (mlen - 4)

/-! ### Start -/

/-- The entry tests: `n > 65536` fails at once (rule R146); `r + SEARCH_TAIL > n` goes to FLUSH, else to SEARCH (rule R147). -/
def encStart (s : State) : State :=
  if maxSrc < s.enc.n then raise s .sourceTooLong
  else if s.enc.n < s.enc.r + s.cfg.searchTail then { s with phase := .encFlush }
  else { s with phase := .encSearch }

/-! ### SEARCH -/

/-- The candidate test (rule R150): the four bytes at `q` and at `r` agree. -/
def candidateAccepted (s : State) : Except Fault Bool :=
  match memReadSrc s s.enc.n s.enc.q.toNat 4, memReadSrc s s.enc.n s.enc.r 4 with
  | .ok a, .ok b => .ok (decide (a = b))
  | .error f, _ => .error f
  | _, .error f => .error f

/-- Where a miss moves the scan cursor (rule R151): by 1, plus 1 for every `2 ^ ACCEL_LOG2` consecutive misses before it. -/
def missCursor (s : State) : Nat := s.enc.r + (1 + s.enc.miss / 2 ^ s.cfg.accelLog2)

/-- A miss (rule R151): the cursor moves on; past the last full chunk the search ends in FLUSH. -/
def searchMiss (s : State) : State :=
  { s with
    enc := { s.enc with r := missCursor s, miss := s.enc.miss + 1 }
    phase := if s.enc.n < missCursor s + s.cfg.searchTail then .encFlush else .encSearch }

/-- After an emitted match (rule R156): `anchor <- e; r <- e; miss <- 0`. -/
def matchTaken (s : State) : State :=
  { s with enc := { s.enc with anchor := s.enc.e, r := s.enc.e, miss := 0 } }

/-- The rest of rule R156: FLUSH if the lookahead would overrun the source, else reinsert the position before `r` and go on
searching. -/
def continueSearch (s : State) : Except Fault State :=
  if s.enc.n < s.enc.r + s.cfg.lookahead then .ok { s with phase := .encFlush }
  else
    match hashAt s (s.enc.r - 1) with
    | .error f => .error f
    | .ok h => insertPosition { s with phase := .encSearch } h (s.enc.r - 1)

/-- The end of the extended match: `e <- EXTEND(q + 4, r + 4, n)` (rule R152). -/
def matchEnd (s : State) : Nat := extendWalk s.srcByte (s.enc.q.toNat + 4) (s.enc.r + 4) s.enc.n

/-- The extended match (rules R152, R153): `e`, `lit`, `mlen`, `off` in their registers. -/
def measureMatch (s : State) : State :=
  { s with enc := { s.enc with
      e := matchEnd s, lit := s.enc.r - s.enc.anchor, mlen := matchEnd s - s.enc.r,
      off := s.enc.r - s.enc.q.toNat } }

/-- The exact size of a sequence (rules R73, R154). -/
def sequenceSize (lit mlen : Nat) : Nat := 3 + escCount lit + lit + escCount (mlen - 4)

/-- The capacity test and the emission of a measured match (rules R154 to R156): without room the match is dropped and the search
ends in FLUSH. -/
def emitMatch (s : State) : Except Fault State :=
  if s.enc.cap - s.enc.o < sequenceSize s.enc.lit s.enc.mlen + s.cfg.encMargin then .ok { s with phase := .encFlush }
  else
    match emit s s.enc.off s.enc.lit s.enc.mlen with
    | .error f => .error f
    | .ok t => continueSearch (matchTaken t)

/-- An accepted candidate (rules R152 to R156). It must lie below `r` and the match inside the source (rules R126, R136). -/
def searchMatch (s : State) : Except Fault State :=
  if s.enc.q.toNat < s.enc.r ∧ s.enc.r + 4 ≤ s.enc.n then emitMatch (measureMatch s)
  else .error .candidateNotEarlier

/-- One pass through SEARCH (rules R148 to R156). -/
def searchStep (s : State) : Except Fault State :=
  match hashAt s s.enc.r with
  | .error f => .error f
  | .ok h =>
    match lookupInsert s h s.enc.r with
    | .error f => .error f
    | .ok t =>
      match candidateAccepted t with
      | .error f => .error f
      | .ok true => searchMatch t
      | .ok false => .ok (searchMiss t)

/-! ### FLUSH -/

/-- COMPRESS ends in success (rules R164, R221, R255): `return o`, SCRATCH of no further use until it is zeroed again. -/
def finishCompress (s : State) : State := { complete s s.enc.cap s.enc.o with scratch := s.scratch.spend }

/-- `lit <- n - anchor` (rule R157). -/
def measureTail (s : State) : State := { s with enc := { s.enc with lit := s.enc.n - s.enc.anchor } }

/-- The END of EMIT(0, lit, 4) as the sequence being emitted (rules R17, R157). -/
def takeTail (s : State) : State := { s with enc := { s.enc with mlen := 4, off := 0 } }

/-- A nonempty literal tail as one END (rule R157), or DestinationTooSmall(NoRoom). -/
def emitTail (s : State) : Except Fault State :=
  if s.enc.cap - s.enc.o < sequenceSize s.enc.lit 4 then .ok (raise s .noRoom)
  else
    match emit (takeTail s) 0 s.enc.lit 4 with
    | .error f => .error f
    | .ok t => .ok (finishCompress t)

/-- What follows once the tail is measured (rule R157): with no literals left, nothing is emitted. -/
def finishFlush (s : State) : Except Fault State :=
  if s.enc.lit = 0 then .ok (finishCompress s) else emitTail s

/-- FLUSH (rule R157): the rest of the source as one END, or nothing if there is none left. -/
def flushStep (s : State) : Except Fault State := finishFlush (measureTail s)

end Sys2Proof.Machine
end

