-- ==== Sys2Proof/Machine/HostMoves.lean ====
section
/-! DEFINITION. What the host and the platform do, apart from the accepted writes to `CMD`: register writes (rules R12 to R14),
writes into the buffers (rules R55, R250, R255, R258), binding (rule R30), reset (rules R37, R245, R246). -/

namespace Sys2Proof.Machine

/-- A write to a register above 0: refused above index 5, where there is none; without effect while BUSY (rule R14) and for the
read-only registers (rules R12, R13; log entry 3); else the value, as wide as the register. -/
def writePlainReg (s : State) (index : Nat) (value : Nat) : Host.Outcome State Fault Refusal :=
  if 5 < index then .refused .noSuchRegister
  else if s.busy then .next s
  else if index = 1 then .next { s with srcLen := s.cfg.fit value }
  else if index = 2 then .next { s with dstCap := s.cfg.fit value }
  else .next s

/-- What is specified at an index of a buffer. -/
def State.held (s : State) (b : BufferName) (i : Nat) : Option Byte :=
  match b with
  | .src => s.src.get? i
  | .dst => s.dst.get? i
  | .scratch => s.scratch.get? i

/-- Where in a region a byte string stored at an address lands: from which index, and which of its bytes. -/
def Extent.landing (e : Extent) (a : Nat) (bytes : List Byte) : Nat × List Byte :=
  (a - e.base, (bytes.drop (e.base - a)).take (e.size - (a - e.base)))

/-- A byte string stored at a platform address, seen in every buffer whose region has those addresses. -/
def storeAt (s : State) (a : Nat) (bytes : List Byte) : State :=
  { s with
    src := s.src.writeBytes ((s.platform.extent .src).landing a bytes).1 ((s.platform.extent .src).landing a bytes).2
    dst := s.dst.writeBytes ((s.platform.extent .dst).landing a bytes).1 ((s.platform.extent .dst).landing a bytes).2
    scratch := s.scratch.writeBytes ((s.platform.extent .scratch).landing a bytes).1
      ((s.platform.extent .scratch).landing a bytes).2 }

/-- The host writes bytes into a buffer: refused while a command runs (rules R55, R258) and outside the bound memory (U18). -/
def hostLoad (s : State) (b : BufferName) (start : Nat) (bytes : List Byte) : Host.Outcome State Fault Refusal :=
  if s.busy then .refused .lentBuffer
  else if (s.platform.extent b).size < start + bytes.length then .refused .outsideBuffer
  else .next (storeAt s ((s.platform.extent b).base + start) bytes)

/-- The host zeroes all 8192 bytes of SCRATCH (rules R250 item 4, R255). -/
def hostZeroScratch (s : State) : Host.Outcome State Fault Refusal :=
  if s.busy then .refused .lentBuffer
  else if s.platform.scratch.size < scratchBytes then .refused .outsideBuffer
  else .next { storeAt s s.platform.scratch.base (List.replicate scratchBytes 0) with scratch := s.scratch.zero }

/-- The platform binds the buffers to other memory, whose contents are unspecified (log entry 9). -/
def platformBind (s : State) (p : Platform) : Host.Outcome State Fault Refusal :=
  if s.busy then .refused .lentBuffer
  else .next { s with
    platform := p
    src := Memory.unspecified (s.src.draw + 1)
    dst := Memory.unspecified (s.dst.draw + 1)
    scratch := s.scratch.forget }

/-- The capacity of the running command: `CMD` says which engine runs (rule R14). -/
def State.runningCap (s : State) : Nat := if s.cmd = 1 then s.enc.cap else s.dec.cap

/-- Reset (rules R37, R245, R246): the six registers 0, a running engine stopped without a result. No buffer is the block's to
reset, but an abandoned command leaves `D[0 .. cap)` unspecified, and SCRATCH is not zero after reset (log entry 16). -/
def resetBlock (s : State) : State :=
  { State.reset with
    cfg := s.cfg
    platform := s.platform
    agenda := s.agenda
    src := s.src
    dst := if s.busy then s.dst.forget 0 s.runningCap else s.dst
    scratch := s.scratch.forget }

end Sys2Proof.Machine
end

