-- ==== Sys2Proof/Machine/Fetch.lean ====
section
/-! DEFINITION. What a step does next: whose turn it is, and whether it is an instruction of the opcode table (a token or an
escape byte fetched from SRC at `ip`, a command code written to `CMD`) or a step without one. -/

namespace Sys2Proof.Machine

/-- What the next step is. -/
inductive Selected where
  /-- It runs an instruction, from this state. -/
  | run (i : Instr) (s : State)
  /-- It runs no instruction and ends so. -/
  | plain (o : Host.Outcome State Fault Refusal)

/-- The three bytes of the token at `ip`, read one by one after the check that they are there (rules R46, R193). -/
def fetchToken (s : State) : Except Fault Instr :=
  if s.dec.ip + 3 ≤ s.dec.n then
    .ok (decodeToken (tokenOfBytes (s.srcByte s.dec.ip) (s.srcByte (s.dec.ip + 1)) (s.srcByte (s.dec.ip + 2))))
  else .error .srcOutOfBounds

/-- At a sequence boundary (rule R192): one token if three bytes remain, else the end test (rule R202). -/
def selectBoundary (s : State) : Selected :=
  if s.dec.n - s.dec.ip < 3 then .plain (.next (tailStep s))
  else
    match fetchToken s with
    | .ok i => .run i s
    | .error f => .plain (.fault f)

/-- Inside ESC.DEC (rule R107): the stream has ended, or the next byte is an escape byte. -/
def selectChain (s : State) : Selected :=
  if s.dec.n - s.dec.ip < 1 then .plain (.next (raise s .escapeTruncated))
  else .run (decodeEscape (s.srcByte s.dec.ip)) s

/-- The engine's turn. An idle block waits for a write to `CMD` (rule R37): nothing changes. -/
def selectEngine (s : State) : Selected :=
  match s.phase with
  | .idle => .plain (.next s)
  | .encStart => .plain (.next (encStart s))
  | .encSearch => .plain (toOutcome (searchStep s))
  | .encFlush => .plain (toOutcome (flushStep s))
  | .decBoundary => selectBoundary s
  | .decChain => selectChain s

/-- A write to `CMD` (rule R14), as wide as the register: a command code is an instruction, which itself tests BUSY; a reserved value has no effect. -/
def selectCommand (s : State) (value : Nat) : Selected :=
  match decodeCommand (s.cfg.fit value) with
  | some i => .run i s
  | none => .plain (.next s)

/-- The host's or the platform's turn. -/
def selectHost (s : State) (m : HostMove) : Selected :=
  match m with
  | .writeReg 0 value => selectCommand s value
  | .writeReg (k + 1) value => .plain (writePlainReg s (k + 1) value)
  | .load b start bytes => .plain (hostLoad s b start bytes)
  | .zeroScratch => .plain (hostZeroScratch s)
  | .bind p => .plain (platformBind s p)
  | .reset => .plain (.next (resetBlock s))

/-- The next step: the first turn of the agenda, which is used up; an empty agenda is the engine's turn (log entry 1). -/
def select (s : State) : Selected :=
  match s.agenda with
  | [] => selectEngine s
  | .engine :: rest => selectEngine { s with agenda := rest }
  | .host m :: rest => selectHost { s with agenda := rest } m

/-! ### Placing an instruction where the next step fetches it -/

/-- The decoder is made to stand at `ip` in a stream whose remaining bytes are given, with room in DST for what they can
produce. A decoder that already runs keeps its registers; otherwise DECOMPRESS is taken as started (log entry 20). -/
def layStream (s : State) (p : Phase) (bytes : List Byte) (room : Nat) : State :=
  { s with
    agenda := .engine :: s.agenda
    cmd := 2
    status := 1
    phase := p
    src := s.src.writeBytes s.dec.ip bytes
    dec := { s.dec with n := s.dec.ip + bytes.length, cap := max s.dec.cap (s.dec.op + room) } }

/-- A token and, as zeros, the escape bytes and literals it announces. -/
def layToken (s : State) (w : Nat) : State :=
  layStream s .decBoundary
    (bytesOfNat 3 w ++ List.replicate (tokenTail (BitVec.ofNat 24 w)) 0) 64

/-- An escape byte in the chain being read, or in a literal chain just begun; a terminating byte of a literal chain is followed
by its literals, as zeros. -/
def layEscape (s : State) (w : Nat) : State :=
  let t := if s.phase = .decChain then s else startChain s .literal
  layStream t .decChain
    (bytesOfNat 1 w ++ List.replicate
      (if t.dec.chain = .literal ∧ BitVec.ofNat 8 w ≠ 255 then t.dec.acc + w % 256 else 0) 0)
    (t.dec.acc + 320)

/-- A write to `CMD` as the host's next move, the block idle, SCRATCH zeroed as the host must before COMPRESS (rule R250). -/
def layCommand (s : State) (w : Nat) : State :=
  { s with
    agenda := .host (.writeReg 0 (w % 2 ^ 32)) :: s.agenda
    status := if s.busy then 0 else s.status
    phase := .idle
    scratch := if w = 1 then s.scratch.zero else s.scratch }

end Sys2Proof.Machine
end

