-- ==== Sys2Proof/Machine/Step.lean ====
section
/-! DEFINITION. One step of the machine, and the placing of an instruction where the next step fetches it. -/

namespace Sys2Proof.Machine

/-- One step: the next instruction by its meaning, or a step without one. -/
def step (s : State) : Host.Outcome State Fault Refusal :=
  match select s with
  | .run i t => exec i t
  | .plain o => o

/-- The state with an instruction of the opcode table, its bits numbered as the table numbers them, placed where the next step
fetches it: a token or an escape byte in SRC at `ip` with the decoder running, a command code in the host's next write to `CMD`
(log entry 20). -/
def State.withFetchWord (s : State) (nbits w : Nat) : State :=
  if nbits = 24 then layToken s w
  else if nbits = 8 then layEscape s w
  else layCommand s w

end Sys2Proof.Machine
end

