-- ==== Sys2Proof/Machine/Tiers.lean ====
section
/-! DEFINITION. The burst strategies of the copies, as rules R171, R173, R175 and R177 to R182 walk them, each access checked. The
meanings use the reference effects of Copy.lean, as rule R183 tells a model to; that these walks have the same effect below the
end of the run and stay in bounds (rules R183, R184) is stated of them. -/

namespace Sys2Proof.Machine

/-- Why a strategy stops: an access outside its bound, or the check kept inside BYTEWISE (rule R182). -/
inductive TierStop where
  | fault (f : Fault)
  | raises (c : Cause)
  deriving DecidableEq, Repr

/-- COPYk from DST to DST (rule R171): the whole chunk is read first, then written; both ranges below `cap`. -/
def copyChunk (cap : Nat) (d : Memory) (k si di : Nat) : Except TierStop Memory :=
  if si + k ≤ cap ∧ di + k ≤ cap then .ok (d.writeBytes di (bytesFrom (d.byte 1) si k))
  else .error (.fault .dstOutOfBounds)

/-- COPYk from SRC to DST (rule R171). -/
def copyChunkSrc (read : Nat → Byte) (n cap : Nat) (d : Memory) (k si di : Nat) : Except TierStop Memory :=
  if n < si + k then .error (.fault .srcOutOfBounds)
  else if cap < di + k then .error (.fault .dstOutOfBounds)
  else .ok (d.writeBytes di (bytesFrom read si k))

/-- LITCOPY.ENC and LITCOPY.DEC as bursts (rules R173, R175): 16 bytes while 16 remain in both buffers, else an exact tail. The
first argument is fuel, at least the literal length. -/
def litBursts (read : Nat → Byte) (n cap : Nat) : Nat → Memory → Nat → Nat → Nat → Nat → Except TierStop Memory
  | 0, d, _, _, _, _ => .ok d
  | fuel + 1, d, si, di, len, w =>
    if len ≤ w then .ok d
    else if 16 ≤ n - (si + w) ∧ 16 ≤ cap - (di + w) then
      match copyChunkSrc read n cap d 16 (si + w) (di + w) with
      | .error e => .error e
      | .ok d' => litBursts read n cap fuel d' si di len (w + 16)
    else copyChunkSrc read n cap d (len - w) (si + w) (di + w)

/-- The five tiers (rule R177). -/
inductive Tier where
  | fill
  | bulk
  | tight
  | doubling
  | bytewise
  deriving DecidableEq, Repr

/-- Tier selection (rule R177), for `off >= 1` and `room = cap - op`. -/
def tierOf (off mlen room : Nat) : Tier :=
  if off = 1 then .fill
  else if 16 ≤ off then
    if 32 * ((mlen + 31) / 32) ≤ room then .bulk else .tight
  else if mlen + 16 ≤ room then .doubling
  else .bytewise

/-- FILL (rule R180). -/
def fillTier (cap : Nat) (d : Memory) (op mlen : Nat) : Except TierStop Memory :=
  if op - 1 < cap ∧ op + mlen ≤ cap then .ok (d.writeBytes op (List.replicate mlen (d.byte 1 (op - 1))))
  else .error (.fault .dstOutOfBounds)

/-- BULK (rule R178): double-chunks while `w < mlen`. Fuel first. -/
def bulkTier (cap : Nat) : Nat → Memory → Nat → Nat → Nat → Nat → Except TierStop Memory
  | 0, d, _, _, _, _ => .ok d
  | fuel + 1, d, op, off, mlen, w =>
    if mlen ≤ w then .ok d
    else
      match copyChunk cap d 16 (op + w - off) (op + w) with
      | .error e => .error e
      | .ok d1 =>
        match copyChunk cap d1 16 (op + w + 16 - off) (op + w + 16) with
        | .error e => .error e
        | .ok d2 => bulkTier cap fuel d2 op off mlen (w + 32)

/-- The 16-byte chunks of TIGHT (rule R179). Fuel first; answers the memory and `w`. -/
def tightChunks (cap : Nat) : Nat → Memory → Nat → Nat → Nat → Nat → Except TierStop (Memory × Nat)
  | 0, d, _, _, _, w => .ok (d, w)
  | fuel + 1, d, op, off, mlen, w =>
    if 16 ≤ mlen - w then
      match copyChunk cap d 16 (op + w - off) (op + w) with
      | .error e => .error e
      | .ok d' => tightChunks cap fuel d' op off mlen (w + 16)
    else .ok (d, w)

/-- One `if mlen - w >= k: COPYk` of TIGHT (rule R179). -/
def tightStep (cap k op off mlen : Nat) (dw : Memory × Nat) : Except TierStop (Memory × Nat) :=
  if k ≤ mlen - dw.2 then
    match copyChunk cap dw.1 k (op + dw.2 - off) (op + dw.2) with
    | .error e => .error e
    | .ok d' => .ok (d', dw.2 + k)
  else .ok dw

/-- TIGHT (rule R179). -/
def tightTier (cap : Nat) (d : Memory) (op off mlen : Nat) : Except TierStop Memory :=
  match tightChunks cap mlen d op off mlen 0 with
  | .error e => .error e
  | .ok a =>
    match tightStep cap 8 op off mlen a with
    | .error e => .error e
    | .ok b =>
      match tightStep cap 4 op off mlen b with
      | .error e => .error e
      | .ok c =>
        match tightStep cap 2 op off mlen c with
        | .error e => .error e
        | .ok f =>
          match tightStep cap 1 op off mlen f with
          | .error e => .error e
          | .ok g => .ok g.1

/-- The two phases of DOUBLING (rule R181), clamped to `mlen`. Fuel first. -/
def doublingTier (cap : Nat) : Nat → Memory → Nat → Nat → Nat → Nat → Except TierStop Memory
  | 0, d, _, _, _, _ => .ok d
  | fuel + 1, d, op, mlen, w, dist =>
    if mlen ≤ w then .ok d
    else if dist < 16 then
      match copyChunk cap d (min dist (mlen - w)) (op + w - dist) (op + w) with
      | .error e => .error e
      | .ok d' => doublingTier cap fuel d' op mlen (w + min dist (mlen - w)) (2 * dist)
    else
      match copyChunk cap d (min 16 (mlen - w)) (op + w - dist) (op + w) with
      | .error e => .error e
      | .ok d' => doublingTier cap fuel d' op mlen (w + min 16 (mlen - w)) dist

/-- BYTEWISE (rule R182), with the check kept inside its loop. -/
def bytewiseTier (cap : Nat) (d : Memory) (op off : Nat) : Nat → Except TierStop Memory
  | 0 => .ok d
  | k + 1 =>
    if cap ≤ op then .error (.raises .dstOverflow)
    else bytewiseTier cap (d.write op (d.byte 1 (op - off))) (op + 1) off k

/-- The match copy as the tier of rule R177 walks it. -/
def matchTier (cap : Nat) (d : Memory) (op off mlen : Nat) : Except TierStop Memory :=
  match tierOf off mlen (cap - op) with
  | .fill => fillTier cap d op mlen
  | .bulk => bulkTier cap mlen d op off mlen 0
  | .tight => tightTier cap d op off mlen
  | .doubling => doublingTier cap mlen d op mlen 0 off
  | .bytewise => bytewiseTier cap d op off mlen

end Sys2Proof.Machine
end

