-- ==== Sys2Proof/Safety.lean ====
section
/-! DEFINITION. What counts as a safe run: the invariant that every step keeps, and the terms in which statements speak of a
completed command. -/

namespace Sys2Proof.Machine

/-- The host-visible registers agree with where the engines stand (rules R13, R14, R215, R221, R222). -/
def RegistersAgree (s : State) : Prop :=
  (s.phase ≠ .idle → s.status = 1 ∧ s.result = 0 ∧ s.errKind = 0) ∧
  (s.phase = .idle →
    (s.status = 0 ∧ s.result = 0 ∧ s.errKind = 0) ∨
    (s.status = 2 ∧ s.errKind = 0) ∨
    (s.status = 6 ∧ s.result = s.cfg.allOnes ∧ (s.errKind = 1 ∨ s.errKind = 2)))

/-- Each register that takes a value from outside or from a cursor holds one of `LEN_BITS` bits (rules R6, R12). -/
def RegistersFit (s : State) : Prop :=
  s.srcLen < 2 ^ s.cfg.lenBits ∧ s.dstCap < 2 ^ s.cfg.lenBits ∧ s.result < 2 ^ s.cfg.lenBits

/-- Which command runs is held in `CMD` (rule R14). -/
def CommandAgrees (s : State) : Prop :=
  match s.phase with
  | .idle => True
  | .encStart => s.cmd = 1
  | .encSearch => s.cmd = 1
  | .encFlush => s.cmd = 1
  | .decBoundary => s.cmd = 2
  | .decChain => s.cmd = 2

/-- Every slot of the hash index holds a position below `r` (rule R126). -/
def SlotsBelow (s : State) : Prop := ∀ h : BitVec 12, (s.scratch.slot h).toNat < s.enc.r

/-- The encoder's registers where its rules read them (rules R17, R126, R148, R154, R158). -/
def EncoderInv (s : State) : Prop :=
  match s.phase with
  | .idle => True
  | .encStart =>
    s.enc.r = 1 ∧ s.enc.anchor = 0 ∧ s.enc.o = 0 ∧ s.enc.miss = 0 ∧ s.enc.cap < 2 ^ s.cfg.lenBits ∧ SlotsBelow s
  | .encSearch =>
    1 ≤ s.enc.r ∧ s.enc.r + 8 ≤ s.enc.n ∧ s.enc.n ≤ maxSrc ∧ s.enc.anchor ≤ s.enc.r ∧
    s.enc.o ≤ s.enc.cap ∧ s.enc.cap < 2 ^ s.cfg.lenBits ∧ SlotsBelow s
  | .encFlush => s.enc.anchor ≤ s.enc.n ∧ s.enc.n ≤ maxSrc ∧ s.enc.o ≤ s.enc.cap ∧ s.enc.cap < 2 ^ s.cfg.lenBits
  | .decBoundary => True
  | .decChain => True

/-- The decoder's cursors stay inside their buffers, and every output byte below `op` has been written by this command
(rules R21, R48, R207). -/
def DecoderReady (s : State) : Prop :=
  s.dec.ip ≤ s.dec.n ∧ s.dec.op ≤ s.dec.cap ∧ s.dec.cap < 2 ^ s.cfg.lenBits ∧ ∀ i, i < s.dec.op → s.dst.get? i ≠ none

/-- The decoder's invariant: `DecoderReady` while it runs. -/
def DecoderInv (s : State) : Prop :=
  match s.phase with
  | .idle => True
  | .encStart => True
  | .encSearch => True
  | .encFlush => True
  | .decBoundary => DecoderReady s
  | .decChain => DecoderReady s

/-- The encoder engine runs. -/
def State.encoding (s : State) : Prop := s.phase = .encStart ∨ s.phase = .encSearch ∨ s.phase = .encFlush

/-- The decoder engine runs. -/
def State.decoding (s : State) : Prop := s.phase = .decBoundary ∨ s.phase = .decChain

/-- A running encoder works on a SCRATCH that was all zero: no byte of it is unspecified (rules R126, R255). -/
def ScratchInv (s : State) : Prop := s.encoding → s.scratch.kind = .cleared

/-- The invariant of the machine. -/
structure Inv (s : State) : Prop where
  cfg : s.cfg.wf = true
  src : s.src.wf
  dst : s.dst.wf
  scratch : s.scratch.wf
  registers : RegistersAgree s
  widths : RegistersFit s
  command : CommandAgrees s
  encoder : EncoderInv s
  decoder : DecoderInv s
  index : ScratchInv s

/-- What a failure of DECOMPRESS leaves (rules R217, R222): the result registers, the engine stopped, `D[0 .. cap)` unspecified,
every byte of DST at or above `cap` and everything that is neither a result register nor a decoder register as it was. -/
structure DecodeFailed (s t : State) (c : Cause) : Prop where
  status : t.status = 6
  result : t.result = s.cfg.allOnes
  errKind : t.errKind = 2
  cause : t.cause = some c
  phase : t.phase = .idle
  lost : ∀ i, i < s.dec.cap → t.dst.get? i = none
  kept : ∀ i, s.dec.cap ≤ i → t.dst.get? i = s.dst.get? i
  frame : t.cfg = s.cfg ∧ t.platform = s.platform ∧ t.agenda = s.agenda ∧ t.cmd = s.cmd ∧ t.srcLen = s.srcLen ∧
    t.dstCap = s.dstCap ∧ t.enc = s.enc ∧ t.src = s.src ∧ t.scratch = s.scratch

/-- Bytes of DST below `start` and at or above `cap` read as before. -/
def DstKept (before after : Memory) (start cap : Nat) : Prop :=
  ∀ i, i < start ∨ cap ≤ i → after.get? i = before.get? i

/-- A literal run: `D[di+i] = S[si+i]` for `i < len` (rule R172). -/
def LiteralsAt (s : State) (d : Memory) (si di len : Nat) : Prop :=
  ∀ i, i < len → d.get? (di + i) = some (s.srcByte (si + i))

/-- A match: `D[op+j] = D[op+j-off]` for `j < mlen` (rule R176). -/
def MatchAt (d : Memory) (op off mlen : Nat) : Prop := ∀ j, j < mlen → d.get? (op + j) = d.get? (op + j - off)

/-- A buffer holds a byte string from an index on. -/
def Memory.holds (m : Memory) (start : Nat) (bytes : List Byte) : Prop :=
  ∀ i, i < bytes.length → m.get? (start + i) = bytes[i]?

/-- SRC, as the engines read it, holds a byte string from an index on. -/
def State.srcHolds (s : State) (start : Nat) (bytes : List Byte) : Prop :=
  ∀ i, i < bytes.length → some (s.srcByte (start + i)) = bytes[i]?

/-- The slot a pass through SEARCH looks up, and the candidate position it holds (rule R148). -/
def SearchSlotIs (s : State) (h : BitVec 12) (q : Nat) : Prop :=
  hashAt s s.enc.r = .ok h ∧ (s.scratch.slot h).toNat = q

/-- An address of a region. -/
abbrev Extent.has (e : Extent) (a : Nat) : Prop := e.base ≤ a ∧ a < e.base + e.size

/-- Two regions share an address (rules R58, R259). -/
def Extent.meets (e f : Extent) : Prop := ∃ a, e.has a ∧ f.has a

/-- The launch requirements of COMPRESS (rule R250), as named premises. The canonical form of SCRATCH is the model's own. -/
structure CompressLaunch (s : State) : Prop where
  idle : s.busy = false
  scratchWf : s.scratch.wf
  scratchZero : ∀ i, i < scratchBytes → s.scratch.get? i = some 0
  srcHolds : s.srcLen ≤ s.platform.src.size
  dstHolds : s.dstCap ≤ s.platform.dst.size
  scratchHolds : scratchBytes ≤ s.platform.scratch.size
  disjoint : ¬ s.srcUsed.meets s.dstUsed ∧ ¬ s.srcUsed.meets s.scratchUsed ∧ ¬ s.dstUsed.meets s.scratchUsed

/-- The launch requirements of DECOMPRESS (rule R251), as named premises. -/
structure DecompressLaunch (s : State) : Prop where
  idle : s.busy = false
  srcHolds : s.srcLen ≤ s.platform.src.size
  dstHolds : s.dstCap ≤ s.platform.dst.size
  disjoint : ¬ s.srcUsed.meets s.dstUsed

/-- `k` turns of the engine from a state whose agenda is empty. -/
def runsTo (k : Nat) (s t : State) : Prop := core.run k s = .next t

end Sys2Proof.Machine
end

