-- ==== Sys2Proof/Certificates/Slice0/Obligations.lean ====
section
/-! DEFINITION. The statements for the provers. -/

open Sys2Proof Sys2Proof.Machine

/-! ### The encoding -/

/-- Rules R71, R82: decoding an encoded instruction gives it back, whatever follows it, for all twelve forms. -/
def Obligations.DecodeInvertsEncode : Prop :=
  ∀ (i : Instr) (rest : List Byte), i.wf = true → decode i.kind (encode i ++ rest) = .ok (i, rest)

/-- Rules R80, R82: what decodes is a well-formed instruction of the kind asked for, and its bytes are the ones the encoder
writes: no bit of an encoding is dropped and no byte string has two readings. -/
def Obligations.EncodeInvertsDecode : Prop :=
  ∀ (k : FetchKind) (bytes : List Byte) (i : Instr) (rest : List Byte),
    decode k bytes = .ok (i, rest) → i.wf = true ∧ i.kind = k ∧ bytes = encode i ++ rest

/-- Rule R82: the eight token rows partition the token values, and the decoder answers the one row that selects a value; an
escape byte is `ESC.CONT` exactly at 255; `CMD` 1 is COMPRESS, 2 is DECOMPRESS, every other value is reserved. -/
def Obligations.OpcodeTableSelectsOneForm : Prop :=
  (∀ v : Token, ((tokenRows.filter (fun row => row.selects v)).map TokenRow.mnemonic) = [(decodeToken v).mnemonic]) ∧
  (∀ b : Byte, (decodeEscape b = .escCont ↔ b = 0xFF) ∧ (b ≠ 0xFF → decodeEscape b = .escTerm b)) ∧
  (∀ w : Nat, decodeCommand w = (if w = 0x00000001 then some .compress else if w = 0x00000002 then some .decompress else none))

/-- Rules R101, R102: UNPACK undoes PACK on all in-range operands, PACK undoes UNPACK on all token values, and PACK refuses an
operand outside its range instead of truncating it. -/
def Obligations.PackAndUnpackAreInverse : Prop :=
  (∀ off lf mf : Nat, off < 65536 → lf < 16 → mf < 16 →
    ∃ v, pack off lf mf = .ok v ∧ v.toNat = off + mf * 2 ^ 16 + lf * 2 ^ 20 ∧
      (tokenOff v).toNat = off ∧ (tokenMf v).toNat = mf ∧ (tokenLf v).toNat = lf) ∧
  (∀ v : Token, pack (tokenOff v).toNat (tokenLf v).toNat (tokenMf v).toNat = .ok v) ∧
  (∀ off lf mf : Nat, ¬(off < 65536 ∧ lf < 16 ∧ mf < 16) → pack off lf mf = .error .fieldOutOfRange)

/-- Rule R41: a token occupies three consecutive bytes, least significant byte first. -/
def Obligations.TokenIsThreeBytesLowFirst : Prop :=
  (∀ v : Token, tokenBytes v = [v.extractLsb' 0 8, v.extractLsb' 8 8, v.extractLsb' 16 8]) ∧
  (∀ b0 b1 b2 : Byte, (tokenOfBytes b0 b1 b2).toNat = b0.toNat + b1.toNat * 2 ^ 8 + b2.toNat * 2 ^ 16 ∧
    tokenBytes (tokenOfBytes b0 b1 b2) = [b0, b1, b2])

/-- Words written out from rules R71, R75, R81 and R82 decode to the forms they stand for. -/
def Obligations.SpecWordsDecode : Prop :=
  decodeTableWord 24 0x130001 = some (.seq 1 3 1) ∧ decodeTableWord 24 0xF50003 = some (.seqLx 3 5) ∧
  decodeTableWord 24 0x1F0001 = some (.seqMx 1 1) ∧ decodeTableWord 24 0xFF0014 = some (.seqLxMx 20) ∧
  decodeTableWord 24 0x300000 = some (.endTok 3) ∧ decodeTableWord 24 0xF00000 = some .endLx ∧
  decodeTableWord 24 0x000000 = some .illEnd0 ∧ decodeTableWord 24 0x110000 = some (.illEndM 1 1) ∧
  decodeTableWord 8 0xFF = some .escCont ∧ decodeTableWord 8 0xFB = some (.escTerm 0xFB) ∧
  decodeTableWord 32 1 = some .compress ∧ decodeTableWord 32 2 = some .decompress ∧ decodeTableWord 32 3 = none

/-- Rule R108: ESC.DEC over the bytes ESC.ENC wrote for `x >= 15` returns `x` and consumes exactly `esc(x)` bytes; below 15 the
field alone carries `x`. -/
def Obligations.EscapeChainRoundTrips : Prop :=
  (∀ (x : Nat) (rest : List Byte), 15 ≤ x →
    escDecode 15 (escChain x ++ rest) = some (x, rest) ∧ (escChain x).length = escCount x) ∧
  (∀ (x : Nat) (rest : List Byte), x < 15 →
    lengthParse (BitVec.ofNat 4 (field x)) rest = some (x, rest) ∧ escBytes x = [])

/-- Rule R76: each `(off, lit, mlen)` with its literal bytes has exactly one encoding as a sequence, and decoding the sequence
gives it back; with the length of rule R73. -/
def Obligations.SequenceHasOneEncoding : Prop :=
  (∀ (q : Sequence) (rest : List Byte), 4 ≤ q.mlen → Sequence.parse (q.encode ++ rest) = some (q, rest)) ∧
  (∀ (bytes : List Byte) (q : Sequence) (rest : List Byte),
    Sequence.parse bytes = some (q, rest) → 4 ≤ q.mlen ∧ bytes = q.encode ++ rest) ∧
  (∀ q : Sequence, q.encode.length = 3 + escCount q.literals.length + q.literals.length + escCount (q.mlen - 4))

/-! ### A step runs the instruction -/

/-- Rules R14, R107, R192, R193: where the bytes at `ip` decode to an instruction, the engine's turn is that instruction's meaning
at this state; a write to `CMD` whose value, as wide as the register, is a command code is the
command's meaning, the move being used up; an engine turn standing in the
agenda is used up before it is taken. -/
def Obligations.StepRunsDecodedInstruction : Prop :=
  (∀ (s : State) (i : Instr), s.agenda = [] → s.phase = .decBoundary → s.dec.ip + 3 ≤ s.dec.n →
    decode .token (bytesFrom s.srcByte s.dec.ip 3) = .ok (i, []) → step s = exec i s) ∧
  (∀ (s : State) (i : Instr), s.agenda = [] → s.phase = .decChain → s.dec.ip + 1 ≤ s.dec.n →
    decode .escape (bytesFrom s.srcByte s.dec.ip 1) = .ok (i, []) → step s = exec i s) ∧
  (∀ (s : State) (i : Instr) (w : Nat) (rest : List Turn), s.agenda = .host (.writeReg 0 w) :: rest →
    decodeCommand (s.cfg.fit w) = some i → step s = exec i { s with agenda := rest }) ∧
  (∀ (s : State) (i : Instr) (rest : List Turn), s.agenda = .engine :: rest → s.phase = .decBoundary →
    s.dec.ip + 3 ≤ s.dec.n → decode .token (bytesFrom s.srcByte s.dec.ip 3) = .ok (i, []) →
    step s = exec i { s with agenda := rest }) ∧
  (∀ (s : State) (i : Instr) (rest : List Turn), s.agenda = .engine :: rest → s.phase = .decChain →
    s.dec.ip + 1 ≤ s.dec.n → decode .escape (bytesFrom s.srcByte s.dec.ip 1) = .ok (i, []) →
    step s = exec i { s with agenda := rest })

/-- The model's own placing of an instruction (log entry 20): the next step runs exactly the instruction the decoder reads from the
word, for every parameter rule R6 allows. -/
def Obligations.FetchWordPlacesInstruction : Prop :=
  ∀ (s : State) (w : Nat) (i : Instr), s.cfg.wf = true →
    (decodeTableWord 24 w = some i →
      step (s.withFetchWord 24 w) = exec i { s.withFetchWord 24 w with agenda := s.agenda }) ∧
    (decodeTableWord 8 w = some i →
      step (s.withFetchWord 8 w) = exec i { s.withFetchWord 8 w with agenda := s.agenda }) ∧
    (decodeTableWord 32 w = some i →
      step (s.withFetchWord 32 w) = exec i { s.withFetchWord 32 w with agenda := s.agenda })

/-! ### The token forms -/

/-- Rules R193 to R201, SEQ: where no test fails, the literals and then the match are in DST, both cursors have moved past the
sequence, and nothing else changed: no register of the host or of the encoder, no byte of SRC or SCRATCH, no byte of DST below the
old `op` or at or above `cap`. -/
def Obligations.SeqExecutes : Prop :=
  ∀ (s : State) (off : BitVec 16) (mf lf : BitVec 4), DecoderReady s → off ≠ 0 → mf ≠ 15 → lf ≠ 15 →
    s.dec.ip + 3 + lf.toNat ≤ s.dec.n → s.dec.op + lf.toNat + (4 + mf.toNat) ≤ s.dec.cap →
    off.toNat ≤ s.dec.op + lf.toNat →
    ∃ d : Memory,
      exec (.seq off mf lf) s = .next { s with
        phase := .decBoundary
        dst := d
        dec := { s.dec with
          ip := s.dec.ip + 3 + lf.toNat, op := s.dec.op + lf.toNat + (4 + mf.toNat), v := tokenOf off mf lf,
          off := off, mf := mf, lf := lf, lit := lf.toNat, mlen := 4 + mf.toNat } } ∧
      LiteralsAt s d (s.dec.ip + 3) s.dec.op lf.toNat ∧ MatchAt d (s.dec.op + lf.toNat) off.toNat (4 + mf.toNat) ∧
      DstKept s.dst d s.dec.op s.dec.cap

/-- Rules R195, R199, R200, R209: the tests of SEQ in their order, each failing the command with its own cause and everything
outside the result registers, the decoder's registers and `D[0 .. cap)` as it was. SEQ.MX and ILL.ENDM with `mf = 15` fail on
their literals by the same two tests, before any chain is read. -/
def Obligations.SeqFailsInTestOrder : Prop :=
  (∀ (s : State) (off : BitVec 16) (lf : BitVec 4), DecoderReady s → s.dec.ip + 3 ≤ s.dec.n → lf ≠ 15 →
    (s.dec.n - (s.dec.ip + 3) < lf.toNat →
      (∃ t, exec (.seqMx off lf) s = .next t ∧ DecodeFailed s t .literalOverrunsSource) ∧
      (∃ t, exec (.illEndM 15 lf) s = .next t ∧ DecodeFailed s t .literalOverrunsSource)) ∧
    (lf.toNat ≤ s.dec.n - (s.dec.ip + 3) → s.dec.cap - s.dec.op < lf.toNat →
      (∃ t, exec (.seqMx off lf) s = .next t ∧ DecodeFailed s t .dstOverflow) ∧
      (∃ t, exec (.illEndM 15 lf) s = .next t ∧ DecodeFailed s t .dstOverflow))) ∧
  ∀ (s : State) (off : BitVec 16) (mf lf : BitVec 4), DecoderReady s → s.dec.ip + 3 ≤ s.dec.n →
    off ≠ 0 → mf ≠ 15 → lf ≠ 15 →
    (s.dec.n - (s.dec.ip + 3) < lf.toNat →
      ∃ t, exec (.seq off mf lf) s = .next t ∧ DecodeFailed s t .literalOverrunsSource) ∧
    (lf.toNat ≤ s.dec.n - (s.dec.ip + 3) → s.dec.cap - s.dec.op < lf.toNat →
      ∃ t, exec (.seq off mf lf) s = .next t ∧ DecodeFailed s t .dstOverflow) ∧
    (lf.toNat ≤ s.dec.n - (s.dec.ip + 3) → lf.toNat ≤ s.dec.cap - s.dec.op → s.dec.op + lf.toNat < off.toNat →
      ∃ t, exec (.seq off mf lf) s = .next t ∧ DecodeFailed s t .offsetUnderflow) ∧
    (lf.toNat ≤ s.dec.n - (s.dec.ip + 3) → lf.toNat ≤ s.dec.cap - s.dec.op → off.toNat ≤ s.dec.op + lf.toNat →
      s.dec.cap - (s.dec.op + lf.toNat) < 4 + mf.toNat →
      ∃ t, exec (.seq off mf lf) s = .next t ∧ DecodeFailed s t .dstOverflow)

/-- Rules R193, R194, R107: a token with a saturated literal length (SEQ.LX, SEQ.LX.MX, END.LX, ILL.ENDM with `lf = 15`) is taken
into its registers and the literal chain starts at 15; nothing else changes. -/
def Obligations.SaturatedLiteralStartsChain : Prop :=
  ∀ (s : State) (off : BitVec 16) (mf : BitVec 4),
    let taken (o : BitVec 16) (m : BitVec 4) : State := { s with
      phase := .decChain
      dec := { s.dec with
        ip := s.dec.ip + 3, v := tokenOf o m 15, off := o, mf := m, lf := 15, lit := 15, acc := 15, chain := .literal } }
    exec (.seqLx off mf) s = .next (taken off mf) ∧ exec (.seqLxMx off) s = .next (taken off 15) ∧
    exec .endLx s = .next (taken 0 0) ∧ exec (.illEndM mf 15) s = .next (taken 0 mf)

/-- Rules R193 to R196: a token with only the match length saturated (SEQ.MX, ILL.ENDM with `mf = 15`) whose literals fit has them
copied, `mlen` starts at `4 + 15` and the match chain at 15; nothing else changes. -/
def Obligations.SaturatedMatchStartsChainAfterLiterals : Prop :=
  ∀ (s : State) (off : BitVec 16) (lf : BitVec 4), DecoderReady s → lf ≠ 15 →
    s.dec.ip + 3 + lf.toNat ≤ s.dec.n → s.dec.op + lf.toNat ≤ s.dec.cap →
    ∃ d : Memory,
      (let taken (o : BitVec 16) : State := { s with
        phase := .decChain
        dst := d
        dec := { s.dec with
          ip := s.dec.ip + 3 + lf.toNat, op := s.dec.op + lf.toNat, v := tokenOf o 15 lf, off := o, mf := 15, lf := lf,
          lit := lf.toNat, mlen := 19, acc := 15, chain := .mtch } }
       exec (.seqMx off lf) s = .next (taken off) ∧ exec (.illEndM 15 lf) s = .next (taken 0)) ∧
      LiteralsAt s d (s.dec.ip + 3) s.dec.op lf.toNat ∧ DstKept s.dst d s.dec.op s.dec.cap

/-- Rules R195, R197, R221: an END of 1 to 14 literals that end the stream completes the command: the literals are the last bytes
of the output, `RESULT` is its length, `STATUS` is DONE, `D[RESULT .. cap)` is unspecified; nothing else changes. -/
def Obligations.EndCompletesCommand : Prop :=
  ∀ (s : State) (lf : BitVec 4), DecoderReady s → lf ≠ 0 → lf ≠ 15 →
    s.dec.ip + 3 + lf.toNat = s.dec.n → s.dec.op + lf.toNat ≤ s.dec.cap →
    ∃ d : Memory,
      exec (.endTok lf) s = .next { s with
        status := 2, result := s.dec.op + lf.toNat, errKind := 0, cause := none, phase := .idle
        dst := d
        dec := { s.dec with
          ip := s.dec.ip + 3 + lf.toNat, op := s.dec.op + lf.toNat, v := tokenOf 0 0 lf, off := 0, mf := 0, lf := lf,
          lit := lf.toNat, mlen := 4 } } ∧
      LiteralsAt s d (s.dec.ip + 3) s.dec.op lf.toNat ∧ DstKept s.dst d s.dec.op s.dec.cap ∧
      (∀ i, s.dec.op + lf.toNat ≤ i → i < s.dec.cap → d.get? i = none)

/-- Rules R79 (I1, I2, I3), R197: ILL.END0 always ends in MalformedStream(BadEnd); ILL.ENDM without a chain always in
MalformedStream; an END in MalformedStream where a literal does not fit or does not end the stream. -/
def Obligations.IllegalEndsFail : Prop :=
  ∀ (s : State), DecoderReady s → s.dec.ip + 3 ≤ s.dec.n →
    (∃ t, exec .illEnd0 s = .next t ∧ DecodeFailed s t .badEnd) ∧
    (∀ mf lf : BitVec 4, mf ≠ 0 → mf ≠ 15 → lf ≠ 15 →
      ∃ t c, exec (.illEndM mf lf) s = .next t ∧ DecodeFailed s t c) ∧
    (∀ lf : BitVec 4, lf ≠ 0 → lf ≠ 15 →
      (s.dec.n - (s.dec.ip + 3) < lf.toNat →
        ∃ t, exec (.endTok lf) s = .next t ∧ DecodeFailed s t .literalOverrunsSource) ∧
      (lf.toNat ≤ s.dec.n - (s.dec.ip + 3) → s.dec.cap - s.dec.op < lf.toNat →
        ∃ t, exec (.endTok lf) s = .next t ∧ DecodeFailed s t .dstOverflow) ∧
      (lf.toNat < s.dec.n - (s.dec.ip + 3) → lf.toNat ≤ s.dec.cap - s.dec.op →
        ∃ t, exec (.endTok lf) s = .next t ∧ DecodeFailed s t .badEnd))

/-! ### The escape bytes -/

/-- Rule R107: ESC.CONT adds 255 and moves `ip` by one; nothing else changes. -/
def Obligations.EscContAddsAndContinues : Prop :=
  ∀ s : State, exec .escCont s = .next { s with dec := { s.dec with ip := s.dec.ip + 1, acc := s.dec.acc + 255 } }

/-- Rules R107, R194 to R201: ESC.TERM at the end of the literal chain of a SEQ whose match length is not saturated finishes the
sequence with the accumulated literal length. -/
def Obligations.EscTermFinishesLiteralChainOfSeq : Prop :=
  ∀ (s : State) (b : Byte), DecoderReady s → b ≠ 255 → s.dec.chain = .literal → s.dec.off ≠ 0 → s.dec.mf ≠ 15 →
    s.dec.ip + 1 + (s.dec.acc + b.toNat) ≤ s.dec.n →
    s.dec.op + (s.dec.acc + b.toNat) + (4 + s.dec.mf.toNat) ≤ s.dec.cap →
    s.dec.off.toNat ≤ s.dec.op + (s.dec.acc + b.toNat) →
    ∃ d : Memory,
      exec (.escTerm b) s = .next { s with
        phase := .decBoundary
        dst := d
        dec := { s.dec with
          ip := s.dec.ip + 1 + (s.dec.acc + b.toNat), op := s.dec.op + (s.dec.acc + b.toNat) + (4 + s.dec.mf.toNat),
          acc := s.dec.acc + b.toNat, lit := s.dec.acc + b.toNat, mlen := 4 + s.dec.mf.toNat } } ∧
      LiteralsAt s d (s.dec.ip + 1) s.dec.op (s.dec.acc + b.toNat) ∧
      MatchAt d (s.dec.op + (s.dec.acc + b.toNat)) s.dec.off.toNat (4 + s.dec.mf.toNat) ∧
      DstKept s.dst d s.dec.op s.dec.cap

/-- Rules R107, R195, R197, R221: ESC.TERM at the end of the literal chain of an END whose literals end the stream completes the
command. -/
def Obligations.EscTermFinishesLiteralChainOfEnd : Prop :=
  ∀ (s : State) (b : Byte), DecoderReady s → b ≠ 255 → s.dec.chain = .literal → s.dec.off = 0 → s.dec.mf = 0 →
    0 < s.dec.acc + b.toNat → s.dec.ip + 1 + (s.dec.acc + b.toNat) = s.dec.n →
    s.dec.op + (s.dec.acc + b.toNat) ≤ s.dec.cap →
    ∃ d : Memory,
      exec (.escTerm b) s = .next { s with
        status := 2, result := s.dec.op + (s.dec.acc + b.toNat), errKind := 0, cause := none, phase := .idle
        dst := d
        dec := { s.dec with
          ip := s.dec.ip + 1 + (s.dec.acc + b.toNat), op := s.dec.op + (s.dec.acc + b.toNat),
          acc := s.dec.acc + b.toNat, lit := s.dec.acc + b.toNat, mlen := 4 } } ∧
      LiteralsAt s d (s.dec.ip + 1) s.dec.op (s.dec.acc + b.toNat) ∧ DstKept s.dst d s.dec.op s.dec.cap ∧
      (∀ i, s.dec.op + (s.dec.acc + b.toNat) ≤ i → i < s.dec.cap → d.get? i = none)

/-- Rules R107, R194 to R196: ESC.TERM at the end of a literal chain, the match length saturated too, copies the literals,
puts `4 + 15` into `mlen` and starts the match chain at 15. -/
def Obligations.EscTermStartsMatchChain : Prop :=
  ∀ (s : State) (b : Byte), DecoderReady s → b ≠ 255 → s.dec.chain = .literal → s.dec.mf = 15 →
    s.dec.ip + 1 + (s.dec.acc + b.toNat) ≤ s.dec.n → s.dec.op + (s.dec.acc + b.toNat) ≤ s.dec.cap →
    ∃ d : Memory,
      exec (.escTerm b) s = .next { s with
        phase := .decChain
        dst := d
        dec := { s.dec with
          ip := s.dec.ip + 1 + (s.dec.acc + b.toNat), op := s.dec.op + (s.dec.acc + b.toNat),
          lit := s.dec.acc + b.toNat, mlen := 19, acc := 15, chain := .mtch } } ∧
      LiteralsAt s d (s.dec.ip + 1) s.dec.op (s.dec.acc + b.toNat) ∧ DstKept s.dst d s.dec.op s.dec.cap

/-- Rules R107, R196, R199 to R201: ESC.TERM at the end of the match chain of a SEQ copies the match of 4 more than the
accumulated length. -/
def Obligations.EscTermFinishesMatchChain : Prop :=
  ∀ (s : State) (b : Byte), DecoderReady s → b ≠ 255 → s.dec.chain = .mtch → s.dec.off ≠ 0 →
    s.dec.off.toNat ≤ s.dec.op → s.dec.op + (4 + (s.dec.acc + b.toNat)) ≤ s.dec.cap →
    ∃ d : Memory,
      exec (.escTerm b) s = .next { s with
        phase := .decBoundary
        dst := d
        dec := { s.dec with
          ip := s.dec.ip + 1, op := s.dec.op + (4 + (s.dec.acc + b.toNat)), acc := s.dec.acc + b.toNat,
          mlen := 4 + (s.dec.acc + b.toNat) } } ∧
      MatchAt d s.dec.op s.dec.off.toNat (4 + (s.dec.acc + b.toNat)) ∧ DstKept s.dst d s.dec.op s.dec.cap

/-- Rules R107, R195, R197, R199, R200: where a test fails after a chain's last byte, the command ends in MalformedStream with that
test's cause. An END with a match chain is one with `match_len_field` 15 (case I2). -/
def Obligations.EscTermFailsInTestOrder : Prop :=
  ∀ (s : State) (b : Byte), DecoderReady s → s.dec.ip + 1 ≤ s.dec.n → b ≠ 255 →
    (s.dec.chain = .literal → s.dec.n - (s.dec.ip + 1) < s.dec.acc + b.toNat →
      ∃ t, exec (.escTerm b) s = .next t ∧ DecodeFailed s t .literalOverrunsSource) ∧
    (s.dec.chain = .literal → s.dec.acc + b.toNat ≤ s.dec.n - (s.dec.ip + 1) →
      s.dec.cap - s.dec.op < s.dec.acc + b.toNat →
      ∃ t, exec (.escTerm b) s = .next t ∧ DecodeFailed s t .dstOverflow) ∧
    (s.dec.chain = .literal → s.dec.acc + b.toNat ≤ s.dec.n - (s.dec.ip + 1) →
      s.dec.acc + b.toNat ≤ s.dec.cap - s.dec.op → s.dec.off = 0 → s.dec.mf ≠ 15 →
      s.dec.acc + b.toNat = 0 ∨ s.dec.mf ≠ 0 ∨ s.dec.acc + b.toNat ≠ s.dec.n - (s.dec.ip + 1) →
      ∃ t, exec (.escTerm b) s = .next t ∧ DecodeFailed s t .badEnd) ∧
    (s.dec.chain = .literal → s.dec.acc + b.toNat ≤ s.dec.n - (s.dec.ip + 1) →
      s.dec.acc + b.toNat ≤ s.dec.cap - s.dec.op → s.dec.mf ≠ 15 → s.dec.op + (s.dec.acc + b.toNat) < s.dec.off.toNat →
      ∃ t, exec (.escTerm b) s = .next t ∧ DecodeFailed s t .offsetUnderflow) ∧
    (s.dec.chain = .literal → s.dec.acc + b.toNat ≤ s.dec.n - (s.dec.ip + 1) →
      s.dec.acc + b.toNat ≤ s.dec.cap - s.dec.op → s.dec.mf ≠ 15 → s.dec.off ≠ 0 →
      s.dec.off.toNat ≤ s.dec.op + (s.dec.acc + b.toNat) →
      s.dec.cap - (s.dec.op + (s.dec.acc + b.toNat)) < 4 + s.dec.mf.toNat →
      ∃ t, exec (.escTerm b) s = .next t ∧ DecodeFailed s t .dstOverflow) ∧
    (s.dec.chain = .mtch → s.dec.off = 0 → s.dec.mf = 15 →
      ∃ t, exec (.escTerm b) s = .next t ∧ DecodeFailed s t .badEnd) ∧
    (s.dec.chain = .mtch → s.dec.op < s.dec.off.toNat →
      ∃ t, exec (.escTerm b) s = .next t ∧ DecodeFailed s t .offsetUnderflow) ∧
    (s.dec.chain = .mtch → s.dec.off ≠ 0 → s.dec.off.toNat ≤ s.dec.op →
      s.dec.cap - s.dec.op < 4 + (s.dec.acc + b.toNat) →
      ∃ t, exec (.escTerm b) s = .next t ∧ DecodeFailed s t .dstOverflow)

/-- Rules R75, R107: over `k` bytes of value 255 the machine runs `k` steps, adds 255 each time and moves `ip` by `k`; nothing
else changes. -/
def Obligations.ChainOfFullBytesAccumulates : Prop :=
  ∀ (k : Nat) (s : State), s.agenda = [] → s.phase = .decChain → s.dec.ip + k ≤ s.dec.n →
    (∀ i, i < k → s.srcByte (s.dec.ip + i) = 255) →
    runsTo k s { s with dec := { s.dec with ip := s.dec.ip + k, acc := s.dec.acc + 255 * k } }

/-! ### The end of a stream -/

/-- Rule R202: with fewer than three bytes left at a sequence boundary the command ends, in success with `op` in `RESULT`
(as wide as the register, rule R12) if the stream is used up, else in MalformedStream(TrailingBytes). -/
def Obligations.EndTestAtSequenceBoundary : Prop :=
  ∀ s : State, s.agenda = [] → s.phase = .decBoundary → s.dec.n - s.dec.ip < 3 →
    (s.dec.ip ≠ s.dec.n → ∃ t, step s = .next t ∧ DecodeFailed s t .trailingBytes) ∧
    (s.dec.ip = s.dec.n → ∃ t, step s = .next t ∧ t.phase = .idle ∧ t.status = 2 ∧ t.errKind = 0 ∧
      t.result = s.cfg.fit s.dec.op ∧ (∀ i, i < s.dec.op ∨ s.dec.cap ≤ i → t.dst.get? i = s.dst.get? i))

/-- Rule R204: with `n == 0` DECOMPRESS returns 0, for every capacity. -/
def Obligations.EmptyStreamDecodesToNothing : Prop :=
  ∀ s : State, DecompressLaunch s → s.agenda = [] → s.srcLen = 0 →
    ∃ t u, exec .decompress s = .next t ∧ step t = .next u ∧ u.phase = .idle ∧ u.status = 2 ∧ u.result = 0 ∧ u.errKind = 0

/-- Rules R79 (I5), R107: a stream that ends before or inside an escape chain fails with MalformedStream(EscapeTruncated). -/
def Obligations.TruncatedChainFails : Prop :=
  ∀ s : State, s.agenda = [] → s.phase = .decChain → s.dec.n ≤ s.dec.ip →
    ∃ t, step s = .next t ∧ DecodeFailed s t .escapeTruncated

/-! ### Whole sequences -/

/-- Rules R72, R193 to R201: a SEQ with any lengths, laid out at `ip` as rule R76 encodes it and failing no test, is run in one
step for its token and one for each escape byte; after them its literals and its match are in DST and the decoder stands at the
next sequence boundary, everything outside its registers and `D[op .. cap)` as it was (steps as log entry 12 cuts them). -/
def Obligations.WholeSequenceRuns : Prop :=
  ∀ (s : State) (q : Sequence), s.agenda = [] → s.phase = .decBoundary → DecoderReady s → q.off ≠ 0 → 4 ≤ q.mlen →
    s.dec.ip + q.encode.length ≤ s.dec.n → s.srcHolds s.dec.ip q.encode →
    s.dec.op + q.literals.length + q.mlen ≤ s.dec.cap → q.off.toNat ≤ s.dec.op + q.literals.length →
    ∃ t, runsTo (1 + escCount q.literals.length + escCount (q.mlen - 4)) s t ∧
      t = { s with phase := .decBoundary, dst := t.dst, dec := t.dec } ∧ DecoderReady t ∧
      t.dec.n = s.dec.n ∧ t.dec.cap = s.dec.cap ∧ t.dec.ip = s.dec.ip + q.encode.length ∧
      t.dec.op = s.dec.op + q.literals.length + q.mlen ∧ t.dst.holds s.dec.op q.literals ∧
      MatchAt t.dst (s.dec.op + q.literals.length) q.off.toNat q.mlen ∧ DstKept s.dst t.dst s.dec.op s.dec.cap

/-- Rules R72, R195, R197, R221: an END with any number of literals above 0, laid out at `ip` so that it ends the stream, completes
the command with `RESULT` the length of the output and its literals as the last output bytes. -/
def Obligations.WholeEndRuns : Prop :=
  ∀ (s : State) (q : Sequence), s.agenda = [] → s.phase = .decBoundary → DecoderReady s → q.off = 0 → q.mlen = 4 →
    q.literals ≠ [] → s.dec.ip + q.encode.length = s.dec.n → s.srcHolds s.dec.ip q.encode →
    s.dec.op + q.literals.length ≤ s.dec.cap →
    ∃ t, runsTo (1 + escCount q.literals.length) s t ∧ t.phase = .idle ∧ t.status = 2 ∧ t.errKind = 0 ∧
      t.result = s.dec.op + q.literals.length ∧ t.dst.holds s.dec.op q.literals ∧
      DstKept s.dst t.dst s.dec.op s.dec.cap ∧ t.src = s.src ∧ t.scratch = s.scratch ∧ t.enc = s.enc

/-! ### Commands and registers -/

/-- Rules R11, R14, R18, R145, R147, R250: COMPRESS with its launch requirements starts: BUSY, cleared results, the sampled lengths
and the initial cursors, nothing kept in the encoder's registers (that the rest of them is 0 is the model's, log entry 4). SCRATCH
reads as 0 throughout, `S[0 .. SRC_LEN)` and `D[0 .. DST_CAP)` are as they were, and so is all the rest, but for a byte of SRC or
DST at an address the command may write under another buffer's name: it is unspecified from the start on (the model's, log
entry 10). -/
def Obligations.CompressStarts : Prop :=
  ∀ s : State, CompressLaunch s →
    ∃ t, exec .compress s = .next t ∧
      t = { s with
        cmd := 1, status := 1, result := 0, errKind := 0, cause := none, phase := .encStart
        enc := { Encoder.reset with n := s.srcLen, cap := s.dstCap, r := 1, anchor := 0, o := 0, miss := 0 }
        src := t.src, dst := t.dst, scratch := t.scratch } ∧
      (∀ i, i < 8192 → t.scratch.get? i = some 0) ∧ (∀ h, t.scratch.slot h = 0) ∧
      (∀ i, i < s.srcLen → t.src.get? i = s.src.get? i) ∧ (∀ i, i < s.dstCap → t.dst.get? i = s.dst.get? i) ∧
      (∀ i, t.src.get? i = s.src.get? i ∨
        (t.src.get? i = none ∧ i < s.platform.src.size ∧
          (s.dstUsed.has (s.platform.src.base + i) ∨ s.scratchUsed.has (s.platform.src.base + i)))) ∧
      (∀ i, t.dst.get? i = s.dst.get? i ∨
        (t.dst.get? i = none ∧ i < s.platform.dst.size ∧ s.scratchUsed.has (s.platform.dst.base + i)))

/-- Rules R14, R22, R190, R191, R251: DECOMPRESS with its launch requirements starts: BUSY, cleared results, the sampled lengths,
both cursors 0, nothing kept in the decoder's registers (that the rest of them is 0 is the model's, log entry 4). `S[0 .. SRC_LEN)`
and all of DST are as they were, and so is all the rest, but for the bytes of SRC and of SCRATCH at addresses of
`D[0 .. DST_CAP)`: just these are unspecified from the start on (the model's, log entry 10). -/
def Obligations.DecompressStarts : Prop :=
  ∀ s : State, DecompressLaunch s →
    ∃ t, exec .decompress s = .next t ∧
      t = { s with
        cmd := 2, status := 1, result := 0, errKind := 0, cause := none, phase := .decBoundary
        dec := { Decoder.reset with n := s.srcLen, cap := s.dstCap, ip := 0, op := 0 }
        src := t.src, scratch := t.scratch } ∧
      (∀ i, i < s.srcLen → t.src.get? i = s.src.get? i) ∧
      (∀ i, t.src.get? i = s.src.get? i ∨
        (t.src.get? i = none ∧ i < s.platform.src.size ∧ s.dstUsed.has (s.platform.src.base + i))) ∧
      (∀ i, i < 8192 → t.scratch.get? i =
        if i < s.platform.scratch.size ∧ s.dstUsed.base ≤ s.platform.scratch.base + i ∧
            s.platform.scratch.base + i < s.dstUsed.base + s.dstUsed.size
        then none else s.scratch.get? i) ∧
      (¬ s.scratchUsed.meets s.dstUsed → t.scratch = s.scratch)

/-- Rules R30, R58, R128, R250, R251, R255, R259, U3, U4, U10: an idle block refuses a COMPRESS on a SCRATCH of which some byte is
not 0, or not specified (its contents read byte by byte, log entry 7), and a command whose buffers, as long as it declares them,
share an address (log entry 9), or are bound to less memory than declared; the order of the refusals is the model's (log 8). -/
def Obligations.LaunchWithoutPremisesRefused : Prop :=
  ∀ s : State, s.busy = false → s.scratch.wf →
    ((∃ i, i < 8192 ∧ s.scratch.get? i ≠ some 0) → exec .compress s = .refused .scratchNotZero) ∧
    ((∀ i, i < 8192 → s.scratch.get? i = some 0) →
      s.srcUsed.meets s.dstUsed ∨ s.srcUsed.meets s.scratchUsed ∨ s.dstUsed.meets s.scratchUsed →
      exec .compress s = .refused .buffersOverlap) ∧
    ((∀ i, i < 8192 → s.scratch.get? i = some 0) →
      ¬ s.srcUsed.meets s.dstUsed → ¬ s.srcUsed.meets s.scratchUsed → ¬ s.dstUsed.meets s.scratchUsed →
      s.platform.src.size < s.srcLen ∨ s.platform.dst.size < s.dstCap ∨ s.platform.scratch.size < 8192 →
      exec .compress s = .refused .bufferTooSmall) ∧
    (s.srcUsed.meets s.dstUsed → exec .decompress s = .refused .buffersOverlap) ∧
    (¬ s.srcUsed.meets s.dstUsed → s.platform.src.size < s.srcLen ∨ s.platform.dst.size < s.dstCap →
      exec .decompress s = .refused .bufferTooSmall)

/-- Rule R14: a write to any of the six registers while BUSY, and a write of a reserved code to `CMD` at any time, has no effect
(a reserved code may get one in a later revision: log entry 29; an index above 5 is no register: log entry 3). -/
def Obligations.IgnoredRegisterWrites : Prop :=
  (∀ (s : State) (k : Nat) (w : Nat) (rest : List Turn), s.agenda = .host (.writeReg k w) :: rest → k ≤ 5 →
    s.busy = true → step s = .next { s with agenda := rest }) ∧
  (∀ (s : State) (w : Nat) (rest : List Turn), s.agenda = .host (.writeReg 0 w) :: rest →
    s.cfg.fit w ≠ 1 → s.cfg.fit w ≠ 2 → step s = .next { s with agenda := rest })

/-- Rules R12, R15: an idle block takes any value, as wide as the register, into `SRC_LEN` and `DST_CAP`; the host reads back what each register holds and 0
from `CMD`. (Writes to the read-only registers 3 to 5 have no effect: the model's choice, log entry 3.) -/
def Obligations.HostRegisterAccess : Prop :=
  (∀ (s : State) (k : Nat) (w : Nat) (rest : List Turn), s.agenda = .host (.writeReg k w) :: rest → s.busy = false →
    (k = 1 → step s = .next { s with agenda := rest, srcLen := s.cfg.fit w }) ∧
    (k = 2 → step s = .next { s with agenda := rest, dstCap := s.cfg.fit w }) ∧
    (k = 3 ∨ k = 4 ∨ k = 5 → step s = .next { s with agenda := rest })) ∧
  (∀ s : State, s.hostRead 0 = some 0 ∧ s.hostRead 1 = some s.srcLen ∧ s.hostRead 2 = some s.dstCap ∧
    s.hostRead 3 = some s.status ∧ s.hostRead 4 = some s.result ∧ s.hostRead 5 = some s.errKind)

/-- Rules R55, R258, U5: while a command runs the model gives the host no move that writes a lent buffer; it refuses it by name (log
entry 27). -/
def Obligations.LentBuffersCannotBeWritten : Prop :=
  ∀ (s : State) (rest : List Turn), s.busy = true →
    (∀ b start bytes, s.agenda = .host (.load b start bytes) :: rest → step s = .refused .lentBuffer) ∧
    (s.agenda = .host .zeroScratch :: rest → step s = .refused .lentBuffer) ∧
    (∀ p, s.agenda = .host (.bind p) :: rest → step s = .refused .lentBuffer)

/-- Rules R30, R250, R255, U18: what the moves on buffers do to an idle block. A load makes the buffer hold the bytes, which are
seen in every buffer at their addresses (log entry 10), and leaves every other byte and every register as it was; a load past the
bound memory is refused. Zeroing makes every byte and every slot of SCRATCH 0, and the bytes of SRC and DST at its addresses;
nothing else. A binding leaves all three buffers unspecified (log entry 9) and changes nothing else. -/
def Obligations.IdleBufferMoves : Prop :=
  ∀ (s : State) (rest : List Turn), s.busy = false →
    (∀ b start bytes, s.agenda = .host (.load b start bytes) :: rest →
      (start + bytes.length ≤ (s.platform.extent b).size →
        ∃ t, step s = .next t ∧ t = { s with agenda := rest, src := t.src, dst := t.dst, scratch := t.scratch } ∧
          (∀ i, i < bytes.length → t.held b (start + i) = bytes[i]?) ∧
          (∀ c i, t.held c i =
            if i < (s.platform.extent c).size ∧ (s.platform.extent b).base + start ≤ (s.platform.extent c).base + i ∧
                (s.platform.extent c).base + i < (s.platform.extent b).base + start + bytes.length
            then bytes[(s.platform.extent c).base + i - ((s.platform.extent b).base + start)]? else s.held c i)) ∧
      ((s.platform.extent b).size < start + bytes.length → step s = .refused .outsideBuffer)) ∧
    (s.agenda = .host .zeroScratch :: rest →
      (8192 ≤ s.platform.scratch.size →
        ∃ t, step s = .next t ∧ t = { s with agenda := rest, src := t.src, dst := t.dst, scratch := t.scratch } ∧
          (∀ i, i < 8192 → t.scratch.get? i = some 0) ∧ (∀ h, t.scratch.slot h = 0) ∧
          (∀ c i, c ≠ .scratch → t.held c i =
            if i < (s.platform.extent c).size ∧ s.platform.scratch.base ≤ (s.platform.extent c).base + i ∧
                (s.platform.extent c).base + i < s.platform.scratch.base + 8192
            then some 0 else s.held c i)) ∧
      (s.platform.scratch.size < 8192 → step s = .refused .outsideBuffer)) ∧
    (∀ p, s.agenda = .host (.bind p) :: rest →
      ∃ t, step s = .next t ∧
        t = { s with agenda := rest, platform := p, src := t.src, dst := t.dst, scratch := t.scratch } ∧
        ∀ b i, t.held b i = none)

/-- Rules R37, R245: after reset the six registers read 0, no command runs, nothing of the three buffers is specified, SCRATCH is
not all zero, and the block waits: with no host move it stays as it is (log entry 28). -/
def Obligations.ResetIsIdleAndUnspecified : Prop :=
  (∀ k, k < 6 → State.reset.hostRead k = some 0) ∧ State.reset.phase = .idle ∧ State.reset.busy = false ∧
  (∀ i, State.reset.src.get? i = none ∧ State.reset.dst.get? i = none ∧ State.reset.scratch.get? i = none) ∧
  State.reset.scratch.allZero = false ∧ step State.reset = .next State.reset

/-- Rules R245, R246: reset puts the six registers to 0 and stops a running engine without a result; an abandoned command leaves
`D[0 .. cap)` unspecified and, for COMPRESS, SCRATCH too; no byte of DST at or above `cap` and no byte of SRC changes (that reset
touches no buffer is decision D27, log entry 16). -/
def Obligations.ResetAbandonsCommand : Prop :=
  ∀ (s : State) (rest : List Turn), Inv s → s.agenda = .host .reset :: rest →
    ∃ t, step s = .next t ∧ t.agenda = rest ∧ t.phase = .idle ∧ (∀ k, k < 6 → t.hostRead k = some 0) ∧ t.src = s.src ∧
      (s.busy = false → t.dst = s.dst) ∧
      (s.encoding → (∀ i, i < s.enc.cap → t.dst.get? i = none) ∧ (∀ i, s.enc.cap ≤ i → t.dst.get? i = s.dst.get? i) ∧
        t.scratch.kind = .unspecified ∧ ∀ i, t.scratch.get? i = none) ∧
      (s.decoding → (∀ i, i < s.dec.cap → t.dst.get? i = none) ∧ (∀ i, s.dec.cap ≤ i → t.dst.get? i = s.dst.get? i))

/-! ### Whole-machine rules -/

/-- The invariant holds after reset. -/
def Obligations.ResetMeetsInvariant : Prop := Inv State.reset

/-- Every step, of an engine, the host or the platform, keeps the invariant: canonical buffers, registers that agree with the
engines (R13), slots below the scan cursor (R126), cursors inside their buffers (R21, R158). -/
def Obligations.StepKeepsInvariant : Prop :=
  ∀ s t : State, Inv s → step s = .next t → Inv t

/-- Rules R9, R50, R166, R207, R218, R219: no access outside its bound is ever made, whatever the stream, the lengths and the
parameters: from a state of the invariant no step faults, and an engine's turn always answers a next state; and a match extension, whose
reads carry no check of their own, reads nothing at or above its end: what lies there does not change its answer. -/
def Obligations.NoStepLeavesItsBounds : Prop :=
  (∀ (s : State) (f : Fault), Inv s → step s ≠ .fault f) ∧
  (∀ s : State, Inv s → s.agenda = [] → ∃ t, step s = .next t) ∧
  (∀ (f g : Nat → Byte) (a b stop : Nat), a < b → b ≤ stop → (∀ i, i < stop → f i = g i) →
    extendWalk f a b stop = extendWalk g a b stop)

/-- Rule R13: BUSY and DONE are never both 1, ERR implies DONE, bits 31:3 read as zero; BUSY is 1 exactly while an engine executes
a command. -/
def Obligations.StatusFlagsAgree : Prop :=
  ∀ s : State, Inv s → ¬(s.busy = true ∧ s.done = true) ∧ (s.err = true → s.done = true) ∧
    (∀ i, 3 ≤ i → s.status.testBit i = false) ∧ (s.busy = true ↔ s.encoding ∨ s.decoding)

/-- Rules R215, R219, R221, R222: when an engine's turn ends a command, `STATUS` is DONE with `ERR_KIND` 0, or DONE + ERR with
`RESULT` all ones and `ERR_KIND` 1 for COMPRESS, 2 for DECOMPRESS. Rule R255: however a COMPRESS ended, another one launched on the
SCRATCH it leaves is refused. -/
def Obligations.CommandsEndInDone : Prop :=
  ∀ s t : State, Inv s → s.agenda = [] → s.phase ≠ .idle → step s = .next t → t.phase = .idle →
    ((t.status = 2 ∧ t.errKind = 0) ∨
      (t.status = 6 ∧ t.result = s.cfg.allOnes ∧ (s.encoding → t.errKind = 1) ∧ (s.decoding → t.errKind = 2))) ∧
    (s.encoding → exec .compress t = .refused .scratchNotZero)

/-- Rule R206: a decoder's turn that ends the command either succeeds, the whole input consumed, `RESULT` the length of the output
and every byte of `D[0 .. RESULT)` specified, or fails with
the one outcome all causes share: what the host reads is the same and every byte of `D[0 .. cap)` is unspecified. -/
def Obligations.NoPartialSuccess : Prop :=
  ∀ s t : State, Inv s → s.agenda = [] → s.decoding → step s = .next t → t.phase = .idle →
    (t.hostRead 3 = some 2 ∧ t.hostRead 4 = some t.dec.op ∧ t.hostRead 5 = some 0 ∧ t.dec.n = s.dec.n ∧
      t.dec.ip = t.dec.n ∧ ∀ i, i < t.dec.op → t.dst.get? i ≠ none) ∨
    (t.hostRead 0 = some 0 ∧ t.hostRead 1 = s.hostRead 1 ∧ t.hostRead 2 = s.hostRead 2 ∧ t.hostRead 3 = some 6 ∧
      t.hostRead 4 = some s.cfg.allOnes ∧ t.hostRead 5 = some 2 ∧ ∀ i, i < s.dec.cap → t.dst.get? i = none)

/-- Rules R11, R30, R50, R57, R190: an engine's turn never writes SRC, the host's registers, the binding or the parameters; it never
changes a byte of DST at or above the running command's capacity; the encoder leaves the decoder's registers, the decoder leaves
SCRATCH and the encoder's registers. -/
def Obligations.EnginesStayInTheirBuffers : Prop :=
  ∀ s t : State, Inv s → s.agenda = [] → step s = .next t →
    t.src = s.src ∧ t.srcLen = s.srcLen ∧ t.dstCap = s.dstCap ∧ t.cmd = s.cmd ∧ t.platform = s.platform ∧ t.cfg = s.cfg ∧
    (s.encoding → t.dec = s.dec ∧ ∀ i, s.enc.cap ≤ i → t.dst.get? i = s.dst.get? i) ∧
    (s.decoding → t.enc = s.enc ∧ t.scratch = s.scratch ∧ ∀ i, s.dec.cap ≤ i → t.dst.get? i = s.dst.get? i) ∧
    (s.phase = .idle → t = s)

/-- Rule R208: from any state of the invariant in which the decoder runs, the command is over after at most one step for each stream
byte left and one more (a step as log entry 12 cuts it). -/
def Obligations.DecompressAlwaysCompletes : Prop :=
  ∀ s : State, Inv s → s.agenda = [] → s.decoding →
    ∃ k t, k ≤ s.dec.n - s.dec.ip + 1 ∧ runsTo k s t ∧ t.phase = .idle ∧ t.done = true

/-- Rule R165: from any state of the invariant in which the encoder runs, the command is over after at most `n + 2` steps (a
step as log entry 12 cuts it). -/
def Obligations.CompressAlwaysCompletes : Prop :=
  ∀ s : State, Inv s → s.agenda = [] → s.encoding →
    ∃ k t, k ≤ s.enc.n + 2 ∧ runsTo k s t ∧ t.phase = .idle ∧ t.done = true

/-! ### The hash index and the match extension -/

/-- Rule R121: HASH(p) is the top 12 bits of the low 64 bits of the product of the little-endian window at `p` and the
multiplier. -/
def Obligations.HashIsTopBitsOfProduct : Prop :=
  ∀ (s : State) (p : Nat), p + 8 ≤ s.enc.n →
    ∃ h, hashAt s p = .ok h ∧
      h.toNat = (leValue (bytesFrom s.srcByte p 8) * s.cfg.hashMult.toNat) % 2 ^ 64 / 2 ^ 52

/-- Rule R123 (with R31, R124, R126): LOOKUP_INSERT answers the previous occupant, 0 on a zeroed table, and leaves the position in
the slot in the same step; in a search the answer is below the position inserted; INSERT leaves the position; every other slot
is as it was, and nothing else changes. -/
def Obligations.LookupInsertReadsThenInserts : Prop :=
  (∀ (s : State) (h : BitVec 12) (p : Nat), p < 65536 →
    (∃ t, lookupInsert s h p = .ok t ∧ t.enc.q = s.scratch.slot h ∧ (t.scratch.slot h).toNat = p ∧
      (∀ k, k ≠ h → t.scratch.slot k = s.scratch.slot k) ∧
      t = { s with scratch := t.scratch, enc := { s.enc with h := h, q := s.scratch.slot h } }) ∧
    (∃ t, insertPosition s h p = .ok t ∧ (t.scratch.slot h).toNat = p ∧
      (∀ k, k ≠ h → t.scratch.slot k = s.scratch.slot k) ∧ t = { s with scratch := t.scratch })) ∧
  (∀ (t : Scratch) (h : BitVec 12), t.zero.slot h = 0) ∧
  (∀ (s : State) (h : BitVec 12), Inv s → s.phase = .encSearch →
    ∃ t, lookupInsert s h s.enc.r = .ok t ∧ t.enc.q.toNat < s.enc.r)

/-- Rule R137: EXTEND(a, b, end) is the least `e` with `b <= e <= end` such that `e == end` or `S[e-d] != S[e]`, where
`d = b - a`: the word phase and the byte phase find exactly it. -/
def Obligations.ExtendFindsFirstMismatch : Prop :=
  ∀ (read : Nat → Byte) (a b stop : Nat), a < b → b ≤ stop →
    let e := extendWalk read a b stop
    b ≤ e ∧ e ≤ stop ∧ (e = stop ∨ read (e - (b - a)) ≠ read e) ∧
      ∀ i, b ≤ i → i < e → i ≠ stop ∧ read (i - (b - a)) = read i

/-! ### The copies -/

/-- Rules R176, R183: `D[op+i] <- D[op+i-off]` in ascending order repeats the `off` bytes before `op` periodically and changes no
byte outside the run; MATCHCOPY does so where its requirements hold, and leaves every other byte as it was but for the bytes from
the run's end to `cap`, which become unspecified (R183's slack as log entry 14 takes it). -/
def Obligations.MatchCopyIsPeriodic : Prop :=
  (∀ (d : Memory) (op off mlen : Nat), 1 ≤ off → off ≤ op →
    (∀ i, i < mlen → (matchRun d op off mlen).get? (op + i) = some (d.byte 1 (op - off + i % off))) ∧
    (∀ i, i < op ∨ op + mlen ≤ i → (matchRun d op off mlen).get? i = d.get? i)) ∧
  (∀ s : State, 1 ≤ s.dec.off.toNat → s.dec.off.toNat ≤ s.dec.op → s.dec.mlen ≤ s.dec.cap - s.dec.op →
    s.dec.op ≤ s.dec.cap →
    ∃ t, matchCopy s = .ok t ∧ t = { s with dst := t.dst } ∧
      (∀ i, i < s.dec.mlen →
        t.dst.get? (s.dec.op + i) = some (s.dstByte (s.dec.op - s.dec.off.toNat + i % s.dec.off.toNat))) ∧
      (∀ i, i < s.dec.op ∨ s.dec.cap ≤ i → t.dst.get? i = s.dst.get? i) ∧
      (∀ i, s.dec.op + s.dec.mlen ≤ i → i < s.dec.cap → t.dst.get? i = none))

/-- Rule R183: under the requirements of rule R176 each tier, under its guard of rule R177, leaves `D[0 .. op + mlen)` exactly as the
reference effect does; no access leaves its bound and nothing at or above `cap` changes. -/
def Obligations.TiersHaveReferenceEffect : Prop :=
  ∀ (cap : Nat) (d : Memory) (op off mlen : Nat), 1 ≤ off → off ≤ op → op + mlen ≤ cap →
    ∃ d', matchTier cap d op off mlen = .ok d' ∧
      (∀ i, i < op + mlen → d'.get? i = (matchRun d op off mlen).get? i) ∧ (∀ i, cap ≤ i → d'.get? i = d.get? i)

/-- Rules R172, R173, R175: the literal copy in bursts leaves `D[0 .. d + len)` exactly as the reference effect does; no access
leaves its bound and nothing at or above `cap` changes. -/
def Obligations.LiteralBurstsHaveReferenceEffect : Prop :=
  ∀ (read : Nat → Byte) (n cap : Nat) (d : Memory) (si di len : Nat), si + len ≤ n → di + len ≤ cap →
    ∃ d', litBursts read n cap len d si di len 0 = .ok d' ∧
      (∀ i, i < di + len → d'.get? i = (literalRun read d si di len).get? i) ∧ (∀ i, cap ≤ i → d'.get? i = d.get? i)

/-! ### The encoder -/

/-- Rules R146, R147, R222: the entry tests: a source longer than 65536 fails at once; `r + SEARCH_TAIL > n` goes to FLUSH, else the
search begins; the tests change nothing else. That failure leaves every byte of `D[0 .. cap)` and of SCRATCH unspecified. -/
def Obligations.EncoderEntryTests : Prop :=
  ∀ s : State, s.agenda = [] → s.phase = .encStart →
    (65536 < s.enc.n → ∃ t, step s = .next t ∧
      t = { s with
        result := s.cfg.allOnes, errKind := 1, status := 6, cause := some .sourceTooLong, phase := .idle
        dst := t.dst, scratch := t.scratch } ∧
      (∀ i, i < s.enc.cap → t.dst.get? i = none) ∧ (∀ i, s.enc.cap ≤ i → t.dst.get? i = s.dst.get? i) ∧
      (∀ i, i < 8192 → t.scratch.get? i = none)) ∧
    (s.enc.n ≤ 65536 → s.enc.n < s.enc.r + s.cfg.searchTail → step s = .next { s with phase := .encFlush }) ∧
    (s.enc.n ≤ 65536 → s.enc.r + s.cfg.searchTail ≤ s.enc.n → step s = .next { s with phase := .encSearch })

/-- Rules R148, R150, R151: a pass whose candidate differs in one of its first four bytes inserts `r`, moves the cursor by
`1 + (miss >> ACCEL_LOG2)`, counts the miss, and goes to FLUSH when a chunk at the cursor would overrun the source; nothing else
changes. -/
def Obligations.MissAdvancesByAcceleratingStep : Prop :=
  ∀ (s : State) (h : BitVec 12) (q j : Nat), Inv s → s.agenda = [] → s.phase = .encSearch →
    SearchSlotIs s h q → j < 4 → s.srcByte (q + j) ≠ s.srcByte (s.enc.r + j) →
    ∃ t, step s = .next t ∧
      t = { s with
        phase := if s.enc.n < t.enc.r + s.cfg.searchTail then .encFlush else .encSearch
        scratch := s.scratch.setSlot h (BitVec.ofNat 16 s.enc.r)
        enc := { s.enc with
          h := h, q := BitVec.ofNat 16 q, r := s.enc.r + (1 + s.enc.miss / 2 ^ s.cfg.accelLog2),
          miss := s.enc.miss + 1 } }

/-- Rules R148 to R156: a pass whose candidate agrees in its first four bytes and whose sequence fits writes exactly that sequence at
`o` and goes on from the end of the match: past the lookahead it inserts the position before it, else it goes to FLUSH. Where the
sequence does not fit, the match is dropped and the search ends in FLUSH. Either way `r` has been inserted; nothing else changes. -/
def Obligations.MatchEmitsItsSequence : Prop :=
  ∀ (s : State) (h : BitVec 12) (q : Nat), Inv s → s.agenda = [] → s.phase = .encSearch →
    SearchSlotIs s h q → (∀ j, j < 4 → s.srcByte (q + j) = s.srcByte (s.enc.r + j)) →
    let e := extendWalk s.srcByte (q + 4) (s.enc.r + 4) s.enc.n
    let seq : Sequence :=
      ⟨BitVec.ofNat 16 (s.enc.r - q), bytesFrom s.srcByte s.enc.anchor (s.enc.r - s.enc.anchor), e - s.enc.r⟩
    (seq.encode.length + s.cfg.encMargin ≤ s.enc.cap - s.enc.o →
      ∃ t, step s = .next t ∧ t.dst.holds s.enc.o seq.encode ∧ DstKept s.dst t.dst s.enc.o s.enc.cap ∧
        t = { s with
          phase := t.phase, dst := t.dst, scratch := t.scratch
          enc := { s.enc with
            h := h, q := BitVec.ofNat 16 q, e := e, lit := s.enc.r - s.enc.anchor, mlen := e - s.enc.r,
            off := s.enc.r - q, o := s.enc.o + seq.encode.length, anchor := e, r := e, miss := 0 } } ∧
        (s.enc.n < e + s.cfg.lookahead → t.phase = .encFlush ∧
          t.scratch = s.scratch.setSlot h (BitVec.ofNat 16 s.enc.r)) ∧
        (e + s.cfg.lookahead ≤ s.enc.n → t.phase = .encSearch ∧
          ∃ g, hashAt s (e - 1) = .ok g ∧
            t.scratch = (s.scratch.setSlot h (BitVec.ofNat 16 s.enc.r)).setSlot g (BitVec.ofNat 16 (e - 1)))) ∧
    (s.enc.cap - s.enc.o < seq.encode.length + s.cfg.encMargin →
      step s = .next { s with
        phase := .encFlush
        scratch := s.scratch.setSlot h (BitVec.ofNat 16 s.enc.r)
        enc := { s.enc with
          h := h, q := BitVec.ofNat 16 q, e := e, lit := s.enc.r - s.enc.anchor, mlen := e - s.enc.r,
          off := s.enc.r - q } })

/-- Rules R154, R157, R221, R222: FLUSH emits the bytes from `anchor` to the end of the source as one END and returns the output
length, returns at once if there are none, and fails with DestinationTooSmall if the END does not fit; `lit` holds the number of
these bytes in each case. In success the slots of the hash index that hold a position keep it (R164), the others are unspecified
(D22, U7, log entry 7). -/
def Obligations.FlushEndsTheStream : Prop :=
  ∀ s : State, Inv s → s.agenda = [] → s.phase = .encFlush →
    let seq : Sequence := ⟨0, bytesFrom s.srcByte s.enc.anchor (s.enc.n - s.enc.anchor), 4⟩
    let spent (t : State) : Prop :=
      (∀ h, s.scratch.slot h ≠ 0 → t.scratch.slot h = s.scratch.slot h) ∧
      (∀ i, i < 8192 → s.scratch.slot (BitVec.ofNat 12 (i / 2)) = 0 → t.scratch.get? i = none)
    (s.enc.anchor = s.enc.n → ∃ t, step s = .next t ∧ t.phase = .idle ∧ t.status = 2 ∧ t.errKind = 0 ∧
      t.result = s.enc.o ∧ t.enc = { s.enc with lit := 0 } ∧ spent t ∧ DstKept s.dst t.dst s.enc.o s.enc.cap) ∧
    (s.enc.anchor < s.enc.n → seq.encode.length ≤ s.enc.cap - s.enc.o →
      ∃ t, step s = .next t ∧ t.phase = .idle ∧ t.status = 2 ∧ t.errKind = 0 ∧
        t.result = s.enc.o + seq.encode.length ∧ t.dst.holds s.enc.o seq.encode ∧
        t.enc.lit = s.enc.n - s.enc.anchor ∧ t.enc.mlen = 4 ∧ t.enc.off = 0 ∧ spent t ∧
        DstKept s.dst t.dst s.enc.o s.enc.cap) ∧
    (s.enc.anchor < s.enc.n → s.enc.cap - s.enc.o < seq.encode.length →
      ∃ t, step s = .next t ∧ t.phase = .idle ∧ t.status = 6 ∧ t.errKind = 1 ∧ t.result = s.cfg.allOnes ∧
        t.cause = some .noRoom ∧ t.enc = { s.enc with lit := s.enc.n - s.enc.anchor } ∧ t.scratch.kind = .unspecified ∧
        (∀ i, i < s.enc.cap → t.dst.get? i = none) ∧ (∀ i, s.enc.cap ≤ i → t.dst.get? i = s.dst.get? i))

/-- Rules R162, R163: COMPRESS of at most 65536 bytes succeeds whenever the capacity is at least `B(n)`, for every value of the
parameters, and its stream is no longer than `B(n)`. -/
def Obligations.CompressSucceedsWithRoom : Prop :=
  ∀ (s : State) (bound : Nat), Inv s → s.agenda = [] → s.phase = .encStart → s.enc.n ≤ 65536 →
    bound = (if s.enc.n = 0 then 0 else s.enc.n + 3 + escCount s.enc.n) → bound ≤ s.enc.cap →
    ∃ k t, runsTo k s t ∧ t.phase = .idle ∧ t.status = 2 ∧ t.result ≤ bound

/-- Rule R160: what a successful COMPRESS wrote, given as SRC to a DECOMPRESS of exactly that length with room for the original,
decodes to the original bytes. -/
def Obligations.CompressThenDecompressIsIdentity : Prop :=
  ∀ (s t u : State) (k : Nat), Inv s → s.agenda = [] → s.phase = .encStart → runsTo k s t → t.phase = .idle →
    t.status = 2 → Inv u → u.agenda = [] → u.phase = .decBoundary → u.dec.ip = 0 → u.dec.op = 0 →
    u.dec.n = t.result → s.enc.n ≤ u.dec.cap →
    (∀ i, i < t.result → u.src.get? i = t.dst.get? i) →
    ∃ m v, runsTo m u v ∧ v.phase = .idle ∧ v.status = 2 ∧ v.result = s.enc.n ∧
      ∀ i, i < s.enc.n → v.dst.get? i = some (s.srcByte i)

/-- Rules R206, R210: the outcome of DECOMPRESS depends only on its stream, its length and its capacity: two blocks of one register
width that agree on these end with the same results and the same output, whatever else they hold. -/
def Obligations.DecompressDependsOnlyOnItsStream : Prop :=
  ∀ (s u t : State) (k : Nat), Inv s → Inv u → s.agenda = [] → u.agenda = [] →
    s.phase = .decBoundary → u.phase = .decBoundary → s.dec.ip = 0 → u.dec.ip = 0 → s.dec.op = 0 → u.dec.op = 0 →
    u.dec.n = s.dec.n → u.dec.cap = s.dec.cap → u.cfg.lenBits = s.cfg.lenBits → (∀ i, i < s.dec.n → u.srcByte i = s.srcByte i) →
    runsTo k s t → t.phase = .idle →
    ∃ v, runsTo k u v ∧ v.phase = .idle ∧ v.status = t.status ∧ v.result = t.result ∧ v.errKind = t.errKind ∧
      (t.status = 2 → ∀ i, i < t.result → v.dst.get? i = t.dst.get? i)

/-- Rules R161, R252: the outcome of COMPRESS depends only on its source, its length, its capacity and the parameters: two blocks
that agree on these and whose commands have just been accepted end with the same results and the same stream, whatever else
they hold. -/
def Obligations.CompressDependsOnlyOnItsSource : Prop :=
  ∀ (s u t : State) (k : Nat), Inv s → Inv u → s.agenda = [] → u.agenda = [] →
    s.phase = .encStart → u.phase = .encStart → u.enc.n = s.enc.n → u.enc.cap = s.enc.cap → u.cfg = s.cfg →
    (∀ i, i < s.enc.n → u.srcByte i = s.srcByte i) → runsTo k s t → t.phase = .idle →
    ∃ v, runsTo k u v ∧ v.phase = .idle ∧ v.status = t.status ∧ v.result = t.result ∧ v.errKind = t.errKind ∧
      (t.status = 2 → ∀ i, i < t.result → v.dst.get? i = t.dst.get? i)
end

