-- ==== Sys2Proof/Laws/Memory.lean ====
section
/-! SUPPORT. What the memory operations do, read index by index, and that each keeps the canonical form. -/

namespace Sys2Proof.Machine

/-! ### Lists of cells -/

/-- A byte put at an index is read there, and every other index reads as before. -/
theorem cellAt_cellPut (cells : List Host.Cell) (i j : Nat) (b : Byte) :
    cellAt (cellPut cells i b) j = if i = j then some b else cellAt cells j := by
  induction cells with
  | nil => simp [cellPut, cellAt]
  | cons c rest ih =>
    obtain ⟨k, c⟩ := c
    simp only [cellPut]
    split
    · simp [cellAt]
    · split
      · subst k; simp only [cellAt]; split <;> rfl
      · simp only [cellAt, ih]
        split
        · next h => subst h; rw [if_neg ‹_›]
        · rfl

/-- Unlisting a range reads as nothing inside it and as before outside. -/
theorem cellAt_cellsDrop (cells : List Host.Cell) (lo hi i : Nat) :
    cellAt (cellsDrop cells lo hi) i = if lo ≤ i ∧ i < hi then none else cellAt cells i := by
  induction cells with
  | nil => simp [cellsDrop, cellAt]
  | cons c rest ih =>
    obtain ⟨k, c⟩ := c
    simp only [cellsDrop] at ih
    by_cases h : k < lo ∨ hi ≤ k
    · have h' : (decide (k < lo) || decide (hi ≤ k)) = true := by simpa using h
      simp only [cellsDrop, List.filter_cons, h', if_true, cellAt, ih]
      by_cases hk : k = i
      · subst hk; rw [if_pos rfl, if_neg (by omega), if_pos rfl]
      · simp [hk]
    · have h' : (decide (k < lo) || decide (hi ≤ k)) = false := by simpa using h
      simp only [cellsDrop, List.filter_cons, h', Bool.false_eq_true, if_false, ih, cellAt]
      by_cases hk : k = i
      · subst hk; rw [if_pos (by omega), if_pos (by omega)]
      · simp [hk]

/-- An entry of a list after a put is the new one or an old one. -/
theorem mem_cellPut {cells : List Host.Cell} {i : Nat} {b : Byte} {c : Host.Cell} (h : c ∈ cellPut cells i b) :
    c = (i, b) ∨ c ∈ cells := by
  induction cells with
  | nil => exact .inl (by simpa [cellPut] using h)
  | cons d rest ih =>
    obtain ⟨k, d⟩ := d
    simp only [cellPut] at h
    split at h
    · simpa using h
    · split at h
      · rcases List.mem_cons.1 h with h | h
        · exact .inl h
        · exact .inr (List.mem_cons_of_mem _ h)
      · rcases List.mem_cons.1 h with h | h
        · exact .inr (h ▸ List.mem_cons_self ..)
        · exact (ih h).imp id (List.mem_cons_of_mem _)

/-- Putting a byte keeps addresses rising. -/
theorem rising_cellPut {cells : List Host.Cell} (h : Rising cells) (i : Nat) (b : Byte) : Rising (cellPut cells i b) := by
  induction cells with
  | nil => simp [cellPut, Rising]
  | cons d rest ih =>
    obtain ⟨k, d⟩ := d
    obtain ⟨hk, hr⟩ := List.pairwise_cons.1 h
    simp only [cellPut]
    split
    · next hlt =>
      refine List.pairwise_cons.2 ⟨fun c hc => ?_, h⟩
      rcases List.mem_cons.1 hc with rfl | hc
      · exact hlt
      · exact Nat.lt_trans hlt (hk c hc)
    · split
      · next heq => subst heq; exact List.pairwise_cons.2 ⟨fun c hc => hk c hc, hr⟩
      · next hlt hne =>
        refine List.pairwise_cons.2 ⟨fun c hc => ?_, ih hr⟩
        rcases mem_cellPut hc with rfl | hc
        · simp only; omega
        · exact hk c hc

/-- Unlisting keeps addresses rising. -/
theorem rising_cellsDrop {cells : List Host.Cell} (h : Rising cells) (lo hi : Nat) : Rising (cellsDrop cells lo hi) :=
  List.Pairwise.filter _ h

/-! ### SRC and DST -/

@[simp] theorem Memory.write_draw (m : Memory) (i : Nat) (b : Byte) : (m.write i b).draw = m.draw := rfl
@[simp] theorem Memory.forget_draw (m : Memory) (lo hi : Nat) : (m.forget lo hi).draw = m.draw + 1 := rfl
@[simp] theorem Memory.unspecified_get? (k i : Nat) : (Memory.unspecified k).get? i = none := rfl

/-- Read after write. -/
theorem Memory.get?_write (m : Memory) (i j : Nat) (b : Byte) :
    (m.write i b).get? j = if i = j then some b else m.get? j := cellAt_cellPut ..

/-- Read after a byte string is written. -/
theorem Memory.get?_writeBytes (m : Memory) (i j : Nat) (bs : List Byte) :
    (m.writeBytes i bs).get? j = if i ≤ j ∧ j < i + bs.length then bs[j - i]? else m.get? j := by
  induction bs generalizing m i with
  | nil => rw [if_neg (by simp only [List.length_nil]; omega)]; rfl
  | cons b rest ih =>
    simp only [Memory.writeBytes, ih, Memory.get?_write, List.length_cons]
    by_cases h : i = j
    · subst h; rw [if_neg (by omega), if_pos rfl, if_pos (by omega)]; simp
    · by_cases h2 : i + 1 ≤ j ∧ j < i + 1 + rest.length
      · rw [if_pos h2, if_pos (by omega), show j - i = (j - (i + 1)) + 1 from by omega]; simp
      · rw [if_neg h2, if_neg h, if_neg (by omega)]

@[simp] theorem Memory.writeBytes_draw (m : Memory) (i : Nat) (bs : List Byte) : (m.writeBytes i bs).draw = m.draw := by
  induction bs generalizing m i with
  | nil => rfl
  | cons b rest ih => simp [Memory.writeBytes, ih]

/-- Read after a range has become unspecified. -/
theorem Memory.get?_forget (m : Memory) (lo hi i : Nat) :
    (m.forget lo hi).get? i = if lo ≤ i ∧ i < hi then none else m.get? i := cellAt_cellsDrop ..

/-- A specified byte is the byte an engine reads. -/
theorem Memory.byte_of_get? {m : Memory} {i : Nat} {b : Byte} (h : m.get? i = some b) (k : Nat) : m.byte k i = b := by
  simp [Memory.byte, h]

theorem Memory.wf_write {m : Memory} (h : m.wf) (i : Nat) (b : Byte) : (m.write i b).wf := rising_cellPut h i b

theorem Memory.wf_writeBytes {m : Memory} (h : m.wf) (i : Nat) (bs : List Byte) : (m.writeBytes i bs).wf := by
  induction bs generalizing m i with
  | nil => exact h
  | cons b rest ih => exact ih (m.wf_write h i b) (i + 1)

theorem Memory.wf_forget {m : Memory} (h : m.wf) (lo hi : Nat) : (m.forget lo hi).wf := rising_cellsDrop h lo hi

theorem Memory.wf_unspecified (k : Nat) : (Memory.unspecified k).wf := List.Pairwise.nil

/-! ### The copies -/

/-- A literal run writes exactly its bytes (rule R172). -/
theorem get?_literalRun (read : Nat → Byte) (d : Memory) (si di k i : Nat) :
    (literalRun read d si di k).get? i =
      if di ≤ i ∧ i < di + k then some (read (si + (i - di))) else d.get? i := by
  induction k generalizing d si di with
  | zero => rw [if_neg (by omega)]; rfl
  | succ k ih =>
    simp only [literalRun, ih, Memory.get?_write]
    by_cases h : di = i
    · subst h; rw [if_neg (by omega), if_pos rfl, if_pos (by omega)]; simp
    · by_cases h2 : di + 1 ≤ i ∧ i < di + 1 + k
      · rw [if_pos h2, if_pos (by omega), show si + 1 + (i - (di + 1)) = si + (i - di) from by omega]
      · rw [if_neg h2, if_neg h, if_neg (by omega)]

@[simp] theorem literalRun_draw (read : Nat → Byte) (d : Memory) (si di k : Nat) :
    (literalRun read d si di k).draw = d.draw := by
  induction k generalizing d si di with
  | zero => rfl
  | succ k ih => simp [literalRun, ih]

theorem wf_literalRun (read : Nat → Byte) {d : Memory} (h : d.wf) (si di k : Nat) : (literalRun read d si di k).wf := by
  induction k generalizing d si di with
  | zero => exact h
  | succ k ih => exact ih (d.wf_write h di _) (si + 1) (di + 1)

@[simp] theorem matchRun_draw (d : Memory) (op off k : Nat) : (matchRun d op off k).draw = d.draw := by
  induction k generalizing d op with
  | zero => rfl
  | succ k ih => simp [matchRun, ih]

theorem wf_matchRun {d : Memory} (h : d.wf) (op off k : Nat) : (matchRun d op off k).wf := by
  induction k generalizing d op with
  | zero => exact h
  | succ k ih => exact ih (d.wf_write h op _) (op + 1)

/-- A match run changes no index outside its bytes (rule R176). -/
theorem get?_matchRun_outside (d : Memory) (op off k i : Nat) (h : i < op ∨ op + k ≤ i) :
    (matchRun d op off k).get? i = d.get? i := by
  induction k generalizing d op with
  | zero => rfl
  | succ k ih =>
    rw [matchRun, ih _ _ (by omega), Memory.get?_write, if_neg (by omega)]

/-- A match run leaves every byte of the run specified, equal to the byte `off` before it (rule R176). -/
theorem get?_matchRun_inside (d : Memory) (op off k i : Nat) (h1 : 1 ≤ off) (h2 : off ≤ op) (h : op ≤ i ∧ i < op + k) :
    (matchRun d op off k).get? i = some ((matchRun d op off k).byte 1 (i - off)) := by
  induction k generalizing d op with
  | zero => omega
  | succ k ih =>
    by_cases hi : op = i
    · subst hi
      have hout : (matchRun d op off (k + 1)).get? (op - off) = d.get? (op - off) :=
        get?_matchRun_outside d op off (k + 1) _ (by omega)
      have hb : (matchRun d op off (k + 1)).byte 1 (op - off) = d.byte 1 (op - off) := by
        simp [Memory.byte, hout]
      rw [hb, matchRun, get?_matchRun_outside _ _ _ _ _ (by omega), Memory.get?_write, if_pos rfl]
    · exact ih _ (op + 1) (by omega) (by omega)

/-! ### SCRATCH -/

@[simp] theorem Scratch.write_kind (t : Scratch) (i : Nat) (b : Byte) : (t.write i b).kind = t.kind := by
  unfold Scratch.write; split <;> rfl

@[simp] theorem Scratch.write_draw (t : Scratch) (i : Nat) (b : Byte) : (t.write i b).draw = t.draw := by
  unfold Scratch.write; split <;> rfl

@[simp] theorem Scratch.write_unlisted (t : Scratch) (i : Nat) (b : Byte) : (t.write i b).unlisted = t.unlisted := by
  simp [Scratch.unlisted]

/-- Read after write, in SCRATCH. -/
theorem Scratch.get?_write (t : Scratch) (i j : Nat) (b : Byte) :
    (t.write i b).get? j = if i = j then some b else t.get? j := by
  unfold Scratch.write
  split
  · next h =>
    simp only [Scratch.get?, cellAt_cellsDrop]
    by_cases hij : i = j
    · subst hij; rw [if_pos (by omega), if_pos rfl]; simpa [Scratch.unlisted] using h.symm
    · rw [if_neg (by omega), if_neg hij]; rfl
  · simp only [Scratch.get?, cellAt_cellPut]
    split
    · rfl
    · rfl

/-- Read of the byte after write, in SCRATCH. -/
theorem Scratch.byte_write (t : Scratch) (i j : Nat) (b : Byte) :
    (t.write i b).byte j = if i = j then b else t.byte j := by
  simp only [Scratch.byte, Scratch.get?_write, Scratch.write_draw]
  split <;> rfl

theorem Scratch.wf_write {t : Scratch} (h : t.wf) {i : Nat} (hi : i < scratchBytes) (b : Byte) : (t.write i b).wf := by
  unfold Scratch.write
  split
  · exact ⟨rising_cellsDrop h.1 _ _, fun c hc => h.2 c (List.mem_of_mem_filter hc)⟩
  · next hb =>
    refine ⟨rising_cellPut h.1 _ _, fun c hc => ?_⟩
    rcases mem_cellPut hc with rfl | hc
    · exact ⟨hi, hb⟩
    · exact h.2 c hc

@[simp] theorem Scratch.writeBytes_kind (t : Scratch) (i : Nat) (bs : List Byte) : (t.writeBytes i bs).kind = t.kind := by
  induction bs generalizing t i with
  | nil => rfl
  | cons b rest ih => simp [Scratch.writeBytes, ih]

theorem Scratch.wf_writeBytes {t : Scratch} (h : t.wf) {i : Nat} {bs : List Byte} (hi : i + bs.length ≤ scratchBytes) :
    (t.writeBytes i bs).wf := by
  induction bs generalizing t i with
  | nil => exact h
  | cons b rest ih =>
    simp only [List.length_cons] at hi
    exact ih (t.wf_write h (by omega) b) (by omega)

@[simp] theorem Scratch.setSlot_kind (t : Scratch) (h : BitVec 12) (p : BitVec 16) : (t.setSlot h p).kind = t.kind := by
  simp [Scratch.setSlot]

theorem Scratch.wf_setSlot {t : Scratch} (h : t.wf) (k : BitVec 12) (p : BitVec 16) : (t.setSlot k p).wf := by
  have := k.isLt
  exact (t.wf_write h (by simp only [scratchBytes]; omega) _).elim fun a b =>
    Scratch.wf_write ⟨a, b⟩ (by simp only [scratchBytes]; omega) _

/-- The slot written reads as the position; every other slot reads as before (rules R31, R123). -/
theorem Scratch.slot_setSlot (t : Scratch) (h k : BitVec 12) (p : BitVec 16) :
    (t.setSlot h p).slot k = if h = k then p else t.slot k := by
  simp only [Scratch.slot, Scratch.setSlot, Scratch.byte_write]
  by_cases hk : h = k
  · subst hk
    rw [if_pos rfl, if_pos rfl, if_neg (by omega), if_pos rfl]
    ext i hi
    simp only [BitVec.getElem_append]
    split
    · simp [BitVec.getLsbD_eq_getElem hi]
    · next h8 => simp only [BitVec.getElem_extractLsb', show 8 + (i - 8) = i from by omega, BitVec.getLsbD_eq_getElem hi]
  · have : h.toNat ≠ k.toNat := fun e => hk (BitVec.eq_of_toNat_eq e)
    rw [if_neg (by omega), if_neg (by omega), if_neg (by omega), if_neg (by omega), if_neg hk]

theorem Scratch.wf_unspecified (k : Nat) : (Scratch.unspecified k).wf :=
  ⟨List.Pairwise.nil, fun _ h => absurd h List.not_mem_nil⟩

theorem Scratch.wf_zero (t : Scratch) : t.zero.wf := ⟨List.Pairwise.nil, fun _ h => absurd h List.not_mem_nil⟩

@[simp] theorem Scratch.forget_kind (t : Scratch) : t.forget.kind = .unspecified := rfl
@[simp] theorem Scratch.forget_get? (t : Scratch) (i : Nat) : t.forget.get? i = none := rfl

/-- What `specified` lists lies in its range. -/
theorem Scratch.mem_specified {t : Scratch} {keep : Nat → Bool} {i k : Nat} {c : Host.Cell}
    (h : c ∈ t.specified keep i k) : i ≤ c.1 ∧ c.1 < i + k := by
  induction k generalizing i with
  | zero => cases h
  | succ k ih =>
    unfold Scratch.specified at h
    split at h
    · rcases List.mem_cons.1 h with rfl | h
      · simp only; omega
      · have := ih h; omega
    · have := ih h; omega

theorem Scratch.rising_specified (t : Scratch) (keep : Nat → Bool) (i k : Nat) : Rising (t.specified keep i k) := by
  induction k generalizing i with
  | zero => exact List.Pairwise.nil
  | succ k ih =>
    unfold Scratch.specified
    split
    · exact List.pairwise_cons.2 ⟨fun c hc => (Scratch.mem_specified hc).1, ih (i + 1)⟩
    · exact ih (i + 1)

/-- What `specified` lists, index by index. -/
theorem Scratch.cellAt_specified (t : Scratch) (keep : Nat → Bool) (i k j : Nat) :
    cellAt (t.specified keep i k) j = if i ≤ j ∧ j < i + k then (if keep j then t.get? j else none) else none := by
  induction k generalizing i with
  | zero => rw [if_neg (by omega)]; rfl
  | succ k ih =>
    unfold Scratch.specified
    by_cases hij : i = j
    · subst hij
      rw [show (if i ≤ i ∧ i < i + (k + 1) then (if keep i then t.get? i else none) else none) =
        (if keep i then t.get? i else none) from if_pos (by omega)]
      split
      · next h => simp only [cellAt, if_true, h]
      · next h => rw [ih, if_neg (by omega), h]
    · have step : (if i + 1 ≤ j ∧ j < i + 1 + k then (if keep j then t.get? j else none) else none) =
          if i ≤ j ∧ j < i + (k + 1) then (if keep j then t.get? j else none) else none :=
        if_congr (by omega) rfl rfl
      split
      · simp only [cellAt]; rw [if_neg hij, ih, step]
      · rw [ih, step]

/-- A byte of a SCRATCH of which only some bytes are kept. -/
theorem Scratch.get?_keepOnly (t : Scratch) (keep : Nat → Bool) {i : Nat} (h : i < scratchBytes) :
    (t.keepOnly keep).get? i = if keep i then t.get? i else none := by
  simp only [Scratch.get?, Scratch.keepOnly, Scratch.unlisted, Option.or_none]
  rw [Scratch.cellAt_specified, if_pos (by omega)]
  rfl

theorem Scratch.wf_keepOnly (t : Scratch) (keep : Nat → Bool) : (t.keepOnly keep).wf :=
  ⟨t.rising_specified keep 0 scratchBytes, fun c hc => by
    have := Scratch.mem_specified hc
    exact ⟨by omega, by simp [Scratch.unlisted, Scratch.keepOnly]⟩⟩

/-- A byte of a SCRATCH that a COMPRESS has used: kept where its slot holds a position. -/
theorem Scratch.get?_spend (t : Scratch) {i : Nat} (h : i < scratchBytes) :
    t.spend.get? i = if t.slot (BitVec.ofNat 12 (i / 2)) ≠ 0 then t.get? i else none := by
  rw [Scratch.spend, Scratch.get?_keepOnly t _ h]
  exact if_congr decide_eq_true_iff rfl rfl

/-- After a COMPRESS SCRATCH is not zero (rule R255). -/
theorem Scratch.spend_not_zero (t : Scratch) : ∃ i, i < scratchBytes ∧ t.spend.get? i ≠ some 0 := by
  by_contra hall
  have h0 : ∀ i, i < 2 → t.get? i = some 0 ∧ t.slot 0 ≠ 0 := fun i hi => by
    have hz := not_not.1 fun hne => hall ⟨i, by simp only [scratchBytes]; omega, hne⟩
    rw [Scratch.get?_spend t (by simp only [scratchBytes]; omega), show i / 2 = 0 from by omega] at hz
    split at hz
    · exact ⟨hz, ‹_›⟩
    · cases hz
  apply (h0 0 (by omega)).2
  have b0 : t.byte 0 = 0 := by simp [Scratch.byte, (h0 0 (by omega)).1]
  have b1 : t.byte 1 = 0 := by simp [Scratch.byte, (h0 1 (by omega)).1]
  simp [Scratch.slot, b0, b1]

/-- A slot that holds a position keeps it after a COMPRESS, whose SCRATCH has no unspecified byte (rules R32, R164). -/
theorem Scratch.slot_spend {t : Scratch} (hk : t.kind = .cleared) {h : BitVec 12} (hne : t.slot h ≠ 0) :
    t.spend.slot h = t.slot h := by
  have hlt := h.isLt
  have key : ∀ i, i / 2 = h.toNat → t.spend.byte i = t.byte i := fun i hi => by
    have hs : ∃ b, t.get? i = some b := by
      simp only [Scratch.get?, Scratch.unlisted, hk]
      cases cellAt t.cells i <;> simp
    obtain ⟨b, hb⟩ := hs
    rw [Scratch.byte, Scratch.get?_spend t (by simp only [scratchBytes]; omega), hi, BitVec.ofNat_toNat, BitVec.setWidth_eq,
      if_pos hne, Scratch.byte, hb]
    rfl
  simp only [Scratch.slot, key (2 * h.toNat) (by omega), key (2 * h.toNat + 1) (by omega)]

/-- Every slot of a SCRATCH with nothing listed, once zeroed, is 0. -/
theorem Scratch.slot_of_empty {t : Scratch} (hc : t.cells = []) (hk : t.unlisted = some 0) (h : BitVec 12) :
    t.slot h = 0 := by
  have : ∀ i, t.byte i = 0 := fun i => by simp [Scratch.byte, Scratch.get?, hc, cellAt, hk]
  simp [Scratch.slot, this]

end Sys2Proof.Machine
end

