-- ==== Sys2Proof/Laws/State.lean ====
section
/-! SUPPORT. What each named update of the state leaves in each field: one lemma per field, so that no proof unfolds an update. -/

namespace Sys2Proof.Machine

/-! ### `raise` (rule R222) -/

@[simp] theorem raise_cfg (s : State) (c : Cause) : (raise s c).cfg = s.cfg := rfl
@[simp] theorem raise_platform (s : State) (c : Cause) : (raise s c).platform = s.platform := rfl
@[simp] theorem raise_agenda (s : State) (c : Cause) : (raise s c).agenda = s.agenda := rfl
@[simp] theorem raise_cmd (s : State) (c : Cause) : (raise s c).cmd = s.cmd := rfl
@[simp] theorem raise_srcLen (s : State) (c : Cause) : (raise s c).srcLen = s.srcLen := rfl
@[simp] theorem raise_dstCap (s : State) (c : Cause) : (raise s c).dstCap = s.dstCap := rfl
@[simp] theorem raise_status (s : State) (c : Cause) : (raise s c).status = 6 := rfl
@[simp] theorem raise_result (s : State) (c : Cause) : (raise s c).result = s.cfg.allOnes := rfl
@[simp] theorem raise_errKind (s : State) (c : Cause) : (raise s c).errKind = c.kind.code := rfl
@[simp] theorem raise_cause (s : State) (c : Cause) : (raise s c).cause = some c := rfl
@[simp] theorem raise_phase (s : State) (c : Cause) : (raise s c).phase = .idle := rfl
@[simp] theorem raise_enc (s : State) (c : Cause) : (raise s c).enc = s.enc := rfl
@[simp] theorem raise_dec (s : State) (c : Cause) : (raise s c).dec = s.dec := rfl
@[simp] theorem raise_src (s : State) (c : Cause) : (raise s c).src = s.src := rfl
@[simp] theorem raise_dst (s : State) (c : Cause) :
    (raise s c).dst = s.dst.forget 0 (c.kind.cap s) := rfl
@[simp] theorem raise_scratch (s : State) (c : Cause) : (raise s c).scratch = c.kind.scratchAfter s := rfl

/-! ### `complete` (rule R221) -/

@[simp] theorem complete_cfg (s : State) (cap v : Nat) : (complete s cap v).cfg = s.cfg := rfl
@[simp] theorem complete_platform (s : State) (cap v : Nat) : (complete s cap v).platform = s.platform := rfl
@[simp] theorem complete_agenda (s : State) (cap v : Nat) : (complete s cap v).agenda = s.agenda := rfl
@[simp] theorem complete_cmd (s : State) (cap v : Nat) : (complete s cap v).cmd = s.cmd := rfl
@[simp] theorem complete_srcLen (s : State) (cap v : Nat) : (complete s cap v).srcLen = s.srcLen := rfl
@[simp] theorem complete_dstCap (s : State) (cap v : Nat) : (complete s cap v).dstCap = s.dstCap := rfl
@[simp] theorem complete_status (s : State) (cap v : Nat) : (complete s cap v).status = 2 := rfl
@[simp] theorem complete_result (s : State) (cap v : Nat) : (complete s cap v).result = s.cfg.fit v := rfl
@[simp] theorem complete_errKind (s : State) (cap v : Nat) : (complete s cap v).errKind = 0 := rfl
@[simp] theorem complete_cause (s : State) (cap v : Nat) : (complete s cap v).cause = none := rfl
@[simp] theorem complete_phase (s : State) (cap v : Nat) : (complete s cap v).phase = .idle := rfl
@[simp] theorem complete_enc (s : State) (cap v : Nat) : (complete s cap v).enc = s.enc := rfl
@[simp] theorem complete_dec (s : State) (cap v : Nat) : (complete s cap v).dec = s.dec := rfl
@[simp] theorem complete_src (s : State) (cap v : Nat) : (complete s cap v).src = s.src := rfl
@[simp] theorem complete_dst (s : State) (cap v : Nat) : (complete s cap v).dst = s.dst.forget v cap := rfl
@[simp] theorem complete_scratch (s : State) (cap v : Nat) : (complete s cap v).scratch = s.scratch := rfl

/-! ### `finishCompress` (rules R164, R221, R255) -/

@[simp] theorem finishCompress_cfg (s : State) : (finishCompress s).cfg = s.cfg := rfl
@[simp] theorem finishCompress_platform (s : State) : (finishCompress s).platform = s.platform := rfl
@[simp] theorem finishCompress_agenda (s : State) : (finishCompress s).agenda = s.agenda := rfl
@[simp] theorem finishCompress_cmd (s : State) : (finishCompress s).cmd = s.cmd := rfl
@[simp] theorem finishCompress_srcLen (s : State) : (finishCompress s).srcLen = s.srcLen := rfl
@[simp] theorem finishCompress_dstCap (s : State) : (finishCompress s).dstCap = s.dstCap := rfl
@[simp] theorem finishCompress_status (s : State) : (finishCompress s).status = 2 := rfl
@[simp] theorem finishCompress_result (s : State) : (finishCompress s).result = s.cfg.fit s.enc.o := rfl
@[simp] theorem finishCompress_errKind (s : State) : (finishCompress s).errKind = 0 := rfl
@[simp] theorem finishCompress_cause (s : State) : (finishCompress s).cause = none := rfl
@[simp] theorem finishCompress_phase (s : State) : (finishCompress s).phase = .idle := rfl
@[simp] theorem finishCompress_enc (s : State) : (finishCompress s).enc = s.enc := rfl
@[simp] theorem finishCompress_dec (s : State) : (finishCompress s).dec = s.dec := rfl
@[simp] theorem finishCompress_src (s : State) : (finishCompress s).src = s.src := rfl
@[simp] theorem finishCompress_dst (s : State) : (finishCompress s).dst = s.dst.forget s.enc.o s.enc.cap := rfl
@[simp] theorem finishCompress_scratch (s : State) : (finishCompress s).scratch = s.scratch.spend := rfl

/-! ### `accept` (rule R14) -/

@[simp] theorem accept_cfg (s : State) (code : Nat) : (accept s code).cfg = s.cfg := rfl
@[simp] theorem accept_platform (s : State) (code : Nat) : (accept s code).platform = s.platform := rfl
@[simp] theorem accept_agenda (s : State) (code : Nat) : (accept s code).agenda = s.agenda := rfl
@[simp] theorem accept_cmd (s : State) (code : Nat) : (accept s code).cmd = code := rfl
@[simp] theorem accept_srcLen (s : State) (code : Nat) : (accept s code).srcLen = s.srcLen := rfl
@[simp] theorem accept_dstCap (s : State) (code : Nat) : (accept s code).dstCap = s.dstCap := rfl
@[simp] theorem accept_status (s : State) (code : Nat) : (accept s code).status = 1 := rfl
@[simp] theorem accept_result (s : State) (code : Nat) : (accept s code).result = 0 := rfl
@[simp] theorem accept_errKind (s : State) (code : Nat) : (accept s code).errKind = 0 := rfl
@[simp] theorem accept_cause (s : State) (code : Nat) : (accept s code).cause = none := rfl
@[simp] theorem accept_phase (s : State) (code : Nat) : (accept s code).phase = s.phase := rfl
@[simp] theorem accept_enc (s : State) (code : Nat) : (accept s code).enc = s.enc := rfl
@[simp] theorem accept_dec (s : State) (code : Nat) : (accept s code).dec = s.dec := rfl
@[simp] theorem accept_src (s : State) (code : Nat) : (accept s code).src = s.src := rfl
@[simp] theorem accept_dst (s : State) (code : Nat) : (accept s code).dst = s.dst := rfl
@[simp] theorem accept_scratch (s : State) (code : Nat) : (accept s code).scratch = s.scratch := rfl

/-! ### `startChain` (rule R107) -/

@[simp] theorem startChain_cfg (s : State) (c : ChainKind) : (startChain s c).cfg = s.cfg := rfl
@[simp] theorem startChain_platform (s : State) (c : ChainKind) : (startChain s c).platform = s.platform := rfl
@[simp] theorem startChain_agenda (s : State) (c : ChainKind) : (startChain s c).agenda = s.agenda := rfl
@[simp] theorem startChain_cmd (s : State) (c : ChainKind) : (startChain s c).cmd = s.cmd := rfl
@[simp] theorem startChain_srcLen (s : State) (c : ChainKind) : (startChain s c).srcLen = s.srcLen := rfl
@[simp] theorem startChain_dstCap (s : State) (c : ChainKind) : (startChain s c).dstCap = s.dstCap := rfl
@[simp] theorem startChain_status (s : State) (c : ChainKind) : (startChain s c).status = s.status := rfl
@[simp] theorem startChain_result (s : State) (c : ChainKind) : (startChain s c).result = s.result := rfl
@[simp] theorem startChain_errKind (s : State) (c : ChainKind) : (startChain s c).errKind = s.errKind := rfl
@[simp] theorem startChain_cause (s : State) (c : ChainKind) : (startChain s c).cause = s.cause := rfl
@[simp] theorem startChain_phase (s : State) (c : ChainKind) : (startChain s c).phase = .decChain := rfl
@[simp] theorem startChain_enc (s : State) (c : ChainKind) : (startChain s c).enc = s.enc := rfl
@[simp] theorem startChain_dec (s : State) (c : ChainKind) :
    (startChain s c).dec = { s.dec with acc := 15, chain := c } := rfl
@[simp] theorem startChain_src (s : State) (c : ChainKind) : (startChain s c).src = s.src := rfl
@[simp] theorem startChain_dst (s : State) (c : ChainKind) : (startChain s c).dst = s.dst := rfl
@[simp] theorem startChain_scratch (s : State) (c : ChainKind) : (startChain s c).scratch = s.scratch := rfl

/-! ### `takeEscape` (rule R107) -/

@[simp] theorem takeEscape_cfg (s : State) (b : Byte) : (takeEscape s b).cfg = s.cfg := rfl
@[simp] theorem takeEscape_platform (s : State) (b : Byte) : (takeEscape s b).platform = s.platform := rfl
@[simp] theorem takeEscape_agenda (s : State) (b : Byte) : (takeEscape s b).agenda = s.agenda := rfl
@[simp] theorem takeEscape_cmd (s : State) (b : Byte) : (takeEscape s b).cmd = s.cmd := rfl
@[simp] theorem takeEscape_srcLen (s : State) (b : Byte) : (takeEscape s b).srcLen = s.srcLen := rfl
@[simp] theorem takeEscape_dstCap (s : State) (b : Byte) : (takeEscape s b).dstCap = s.dstCap := rfl
@[simp] theorem takeEscape_status (s : State) (b : Byte) : (takeEscape s b).status = s.status := rfl
@[simp] theorem takeEscape_result (s : State) (b : Byte) : (takeEscape s b).result = s.result := rfl
@[simp] theorem takeEscape_errKind (s : State) (b : Byte) : (takeEscape s b).errKind = s.errKind := rfl
@[simp] theorem takeEscape_cause (s : State) (b : Byte) : (takeEscape s b).cause = s.cause := rfl
@[simp] theorem takeEscape_phase (s : State) (b : Byte) : (takeEscape s b).phase = s.phase := rfl
@[simp] theorem takeEscape_enc (s : State) (b : Byte) : (takeEscape s b).enc = s.enc := rfl
@[simp] theorem takeEscape_dec (s : State) (b : Byte) :
    (takeEscape s b).dec = { s.dec with ip := s.dec.ip + 1, acc := s.dec.acc + b.toNat } := rfl
@[simp] theorem takeEscape_src (s : State) (b : Byte) : (takeEscape s b).src = s.src := rfl
@[simp] theorem takeEscape_dst (s : State) (b : Byte) : (takeEscape s b).dst = s.dst := rfl
@[simp] theorem takeEscape_scratch (s : State) (b : Byte) : (takeEscape s b).scratch = s.scratch := rfl

/-! ### `takeToken` (rule R193) -/

@[simp] theorem takeToken_cfg (s : State) (off : BitVec 16) (mf lf : BitVec 4) :
    (takeToken s off mf lf).cfg = s.cfg := rfl
@[simp] theorem takeToken_platform (s : State) (off : BitVec 16) (mf lf : BitVec 4) :
    (takeToken s off mf lf).platform = s.platform := rfl
@[simp] theorem takeToken_agenda (s : State) (off : BitVec 16) (mf lf : BitVec 4) :
    (takeToken s off mf lf).agenda = s.agenda := rfl
@[simp] theorem takeToken_cmd (s : State) (off : BitVec 16) (mf lf : BitVec 4) :
    (takeToken s off mf lf).cmd = s.cmd := rfl
@[simp] theorem takeToken_srcLen (s : State) (off : BitVec 16) (mf lf : BitVec 4) :
    (takeToken s off mf lf).srcLen = s.srcLen := rfl
@[simp] theorem takeToken_dstCap (s : State) (off : BitVec 16) (mf lf : BitVec 4) :
    (takeToken s off mf lf).dstCap = s.dstCap := rfl
@[simp] theorem takeToken_status (s : State) (off : BitVec 16) (mf lf : BitVec 4) :
    (takeToken s off mf lf).status = s.status := rfl
@[simp] theorem takeToken_result (s : State) (off : BitVec 16) (mf lf : BitVec 4) :
    (takeToken s off mf lf).result = s.result := rfl
@[simp] theorem takeToken_errKind (s : State) (off : BitVec 16) (mf lf : BitVec 4) :
    (takeToken s off mf lf).errKind = s.errKind := rfl
@[simp] theorem takeToken_cause (s : State) (off : BitVec 16) (mf lf : BitVec 4) :
    (takeToken s off mf lf).cause = s.cause := rfl
@[simp] theorem takeToken_phase (s : State) (off : BitVec 16) (mf lf : BitVec 4) :
    (takeToken s off mf lf).phase = s.phase := rfl
@[simp] theorem takeToken_enc (s : State) (off : BitVec 16) (mf lf : BitVec 4) :
    (takeToken s off mf lf).enc = s.enc := rfl
@[simp] theorem takeToken_dec (s : State) (off : BitVec 16) (mf lf : BitVec 4) :
    (takeToken s off mf lf).dec = { s.dec with
      ip := s.dec.ip + 3, v := tokenOf off mf lf, off := off, mf := mf, lf := lf, lit := lf.toNat } := rfl
@[simp] theorem takeToken_src (s : State) (off : BitVec 16) (mf lf : BitVec 4) :
    (takeToken s off mf lf).src = s.src := rfl
@[simp] theorem takeToken_dst (s : State) (off : BitVec 16) (mf lf : BitVec 4) :
    (takeToken s off mf lf).dst = s.dst := rfl
@[simp] theorem takeToken_scratch (s : State) (off : BitVec 16) (mf lf : BitVec 4) :
    (takeToken s off mf lf).scratch = s.scratch := rfl

/-! ### `takeMatchField` (rule R196) -/

@[simp] theorem takeMatchField_cfg (s : State) : (takeMatchField s).cfg = s.cfg := rfl
@[simp] theorem takeMatchField_platform (s : State) : (takeMatchField s).platform = s.platform := rfl
@[simp] theorem takeMatchField_agenda (s : State) : (takeMatchField s).agenda = s.agenda := rfl
@[simp] theorem takeMatchField_cmd (s : State) : (takeMatchField s).cmd = s.cmd := rfl
@[simp] theorem takeMatchField_srcLen (s : State) : (takeMatchField s).srcLen = s.srcLen := rfl
@[simp] theorem takeMatchField_dstCap (s : State) : (takeMatchField s).dstCap = s.dstCap := rfl
@[simp] theorem takeMatchField_status (s : State) : (takeMatchField s).status = s.status := rfl
@[simp] theorem takeMatchField_result (s : State) : (takeMatchField s).result = s.result := rfl
@[simp] theorem takeMatchField_errKind (s : State) : (takeMatchField s).errKind = s.errKind := rfl
@[simp] theorem takeMatchField_cause (s : State) : (takeMatchField s).cause = s.cause := rfl
@[simp] theorem takeMatchField_phase (s : State) : (takeMatchField s).phase = s.phase := rfl
@[simp] theorem takeMatchField_enc (s : State) : (takeMatchField s).enc = s.enc := rfl
@[simp] theorem takeMatchField_dec (s : State) :
    (takeMatchField s).dec = { s.dec with mlen := 4 + s.dec.mf.toNat } := rfl
@[simp] theorem takeMatchField_src (s : State) : (takeMatchField s).src = s.src := rfl
@[simp] theorem takeMatchField_dst (s : State) : (takeMatchField s).dst = s.dst := rfl
@[simp] theorem takeMatchField_scratch (s : State) : (takeMatchField s).scratch = s.scratch := rfl

/-! ### `measureTail` (rule R157) -/

@[simp] theorem measureTail_cfg (s : State) : (measureTail s).cfg = s.cfg := rfl
@[simp] theorem measureTail_platform (s : State) : (measureTail s).platform = s.platform := rfl
@[simp] theorem measureTail_agenda (s : State) : (measureTail s).agenda = s.agenda := rfl
@[simp] theorem measureTail_cmd (s : State) : (measureTail s).cmd = s.cmd := rfl
@[simp] theorem measureTail_srcLen (s : State) : (measureTail s).srcLen = s.srcLen := rfl
@[simp] theorem measureTail_dstCap (s : State) : (measureTail s).dstCap = s.dstCap := rfl
@[simp] theorem measureTail_status (s : State) : (measureTail s).status = s.status := rfl
@[simp] theorem measureTail_result (s : State) : (measureTail s).result = s.result := rfl
@[simp] theorem measureTail_errKind (s : State) : (measureTail s).errKind = s.errKind := rfl
@[simp] theorem measureTail_cause (s : State) : (measureTail s).cause = s.cause := rfl
@[simp] theorem measureTail_phase (s : State) : (measureTail s).phase = s.phase := rfl
@[simp] theorem measureTail_enc (s : State) :
    (measureTail s).enc = { s.enc with lit := s.enc.n - s.enc.anchor } := rfl
@[simp] theorem measureTail_dec (s : State) : (measureTail s).dec = s.dec := rfl
@[simp] theorem measureTail_src (s : State) : (measureTail s).src = s.src := rfl
@[simp] theorem measureTail_dst (s : State) : (measureTail s).dst = s.dst := rfl
@[simp] theorem measureTail_scratch (s : State) : (measureTail s).scratch = s.scratch := rfl

/-! ### `takeTail` (rule R157) -/

@[simp] theorem takeTail_cfg (s : State) : (takeTail s).cfg = s.cfg := rfl
@[simp] theorem takeTail_platform (s : State) : (takeTail s).platform = s.platform := rfl
@[simp] theorem takeTail_agenda (s : State) : (takeTail s).agenda = s.agenda := rfl
@[simp] theorem takeTail_cmd (s : State) : (takeTail s).cmd = s.cmd := rfl
@[simp] theorem takeTail_srcLen (s : State) : (takeTail s).srcLen = s.srcLen := rfl
@[simp] theorem takeTail_dstCap (s : State) : (takeTail s).dstCap = s.dstCap := rfl
@[simp] theorem takeTail_status (s : State) : (takeTail s).status = s.status := rfl
@[simp] theorem takeTail_result (s : State) : (takeTail s).result = s.result := rfl
@[simp] theorem takeTail_errKind (s : State) : (takeTail s).errKind = s.errKind := rfl
@[simp] theorem takeTail_cause (s : State) : (takeTail s).cause = s.cause := rfl
@[simp] theorem takeTail_phase (s : State) : (takeTail s).phase = s.phase := rfl
@[simp] theorem takeTail_enc (s : State) : (takeTail s).enc = { s.enc with mlen := 4, off := 0 } := rfl
@[simp] theorem takeTail_dec (s : State) : (takeTail s).dec = s.dec := rfl
@[simp] theorem takeTail_src (s : State) : (takeTail s).src = s.src := rfl
@[simp] theorem takeTail_dst (s : State) : (takeTail s).dst = s.dst := rfl
@[simp] theorem takeTail_scratch (s : State) : (takeTail s).scratch = s.scratch := rfl

/-! ### `startCompress` (rules R14, R18, R147) -/

@[simp] theorem startCompress_cfg (s : State) : (startCompress s).cfg = s.cfg := rfl
@[simp] theorem startCompress_platform (s : State) : (startCompress s).platform = s.platform := rfl
@[simp] theorem startCompress_agenda (s : State) : (startCompress s).agenda = s.agenda := rfl
@[simp] theorem startCompress_cmd (s : State) : (startCompress s).cmd = 1 := rfl
@[simp] theorem startCompress_srcLen (s : State) : (startCompress s).srcLen = s.srcLen := rfl
@[simp] theorem startCompress_dstCap (s : State) : (startCompress s).dstCap = s.dstCap := rfl
@[simp] theorem startCompress_status (s : State) : (startCompress s).status = 1 := rfl
@[simp] theorem startCompress_result (s : State) : (startCompress s).result = 0 := rfl
@[simp] theorem startCompress_errKind (s : State) : (startCompress s).errKind = 0 := rfl
@[simp] theorem startCompress_cause (s : State) : (startCompress s).cause = none := rfl
@[simp] theorem startCompress_phase (s : State) : (startCompress s).phase = .encStart := rfl
@[simp] theorem startCompress_enc (s : State) :
    (startCompress s).enc = { Encoder.reset with
      n := s.srcLen, cap := s.dstCap, r := 1, anchor := 0, o := 0, miss := 0 } := rfl
@[simp] theorem startCompress_dec (s : State) : (startCompress s).dec = s.dec := rfl
@[simp] theorem startCompress_src (s : State) :
    (startCompress s).src = (s.src.lend (s.platform.extent .src) s.dstUsed).lend (s.platform.extent .src) s.scratchUsed := rfl
@[simp] theorem startCompress_dst (s : State) :
    (startCompress s).dst = s.dst.lend (s.platform.extent .dst) s.scratchUsed := rfl
@[simp] theorem startCompress_scratch (s : State) : (startCompress s).scratch = s.scratch.zero := rfl

/-! ### `startDecompress` (rules R14, R22, R191) -/

@[simp] theorem startDecompress_cfg (s : State) : (startDecompress s).cfg = s.cfg := rfl
@[simp] theorem startDecompress_platform (s : State) : (startDecompress s).platform = s.platform := rfl
@[simp] theorem startDecompress_agenda (s : State) : (startDecompress s).agenda = s.agenda := rfl
@[simp] theorem startDecompress_cmd (s : State) : (startDecompress s).cmd = 2 := rfl
@[simp] theorem startDecompress_srcLen (s : State) : (startDecompress s).srcLen = s.srcLen := rfl
@[simp] theorem startDecompress_dstCap (s : State) : (startDecompress s).dstCap = s.dstCap := rfl
@[simp] theorem startDecompress_status (s : State) : (startDecompress s).status = 1 := rfl
@[simp] theorem startDecompress_result (s : State) : (startDecompress s).result = 0 := rfl
@[simp] theorem startDecompress_errKind (s : State) : (startDecompress s).errKind = 0 := rfl
@[simp] theorem startDecompress_cause (s : State) : (startDecompress s).cause = none := rfl
@[simp] theorem startDecompress_phase (s : State) : (startDecompress s).phase = .decBoundary := rfl
@[simp] theorem startDecompress_enc (s : State) : (startDecompress s).enc = s.enc := rfl
@[simp] theorem startDecompress_dec (s : State) :
    (startDecompress s).dec = { Decoder.reset with n := s.srcLen, cap := s.dstCap, ip := 0, op := 0 } := rfl
@[simp] theorem startDecompress_src (s : State) :
    (startDecompress s).src = s.src.lend (s.platform.extent .src) s.dstUsed := rfl
@[simp] theorem startDecompress_dst (s : State) : (startDecompress s).dst = s.dst := rfl
@[simp] theorem startDecompress_scratch (s : State) :
    (startDecompress s).scratch = s.scratch.lend (s.platform.extent .scratch) s.dstUsed := rfl

/-! ### `storeAt` (rules R30, R250) -/

@[simp] theorem storeAt_cfg (s : State) (a : Nat) (bytes : List Byte) :
    (storeAt s a bytes).cfg = s.cfg := rfl
@[simp] theorem storeAt_platform (s : State) (a : Nat) (bytes : List Byte) :
    (storeAt s a bytes).platform = s.platform := rfl
@[simp] theorem storeAt_agenda (s : State) (a : Nat) (bytes : List Byte) :
    (storeAt s a bytes).agenda = s.agenda := rfl
@[simp] theorem storeAt_cmd (s : State) (a : Nat) (bytes : List Byte) :
    (storeAt s a bytes).cmd = s.cmd := rfl
@[simp] theorem storeAt_srcLen (s : State) (a : Nat) (bytes : List Byte) :
    (storeAt s a bytes).srcLen = s.srcLen := rfl
@[simp] theorem storeAt_dstCap (s : State) (a : Nat) (bytes : List Byte) :
    (storeAt s a bytes).dstCap = s.dstCap := rfl
@[simp] theorem storeAt_status (s : State) (a : Nat) (bytes : List Byte) :
    (storeAt s a bytes).status = s.status := rfl
@[simp] theorem storeAt_result (s : State) (a : Nat) (bytes : List Byte) :
    (storeAt s a bytes).result = s.result := rfl
@[simp] theorem storeAt_errKind (s : State) (a : Nat) (bytes : List Byte) :
    (storeAt s a bytes).errKind = s.errKind := rfl
@[simp] theorem storeAt_cause (s : State) (a : Nat) (bytes : List Byte) :
    (storeAt s a bytes).cause = s.cause := rfl
@[simp] theorem storeAt_phase (s : State) (a : Nat) (bytes : List Byte) :
    (storeAt s a bytes).phase = s.phase := rfl
@[simp] theorem storeAt_enc (s : State) (a : Nat) (bytes : List Byte) :
    (storeAt s a bytes).enc = s.enc := rfl
@[simp] theorem storeAt_dec (s : State) (a : Nat) (bytes : List Byte) :
    (storeAt s a bytes).dec = s.dec := rfl
@[simp] theorem storeAt_src (s : State) (a : Nat) (bytes : List Byte) :
    (storeAt s a bytes).src = s.src.writeBytes ((s.platform.extent .src).landing a bytes).1
      ((s.platform.extent .src).landing a bytes).2 := rfl
@[simp] theorem storeAt_dst (s : State) (a : Nat) (bytes : List Byte) :
    (storeAt s a bytes).dst = s.dst.writeBytes ((s.platform.extent .dst).landing a bytes).1
      ((s.platform.extent .dst).landing a bytes).2 := rfl
@[simp] theorem storeAt_scratch (s : State) (a : Nat) (bytes : List Byte) :
    (storeAt s a bytes).scratch = s.scratch.writeBytes ((s.platform.extent .scratch).landing a bytes).1
      ((s.platform.extent .scratch).landing a bytes).2 := rfl

/-! ### `resetBlock` (rules R245, R246) -/

@[simp] theorem resetBlock_cfg (s : State) : (resetBlock s).cfg = s.cfg := rfl
@[simp] theorem resetBlock_platform (s : State) : (resetBlock s).platform = s.platform := rfl
@[simp] theorem resetBlock_agenda (s : State) : (resetBlock s).agenda = s.agenda := rfl
@[simp] theorem resetBlock_cmd (s : State) : (resetBlock s).cmd = 0 := rfl
@[simp] theorem resetBlock_srcLen (s : State) : (resetBlock s).srcLen = 0 := rfl
@[simp] theorem resetBlock_dstCap (s : State) : (resetBlock s).dstCap = 0 := rfl
@[simp] theorem resetBlock_status (s : State) : (resetBlock s).status = 0 := rfl
@[simp] theorem resetBlock_result (s : State) : (resetBlock s).result = 0 := rfl
@[simp] theorem resetBlock_errKind (s : State) : (resetBlock s).errKind = 0 := rfl
@[simp] theorem resetBlock_cause (s : State) : (resetBlock s).cause = none := rfl
@[simp] theorem resetBlock_phase (s : State) : (resetBlock s).phase = .idle := rfl
@[simp] theorem resetBlock_enc (s : State) : (resetBlock s).enc = Encoder.reset := rfl
@[simp] theorem resetBlock_dec (s : State) : (resetBlock s).dec = Decoder.reset := rfl
@[simp] theorem resetBlock_src (s : State) : (resetBlock s).src = s.src := rfl
@[simp] theorem resetBlock_dst (s : State) :
    (resetBlock s).dst = if s.busy then s.dst.forget 0 s.runningCap else s.dst := rfl
@[simp] theorem resetBlock_scratch (s : State) : (resetBlock s).scratch = s.scratch.forget := rfl

end Sys2Proof.Machine
end

