-- ==== Sys2Proof/Laws/Buffers.lean ====
section
/-! SUPPORT. What the host's stores, the lending of shared addresses at a launch and the test for a zero SCRATCH do, read index by
index, and that each keeps the canonical forms. -/

namespace Sys2Proof.Machine

/-! ### A SCRATCH of zeros -/

/-- A list with a 0 at every index from `i` on, and no other entry, up to the end of SCRATCH. -/
theorem zerosFrom_iff (cells : List Host.Cell) (i : Nat) (hi : i ≤ scratchBytes) (hr : Rising cells)
    (hb : ∀ c ∈ cells, i ≤ c.1 ∧ c.1 < scratchBytes) :
    zerosFrom i cells = true ↔ ∀ j, i ≤ j → j < scratchBytes → cellAt cells j = some 0 := by
  induction cells generalizing i with
  | nil =>
    simp only [zerosFrom, decide_eq_true_eq, cellAt]
    exact ⟨fun h j _ _ => by omega, fun h => by
      by_contra hne
      exact absurd (h i (Nat.le_refl i) (by omega)) (by simp)⟩
  | cons c rest ih =>
    obtain ⟨k, b⟩ := c
    obtain ⟨hk, hr'⟩ := List.pairwise_cons.1 hr
    have hkb := hb (k, b) List.mem_cons_self
    simp only [zerosFrom, Bool.and_eq_true, decide_eq_true_eq]
    constructor
    · rintro ⟨⟨rfl, rfl⟩, hz⟩ j h1 h2
      have ih' := (ih (k + 1) hkb.2 hr' (fun c hc => ⟨hk c hc, (hb c (List.mem_cons_of_mem _ hc)).2⟩)).1 hz
      simp only [cellAt]
      split
      · rfl
      · exact ih' j (by omega) h2
    · intro h
      have hik : k = i := by
        by_contra hne
        have hnone : ∀ l : List Host.Cell, (∀ c ∈ l, i < c.1) → cellAt l i = none := fun l hl => by
          induction l with
          | nil => rfl
          | cons d l ihl =>
            obtain ⟨m, d⟩ := d
            have := hl (m, d) List.mem_cons_self
            simp only [cellAt]
            rw [if_neg (by simp only at this; omega)]
            exact ihl (fun c hc => hl c (List.mem_cons_of_mem _ hc))
        have := h i (Nat.le_refl i) (by simp only at hkb; omega)
        rw [hnone _ (fun c hc => by
          rcases List.mem_cons.1 hc with rfl | hc
          · simp only at hkb ⊢; omega
          · have := hk c hc; simp only at hkb this; omega)] at this
        cases this
      subst hik
      have h0 := h k (Nat.le_refl k) hkb.2
      simp only [cellAt, if_true, Option.some.injEq] at h0
      refine ⟨⟨rfl, h0⟩, (ih (k + 1) hkb.2 hr'
        (fun c hc => ⟨hk c hc, (hb c (List.mem_cons_of_mem _ hc)).2⟩)).2 fun j h1 h2 => ?_⟩
      have := h j (by omega) h2
      simp only [cellAt] at this
      rwa [if_neg (by omega)] at this

/-- The test for a SCRATCH of zeros says just that every byte of it is 0 (rule R250 item 4). -/
theorem Scratch.allZero_iff {t : Scratch} (h : t.wf) : t.allZero = true ↔ ∀ i, i < scratchBytes → t.get? i = some 0 := by
  unfold Scratch.allZero
  cases hk : t.kind with
  | unspecified =>
    rw [zerosFrom_iff _ 0 (by simp) h.1 (fun c hc => ⟨Nat.zero_le _, (h.2 c hc).1⟩)]
    simp [Scratch.get?, Scratch.unlisted, hk]
  | cleared =>
    simp only [List.isEmpty_iff]
    constructor
    · intro hc i _
      simp [Scratch.get?, Scratch.unlisted, hk, hc, cellAt]
    · intro hz
      cases hc : t.cells with
      | nil => rfl
      | cons c rest =>
        obtain ⟨k, b⟩ := c
        obtain ⟨h1, h2⟩ := h.2 (k, b) (by simp [hc])
        have := hz k h1
        simp only [Scratch.get?, hc, cellAt, if_true, Option.some_or] at this
        simp [Scratch.unlisted, hk, this] at h2

@[simp] theorem Scratch.zero_kind (t : Scratch) : t.zero.kind = .cleared := rfl
@[simp] theorem Scratch.zero_draw (t : Scratch) : t.zero.draw = t.draw := rfl
@[simp] theorem Scratch.zero_cells (t : Scratch) : t.zero.cells = [] := rfl
@[simp] theorem Scratch.zero_get? (t : Scratch) (i : Nat) : t.zero.get? i = some 0 := rfl
@[simp] theorem Scratch.zero_slot (t : Scratch) (h : BitVec 12) : t.zero.slot h = 0 := Scratch.slot_of_empty rfl rfl h

theorem Scratch.wf_forget (t : Scratch) : t.forget.wf := Scratch.wf_unspecified _

/-! ### Overlap -/

/-- The test for overlap says just that the two regions share no address (rules R58, R259). -/
theorem Extent.disjoint_iff (e f : Extent) : e.disjoint f = true ↔ ¬ e.meets f := by
  simp only [Extent.disjoint, Bool.or_eq_true, decide_eq_true_eq, Extent.meets, Extent.has, not_exists]
  constructor
  · intro h a; omega
  · intro h
    have h1 := h e.base
    have h2 := h f.base
    omega

/-- A command's buffers share an address. -/
theorem Extent.disjoint_eq_false_iff (e f : Extent) : e.disjoint f = false ↔ e.meets f := by
  rw [← Bool.not_eq_true, Extent.disjoint_iff, not_not]

/-! ### Lending -/

/-- An index of a region lies in the meeting with another just where its address is one of the other's. -/
theorem Extent.meeting_iff (e w : Extent) (i : Nat) :
    ((e.meeting w).1 ≤ i ∧ i < (e.meeting w).2) ↔
      (i < e.size ∧ w.base ≤ e.base + i ∧ e.base + i < w.base + w.size) := by
  simp only [Extent.meeting]
  omega

/-- A byte of a lent buffer: unspecified where the command may write its address, else as before (rule R55). -/
theorem Memory.get?_lend (m : Memory) (e w : Extent) (i : Nat) :
    (m.lend e w).get? i =
      if i < e.size ∧ w.base ≤ e.base + i ∧ e.base + i < w.base + w.size then none else m.get? i := by
  rw [← if_congr (Extent.meeting_iff e w i) rfl rfl]
  unfold Memory.lend
  split
  · exact Memory.get?_forget ..
  · rw [if_neg (by omega)]

/-- A byte of a lent SCRATCH: unspecified where the command may write its address, else as before (rules R55, R190). -/
theorem Scratch.get?_lend (t : Scratch) (e w : Extent) {i : Nat} (h : i < scratchBytes) :
    (t.lend e w).get? i =
      if i < e.size ∧ w.base ≤ e.base + i ∧ e.base + i < w.base + w.size then none else t.get? i := by
  rw [← if_congr (Extent.meeting_iff e w i) rfl rfl]
  unfold Scratch.lend
  split
  · rw [Scratch.get?_keepOnly t _ h]
    simp only [Bool.or_eq_true, decide_eq_true_eq]
    by_cases hm : (e.meeting w).1 ≤ i ∧ i < (e.meeting w).2
    · rw [if_neg (by omega), if_pos hm]
    · rw [if_pos (by omega), if_neg hm]
  · rw [if_neg (by omega)]

/-- A SCRATCH with no lent address is as before. -/
theorem Scratch.lend_of_disjoint (t : Scratch) (e w : Extent)
    (h : ∀ i, i < e.size → ¬ (w.base ≤ e.base + i ∧ e.base + i < w.base + w.size)) : t.lend e w = t := by
  unfold Scratch.lend
  rw [if_neg]
  intro hlt
  have := (Extent.meeting_iff e w (e.meeting w).1).1 ⟨Nat.le_refl _, hlt⟩
  exact h _ this.1 this.2

theorem Memory.wf_lend {m : Memory} (h : m.wf) (e w : Extent) : (m.lend e w).wf := by
  unfold Memory.lend
  split
  · exact Memory.wf_forget h _ _
  · exact h

theorem Scratch.wf_lend {t : Scratch} (h : t.wf) (e w : Extent) : (t.lend e w).wf := by
  unfold Scratch.lend
  split
  · exact t.wf_keepOnly _
  · exact h

/-! ### Stores of the host -/

/-- Read after a byte string is written into SCRATCH. -/
theorem Scratch.get?_writeBytes (t : Scratch) (i j : Nat) (bs : List Byte) :
    (t.writeBytes i bs).get? j = if i ≤ j ∧ j < i + bs.length then bs[j - i]? else t.get? j := by
  induction bs generalizing t i with
  | nil => rw [if_neg (by simp only [List.length_nil]; omega)]; rfl
  | cons b rest ih =>
    simp only [Scratch.writeBytes, ih, Scratch.get?_write, List.length_cons]
    by_cases h : i = j
    · subst h; rw [if_neg (by omega), if_pos rfl, if_pos (by omega)]; simp
    · by_cases h2 : i + 1 ≤ j ∧ j < i + 1 + rest.length
      · rw [if_pos h2, if_pos (by omega), show j - i = (j - (i + 1)) + 1 from by omega]; simp
      · rw [if_neg h2, if_neg h, if_neg (by omega)]

/-- Where a byte string stored at an address lands in a region: at the indices whose address it covers, each with the byte for
that address. -/
theorem Extent.landing_iff (e : Extent) (a : Nat) (bs : List Byte) (i : Nat) :
    ((e.landing a bs).1 ≤ i ∧ i < (e.landing a bs).1 + (e.landing a bs).2.length) ↔
      (i < e.size ∧ a ≤ e.base + i ∧ e.base + i < a + bs.length) := by
  simp only [Extent.landing, List.length_take, List.length_drop]
  omega

theorem Extent.landing_getElem? (e : Extent) (a : Nat) (bs : List Byte) (i : Nat)
    (h : i < e.size ∧ a ≤ e.base + i ∧ e.base + i < a + bs.length) :
    (e.landing a bs).2[i - (e.landing a bs).1]? = bs[e.base + i - a]? := by
  simp only [Extent.landing]
  rw [List.getElem?_take_of_lt (by omega), List.getElem?_drop]
  congr 1
  omega

/-- A byte string stored at an address is read in every buffer at the indices that have its addresses, and nowhere else
(rule R30). -/
theorem held_storeAt (s : State) (a : Nat) (bs : List Byte) (b : BufferName) (i : Nat) :
    (storeAt s a bs).held b i =
      if i < (s.platform.extent b).size ∧ a ≤ (s.platform.extent b).base + i ∧
          (s.platform.extent b).base + i < a + bs.length
      then bs[(s.platform.extent b).base + i - a]? else s.held b i := by
  rw [← if_congr (Extent.landing_iff (s.platform.extent b) a bs i) rfl rfl]
  have key := Extent.landing_getElem? (s.platform.extent b) a bs i
  rw [← Extent.landing_iff] at key
  cases b with
  | src =>
    simp only [State.held, storeAt_src, Memory.get?_writeBytes]
    split
    · exact key ‹_›
    · rfl
  | dst =>
    simp only [State.held, storeAt_dst, Memory.get?_writeBytes]
    split
    · exact key ‹_›
    · rfl
  | scratch =>
    simp only [State.held, storeAt_scratch, Scratch.get?_writeBytes]
    split
    · exact key ‹_›
    · rfl

/-- A store of the host keeps the three canonical forms. -/
theorem wf_storeAt {s : State} (h1 : s.src.wf) (h2 : s.dst.wf) (h3 : s.scratch.wf) (a : Nat) (bs : List Byte) :
    (storeAt s a bs).src.wf ∧ (storeAt s a bs).dst.wf ∧ (storeAt s a bs).scratch.wf := by
  refine ⟨Memory.wf_writeBytes h1 _ _, Memory.wf_writeBytes h2 _ _, ?_⟩
  rw [storeAt_scratch]
  by_cases hlen : ((s.platform.extent .scratch).landing a bs).2 = []
  · rw [hlen]; exact h3
  · refine Scratch.wf_writeBytes h3 ?_
    simp only [Extent.landing, Platform.extent, List.length_take, List.length_drop] at hlen ⊢
    have : min s.platform.scratch.size scratchBytes - (a - s.platform.scratch.base) ≠ 0 := fun e => hlen (by simp [e])
    omega

end Sys2Proof.Machine
end

