-- ==== Sys2Proof/Laws/Config.lean ====
section
/-! SUPPORT. What fits in a register of `LEN_BITS` bits. -/

namespace Sys2Proof

/-- A value put into a register is one of `LEN_BITS` bits. -/
theorem Config.fit_lt (c : Config) (v : Nat) : c.fit v < 2 ^ c.lenBits := Nat.mod_lt _ (Nat.two_pow_pos _)

/-- A value of `LEN_BITS` bits is held as it is. -/
theorem Config.fit_of_lt {c : Config} {v : Nat} (h : v < 2 ^ c.lenBits) : c.fit v = v := Nat.mod_eq_of_lt h

/-- All ones is a value of `LEN_BITS` bits. -/
theorem Config.allOnes_lt (c : Config) : c.allOnes < 2 ^ c.lenBits := Nat.sub_lt (Nat.two_pow_pos _) Nat.one_pos

/-- A register of a well-formed configuration holds the bits of `STATUS`. -/
theorem Config.eight_le {c : Config} (h : c.wf = true) : 8 ≤ 2 ^ c.lenBits := by
  simp only [Config.wf, Bool.and_eq_true, decide_eq_true_eq] at h
  exact Nat.pow_le_pow_right (n := 2) (by omega) h.2

end Sys2Proof
end

