-- ==== Sys2Proof/Laws/Decoder.lean ====
section
/-! SUPPORT. What the decoder's operations do: one lemma for each, and one inversion (`DecPost`) that says everything a decoder
step can do. -/

namespace Sys2Proof.Machine

/-- A specified byte is not nothing. -/
theorem Option.ne_none_of_eq_some {α : Type} {o : Option α} {a : α} (h : o = some a) : o ≠ none := by simp [h]

/-- The literal copy of the decoder, where both rooms hold. -/
theorem litCopyDec_ok (s : State) (h1 : s.dec.ip + s.dec.lit ≤ s.dec.n) (h2 : s.dec.op + s.dec.lit ≤ s.dec.cap) :
    litCopyDec s = .ok { s with
      dst := (literalRun s.srcByte s.dst s.dec.ip s.dec.op s.dec.lit).forget (s.dec.op + s.dec.lit) s.dec.cap } := by
  rw [litCopyDec, if_neg (by omega), if_neg (by omega)]

/-- The match copy, where its requirements hold. -/
theorem matchCopy_ok (s : State) (h0 : s.dec.off ≠ 0) (h1 : s.dec.off.toNat ≤ s.dec.op)
    (h2 : s.dec.op + s.dec.mlen ≤ s.dec.cap) :
    matchCopy s = .ok { s with
      dst := (matchRun s.dst s.dec.op s.dec.off.toNat s.dec.mlen).forget (s.dec.op + s.dec.mlen) s.dec.cap } := by
  have : s.dec.off.toNat ≠ 0 := fun h => h0 (BitVec.eq_of_toNat_eq (by simpa using h))
  rw [matchCopy, if_neg (by omega)]

/-- Everything a decoder operation can do to the state: the fields it never touches, DST at and above `cap`, and where it ends. -/
structure DecPost (s t : State) : Prop where
  frame : t.cfg = s.cfg ∧ t.platform = s.platform ∧ t.agenda = s.agenda ∧ t.cmd = s.cmd ∧ t.srcLen = s.srcLen ∧
    t.dstCap = s.dstCap ∧ t.enc = s.enc ∧ t.src = s.src ∧ t.scratch = s.scratch
  wf : s.dst.wf → t.dst.wf
  kept : ∀ i, s.dec.cap ≤ i → t.dst.get? i = s.dst.get? i
  sizes : t.dec.n = s.dec.n ∧ t.dec.cap = s.dec.cap
  progress : s.dec.ip ≤ t.dec.ip
  width : s.result < 2 ^ s.cfg.lenBits → t.result < 2 ^ s.cfg.lenBits
  ends : (t.phase = .idle ∧ ((t.status = 2 ∧ t.errKind = 0) ∨ (t.status = 6 ∧ t.result = s.cfg.allOnes ∧ t.errKind = 2))) ∨
    (t.decoding ∧ t.status = s.status ∧ t.result = s.result ∧ t.errKind = s.errKind ∧ DecoderReady t)

/-- A failure of the decoder. -/
theorem decPost_raise (s : State) (c : Cause) (hc : c.kind = .malformedStream) : DecPost s (raise s c) where
  frame := by simp [hc, ErrorKind.scratchAfter]
  wf h := by simpa using Memory.wf_forget h _ _
  kept i hi := by simp only [raise_dst, hc, ErrorKind.cap, Memory.get?_forget]; rw [if_neg (by omega)]
  sizes := by simp
  progress := by simp
  width _ := s.cfg.allOnes_lt
  ends := .inl (by simp [hc, ErrorKind.code])

/-- A success of the decoder. -/
theorem decPost_complete (s : State) (v : Nat) : DecPost s (complete s s.dec.cap v) where
  frame := by simp
  wf h := by simpa using Memory.wf_forget h _ _
  kept i hi := by simp only [complete_dst, Memory.get?_forget]; rw [if_neg (by omega)]
  sizes := by simp
  progress := by simp
  width _ := s.cfg.fit_lt v
  ends := .inl (by simp)

/-- The END tests answer a success or a failure (rule R197). -/
theorem decPost_endStep (s : State) : DecPost s (endStep s) := by
  unfold endStep
  split
  · exact decPost_raise _ _ rfl
  · split
    · exact decPost_raise _ _ rfl
    · split
      · exact decPost_raise _ _ rfl
      · exact decPost_complete _ _

/-- A match run and its slack keep every output byte specified. -/
theorem matchRun_ready {s : State} (h : DecoderReady s) (h0 : s.dec.off ≠ 0) (h1 : s.dec.off.toNat ≤ s.dec.op) {i : Nat} (hi : i < s.dec.op + s.dec.mlen) :
    ((matchRun s.dst s.dec.op s.dec.off.toNat s.dec.mlen).forget (s.dec.op + s.dec.mlen) s.dec.cap).get? i ≠ none := by
  have h0' : s.dec.off.toNat ≠ 0 := fun h => h0 (BitVec.eq_of_toNat_eq (by simpa using h))
  rw [Memory.get?_forget, if_neg (by omega)]
  by_cases hop : i < s.dec.op
  · rw [get?_matchRun_outside _ _ _ _ _ (.inl hop)]; exact h.2.2.2 i hop
  · exact Option.ne_none_of_eq_some (get?_matchRun_inside _ _ _ _ _ (by omega) h1 ⟨by omega, hi⟩)

/-- Steps 6 and 7 of a sequence (rules R199 to R201) never fault. -/
theorem decPost_matchStep {s : State} (h : DecoderReady s) (h0 : s.dec.off ≠ 0) :
    ∃ t, matchStep s = .ok t ∧ DecPost s t := by
  unfold matchStep
  split
  · exact ⟨_, rfl, decPost_raise _ _ rfl⟩
  · split
    · exact ⟨_, rfl, decPost_raise _ _ rfl⟩
    · have hop := h.2.1
      have h1 : s.dec.off.toNat ≤ s.dec.op := by omega
      have h2 : s.dec.op + s.dec.mlen ≤ s.dec.cap := by omega
      rw [matchCopy_ok s h0 h1 h2]
      refine ⟨_, rfl, ?_⟩
      exact {
        frame := by simp
        wf := fun hw => Memory.wf_forget (wf_matchRun hw _ _ _) _ _
        kept := fun i hi => by
          simp only [Memory.get?_forget]
          rw [if_neg (by omega), get?_matchRun_outside _ _ _ _ _ (by omega)]
        sizes := by simp
        progress := by simp
        width := id
        ends := .inr ⟨.inl rfl, rfl, rfl, rfl, h.1, h2, h.2.2.1, fun i hi => matchRun_ready h h0 h1 hi⟩ }

/-- END or SEQ (rules R197 to R201) never faults. -/
theorem decPost_finishSequence {s : State} (h : DecoderReady s) : ∃ t, finishSequence s = .ok t ∧ DecPost s t := by
  unfold finishSequence
  split
  · exact ⟨_, rfl, decPost_endStep s⟩
  · exact decPost_matchStep h ‹_›

/-- `DecPost` looks at the decoder's registers only through `n`, `cap` and `ip`. -/
theorem DecPost.of_dec {s s' t : State} (h : DecPost s' t)
    (hf : s'.cfg = s.cfg ∧ s'.platform = s.platform ∧ s'.agenda = s.agenda ∧ s'.cmd = s.cmd ∧ s'.srcLen = s.srcLen ∧
      s'.dstCap = s.dstCap ∧ s'.enc = s.enc ∧ s'.src = s.src ∧ s'.scratch = s.scratch)
    (hr : s'.status = s.status ∧ s'.result = s.result ∧ s'.errKind = s.errKind)
    (hd : s'.dec.n = s.dec.n ∧ s'.dec.cap = s.dec.cap) (hip : s.dec.ip ≤ s'.dec.ip)
    (hw : s.dst.wf → s'.dst.wf) (hk : ∀ i, s.dec.cap ≤ i → s'.dst.get? i = s.dst.get? i) : DecPost s t where
  frame := by
    obtain ⟨f1, f2, f3, f4, f5, f6, f7, f8, f9⟩ := h.frame
    obtain ⟨g1, g2, g3, g4, g5, g6, g7, g8, g9⟩ := hf
    exact ⟨f1.trans g1, f2.trans g2, f3.trans g3, f4.trans g4, f5.trans g5, f6.trans g6, f7.trans g7, f8.trans g8,
      f9.trans g9⟩
  wf hs := h.wf (hw hs)
  kept i hi := (h.kept i (by omega)).trans (hk i hi)
  sizes := ⟨h.sizes.1.trans hd.1, h.sizes.2.trans hd.2⟩
  progress := Nat.le_trans hip h.progress
  width hs := by have := h.width (by rw [hf.1, hr.2.1]; exact hs); rwa [hf.1] at this
  ends := by
    have e := h.ends
    rw [hf.1] at e
    exact e.imp id fun ⟨a, b, c, d, e⟩ => ⟨a, b.trans hr.1, c.trans hr.2.1, d.trans hr.2.2, e⟩

/-- The start of a chain leaves the decoder ready (rule R107). -/
theorem decPost_startChain {s : State} (h : DecoderReady s) (c : ChainKind) : DecPost s (startChain s c) where
  frame := by simp
  wf hw := by simpa using hw
  kept i hi := by simp
  sizes := by simp
  progress := by simp
  width := id
  ends := .inr ⟨.inr rfl, rfl, rfl, rfl, h⟩

/-- Step 4 (rule R196) never faults. -/
theorem decPost_matchLength {s : State} (h : DecoderReady s) : ∃ t, matchLength s = .ok t ∧ DecPost s t := by
  have hr : DecoderReady (takeMatchField s) := h
  have back : ∀ t, DecPost (takeMatchField s) t → DecPost s t := fun t hp =>
    hp.of_dec (by simp) (by simp) (by simp) (by simp) (fun h => h) (fun _ _ => rfl)
  unfold matchLength
  split
  · exact ⟨_, rfl, back _ (decPost_startChain hr _)⟩
  · obtain ⟨t, ht, hp⟩ := decPost_finishSequence hr
    exact ⟨t, ht, back t hp⟩

/-- A literal run and its slack keep every output byte specified. -/
theorem literalRun_ready {s : State} (h : DecoderReady s) {i : Nat}
    (hi : i < s.dec.op + s.dec.lit) :
    ((literalRun s.srcByte s.dst s.dec.ip s.dec.op s.dec.lit).forget (s.dec.op + s.dec.lit) s.dec.cap).get? i ≠ none := by
  rw [Memory.get?_forget, if_neg (by omega), get?_literalRun]
  split
  · simp
  · exact h.2.2.2 i (by omega)

/-- Step 3 (rule R195) never faults. -/
theorem decPost_literalStep {s : State} (h : DecoderReady s) : ∃ t, literalStep s = .ok t ∧ DecPost s t := by
  unfold literalStep
  split
  · exact ⟨_, rfl, decPost_raise _ _ rfl⟩
  · split
    · exact ⟨_, rfl, decPost_raise _ _ rfl⟩
    · have hip := h.1
      have hop := h.2.1
      have h1 : s.dec.ip + s.dec.lit ≤ s.dec.n := by omega
      have h2 : s.dec.op + s.dec.lit ≤ s.dec.cap := by omega
      rw [litCopyDec_ok s h1 h2]
      obtain ⟨t, ht, hp⟩ := decPost_matchLength (s := { s with
        dst := (literalRun s.srcByte s.dst s.dec.ip s.dec.op s.dec.lit).forget (s.dec.op + s.dec.lit) s.dec.cap
        dec := { s.dec with ip := s.dec.ip + s.dec.lit, op := s.dec.op + s.dec.lit } })
        ⟨h1, h2, h.2.2.1, fun i hi => literalRun_ready h hi⟩
      refine ⟨t, ht, hp.of_dec (by simp) (by simp) (by simp) (by simp) (fun hw => ?_) (fun i hi => ?_)⟩
      · exact Memory.wf_forget (wf_literalRun _ hw _ _ _) _ _
      · rw [Memory.get?_forget, if_neg (by omega), get?_literalRun, if_neg (by omega)]

/-- A token (rules R193 to R201) never faults, and moves `ip` on by 3 at least. -/
theorem decPost_runToken {s : State} (h : DecoderReady s) (h3 : s.dec.ip + 3 ≤ s.dec.n) (off : BitVec 16) (mf lf : BitVec 4) :
    ∃ t, runToken s off mf lf = .ok t ∧ DecPost s t ∧ s.dec.ip + 3 ≤ t.dec.ip := by
  have hr : DecoderReady (takeToken s off mf lf) := ⟨h3, h.2.1, h.2.2.1, h.2.2.2⟩
  have key : ∃ t, literalLength (takeToken s off mf lf) = .ok t ∧ DecPost (takeToken s off mf lf) t := by
    unfold literalLength
    split
    · exact ⟨_, rfl, decPost_startChain hr _⟩
    · exact decPost_literalStep hr
  obtain ⟨t, ht, hp⟩ := key
  exact ⟨t, ht, hp.of_dec (by simp) (by simp) (by simp) (by simp) (fun h => h) (fun _ _ => rfl), hp.progress⟩

/-- The end of a chain (rules R107, R194, R196) never faults. -/
theorem decPost_chainDone {s : State} (h : DecoderReady s) : ∃ t, chainDone s = .ok t ∧ DecPost s t := by
  unfold chainDone
  split
  · obtain ⟨t, ht, hp⟩ := decPost_literalStep (s := { s with dec := { s.dec with lit := s.dec.acc } }) h
    exact ⟨t, ht, hp.of_dec (by simp) (by simp) (by simp) (by simp) (fun h => h) (fun _ _ => rfl)⟩
  · obtain ⟨t, ht, hp⟩ := decPost_finishSequence (s := { s with dec := { s.dec with mlen := 4 + s.dec.acc } }) h
    exact ⟨t, ht, hp.of_dec (by simp) (by simp) (by simp) (by simp) (fun h => h) (fun _ _ => rfl)⟩

/-- The end test (rule R202) ends the command. -/
theorem decPost_tailStep (s : State) : DecPost s (tailStep s) := by
  unfold tailStep
  split
  · exact decPost_raise _ _ rfl
  · exact decPost_complete _ _

/-- An escape byte taken leaves the decoder ready, one byte further (rule R107). -/
theorem takeEscape_ready {s : State} (h : DecoderReady s) (h1 : s.dec.ip + 1 ≤ s.dec.n) (b : Byte) :
    DecoderReady (takeEscape s b) := ⟨h1, h.2.1, h.2.2.1, h.2.2.2⟩

end Sys2Proof.Machine
end

