-- ==== Sys2Proof/Laws/Encoding.lean ====
section
/-! SUPPORT. Lengths of the encoded parts (rules R72, R73, R75, R104, R105). -/

namespace Sys2Proof

@[simp] theorem tokenBytes_length (v : Token) : (tokenBytes v).length = 3 := rfl

/-- ESC.ENC writes exactly `esc(x)` bytes (rule R105). -/
theorem escChain_length {x : Nat} (h : 15 ≤ x) : (escChain x).length = escCount x := by
  simp [escChain, escCount, Nat.not_lt.2 h]; omega

/-- The escape bytes of a length number `esc(x)` (rules R72, R104). -/
@[simp] theorem escBytes_length (x : Nat) : (escBytes x).length = escCount x := by
  unfold escBytes
  split
  · simp [escCount, *]
  · exact escChain_length (by omega)

/-- The saturated field value is 15 exactly from 15 on (rule R103). -/
theorem field_eq_esc (x : Nat) : field x = 15 ↔ 15 ≤ x := by simp [field]

theorem field_lt (x : Nat) : field x < 16 := by simp only [field]; omega

/-- `esc` of a value is at most the value (rule R162). -/
theorem escCount_le (x : Nat) : escCount x ≤ x := by unfold escCount; split <;> omega

end Sys2Proof
end

