-- ==== Sys2Proof/Laws/Encoder.lean ====
section
/-! SUPPORT. What the encoder's operations do: emission writes a sequence's bytes (`Wrote`), and one inversion (`EncPost`) says
everything an encoder step can do. -/

namespace Sys2Proof.Machine

@[simp] theorem bytesFrom_length (read : Nat → Byte) (a k : Nat) : (bytesFrom read a k).length = k := by
  induction k generalizing a with
  | zero => rfl
  | succ k ih => simp [bytesFrom, ih]

/-- The bytes read from an index on, one by one. -/
theorem bytesFrom_getElem? (read : Nat → Byte) (a k i : Nat) :
    (bytesFrom read a k)[i]? = if i < k then some (read (a + i)) else none := by
  induction k generalizing a i with
  | zero => simp [bytesFrom]
  | succ k ih =>
    cases i with
    | zero => simp [bytesFrom]
    | succ i =>
      simp only [bytesFrom, List.getElem?_cons_succ, ih, Nat.add_lt_add_iff_right]
      rw [show a + 1 + i = a + (i + 1) from by omega]

/-! ### Emission -/

/-- The encoder wrote bytes at its output cursor and nothing else of it changed. -/
structure Wrote (s t : State) (bytes : List Byte) : Prop where
  rest : t = { s with dst := t.dst, enc := { s.enc with o := s.enc.o + bytes.length } }
  wf : s.dst.wf → t.dst.wf
  kept : ∀ i, i < s.enc.o ∨ s.enc.cap ≤ i → t.dst.get? i = s.dst.get? i
  holds : t.dst.holds s.enc.o bytes

theorem Wrote.o {s t : State} {bytes : List Byte} (h : Wrote s t bytes) : t.enc.o = s.enc.o + bytes.length := by
  rw [h.rest]

theorem Wrote.cap {s t : State} {bytes : List Byte} (h : Wrote s t bytes) : t.enc.cap = s.enc.cap := by rw [h.rest]

theorem Wrote.n {s t : State} {bytes : List Byte} (h : Wrote s t bytes) : t.enc.n = s.enc.n := by rw [h.rest]

theorem Wrote.anchor {s t : State} {bytes : List Byte} (h : Wrote s t bytes) : t.enc.anchor = s.enc.anchor := by
  rw [h.rest]

theorem Wrote.src {s t : State} {bytes : List Byte} (h : Wrote s t bytes) : t.src = s.src := by rw [h.rest]

/-- Nothing written. -/
theorem Wrote.nil (s : State) : Wrote s s [] := ⟨rfl, id, fun _ _ => rfl, fun _ h => absurd h (Nat.not_lt_zero _)⟩

/-- One part after another (rule R174). -/
theorem Wrote.trans {s t u : State} {a b : List Byte} (h : Wrote s t a) (h' : Wrote t u b) : Wrote s u (a ++ b) where
  rest := by
    have e := h'.rest
    rw [e, h.rest]
    simp [Nat.add_assoc]
  wf hs := h'.wf (h.wf hs)
  kept i hi := by
    have := h.o
    have := h.cap
    rw [h'.kept i (by omega), h.kept i hi]
  holds i hi := by
    have ho := h.o
    rw [List.length_append] at hi
    by_cases hia : i < a.length
    · rw [h'.kept _ (.inl (by omega)), h.holds i hia, List.getElem?_append_left hia]
    · have := h'.holds (i - a.length) (by omega)
      rw [ho, show s.enc.o + a.length + (i - a.length) = s.enc.o + i from by omega] at this
      rw [this, List.getElem?_append_right (by omega)]

/-- Bytes written where the room holds. -/
theorem putDst_ok (s : State) (bytes : List Byte) (h : s.enc.o + bytes.length ≤ s.enc.cap) :
    ∃ t, putDst s bytes = .ok t ∧ Wrote s t bytes := by
  rw [putDst, if_pos h]
  refine ⟨_, rfl, rfl, fun hw => Memory.wf_writeBytes hw _ _, fun i hi => ?_, fun i hi => ?_⟩
  · rw [Memory.get?_writeBytes, if_neg (by omega)]
  · rw [Memory.get?_writeBytes, if_pos (by omega), Nat.add_sub_cancel_left]

/-- ESC.ENC as a part of a sequence (rules R105, R155). -/
theorem putEscape_ok (s : State) (x : Nat) (h : s.enc.o + escCount x ≤ s.enc.cap) :
    ∃ t, putEscape s x = .ok t ∧ Wrote s t (escBytes x) := by
  unfold putEscape escBytes
  by_cases hx : 15 ≤ x
  · rw [if_pos ((field_eq_esc x).2 hx), if_neg (by omega)]
    exact putDst_ok s _ (by rw [escChain_length hx]; exact h)
  · rw [if_neg (fun e => hx ((field_eq_esc x).1 e)), if_pos (by omega)]
    exact ⟨s, rfl, Wrote.nil s⟩

/-- PUT_TOKEN as a part of a sequence (rules R101, R155). -/
theorem putToken_ok (s : State) (off lf mf : Nat) (h1 : off < 65536) (h2 : lf < 16) (h3 : mf < 16)
    (h : s.enc.o + 3 ≤ s.enc.cap) :
    ∃ t, putToken s off lf mf = .ok t ∧
      Wrote s t (tokenBytes (tokenOf (BitVec.ofNat 16 off) (BitVec.ofNat 4 mf) (BitVec.ofNat 4 lf))) := by
  rw [putToken, pack, if_pos ⟨h1, h2, h3⟩]
  exact putDst_ok s _ h

/-- LITCOPY.ENC as a part of a sequence (rules R155, R172, R173). -/
theorem litCopyEnc_ok (s : State) (lit : Nat) (h1 : s.enc.anchor + lit ≤ s.enc.n) (h2 : s.enc.o + lit ≤ s.enc.cap) :
    ∃ t, litCopyEnc s lit = .ok t ∧ Wrote s t (bytesFrom s.srcByte s.enc.anchor lit) := by
  rw [litCopyEnc, if_neg (by omega), if_neg (by omega)]
  refine ⟨_, rfl, by simp, fun hw => ?_, fun i hi => ?_, fun i hi => ?_⟩
  · exact Memory.wf_forget (wf_literalRun _ hw _ _ _) _ _
  · simp only [Memory.get?_forget]
    rw [if_neg (by omega), get?_literalRun, if_neg (by omega)]
  · rw [bytesFrom_length] at hi
    simp only [Memory.get?_forget]
    rw [if_neg (by omega), get?_literalRun, if_pos (by omega), bytesFrom_getElem?, if_pos hi, Nat.add_sub_cancel_left]

/-- EMIT writes exactly the bytes of its sequence, and never faults where the sequence fits (rules R72, R155). -/
theorem emit_ok (s : State) (off lit mlen : Nat) (hoff : off < 65536) (hn : s.enc.anchor + lit ≤ s.enc.n)
    (hcap : s.enc.o + sequenceSize lit mlen ≤ s.enc.cap) :
    ∃ t, emit s off lit mlen = .ok t ∧
      Wrote s t (Sequence.encode ⟨BitVec.ofNat 16 off, bytesFrom s.srcByte s.enc.anchor lit, mlen⟩) := by
  unfold sequenceSize at hcap
  obtain ⟨t1, e1, w1⟩ := putToken_ok s off (field lit) (field (mlen - 4)) hoff (field_lt _) (field_lt _) (by omega)
  have o1 := w1.o
  have c1 := w1.cap
  simp only [tokenBytes_length] at o1
  obtain ⟨t2, e2, w2⟩ := putEscape_ok t1 lit (by omega)
  have o2 := w2.o
  have c2 := w2.cap
  simp only [escBytes_length] at o2
  obtain ⟨t3, e3, w3⟩ := litCopyEnc_ok t2 lit (by rw [w2.anchor, w1.anchor, w2.n, w1.n]; exact hn) (by omega)
  have o3 := w3.o
  have c3 := w3.cap
  simp only [bytesFrom_length] at o3
  obtain ⟨t4, e4, w4⟩ := putEscape_ok t3 (mlen - 4) (by omega)
  refine ⟨t4, by simp only [emit, e1, e2, e3, e4], ?_⟩
  have hsrc : t2.srcByte = s.srcByte := by funext i; simp [State.srcByte, w2.src, w1.src]
  rw [hsrc, w2.anchor, w1.anchor] at w3
  have := ((w1.trans w2).trans w3).trans w4
  simpa [Sequence.encode, Sequence.token] using this

/-- A sequence's bytes number its size (rule R73). -/
theorem sequence_encode_length (off : BitVec 16) (bs : List Byte) (mlen : Nat) :
    (Sequence.encode ⟨off, bs, mlen⟩).length = sequenceSize bs.length mlen := by
  simp only [Sequence.encode, sequenceSize, List.length_append, tokenBytes_length, escBytes_length]

/-! ### Everything an encoder step can do -/

/-- The fields no encoder step touches, DST at and above `cap`, and where the step ends. -/
structure EncPost (s t : State) : Prop where
  frame : t.cfg = s.cfg ∧ t.platform = s.platform ∧ t.agenda = s.agenda ∧ t.cmd = s.cmd ∧ t.srcLen = s.srcLen ∧
    t.dstCap = s.dstCap ∧ t.dec = s.dec ∧ t.src = s.src
  wf : s.dst.wf → t.dst.wf
  scratchWf : s.scratch.wf → t.scratch.wf
  kept : ∀ i, s.enc.cap ≤ i → t.dst.get? i = s.dst.get? i
  width : s.result < 2 ^ s.cfg.lenBits → t.result < 2 ^ s.cfg.lenBits
  ends : (t.phase = .idle ∧ (∃ i, i < scratchBytes ∧ t.scratch.get? i ≠ some 0) ∧
      ((t.status = 2 ∧ t.errKind = 0) ∨ (t.status = 6 ∧ t.result = s.cfg.allOnes ∧ t.errKind = 1))) ∨
    ((t.phase = .encSearch ∨ t.phase = .encFlush) ∧ t.status = s.status ∧ t.result = s.result ∧ t.errKind = s.errKind ∧
      EncoderInv t ∧ t.scratch.kind = .cleared ∧ t.enc.n = s.enc.n ∧ t.enc.cap = s.enc.cap ∧
      (t.phase = .encSearch → s.phase = .encStart ∨ s.enc.r < t.enc.r))

/-- `EncPost` looks at the encoder's registers only through `r`, `n`, `cap`, and at the rest of the state where it began. -/
theorem EncPost.of_measured {s s' t : State} (h : EncPost s' t) (e : s' = { s with enc := { s.enc with
    e := s'.enc.e, lit := s'.enc.lit, mlen := s'.enc.mlen, off := s'.enc.off } }) : EncPost s t := by
  have hcfg : s'.cfg = s.cfg ∧ s'.platform = s.platform ∧ s'.agenda = s.agenda ∧ s'.cmd = s.cmd ∧ s'.srcLen = s.srcLen ∧
      s'.dstCap = s.dstCap ∧ s'.dec = s.dec ∧ s'.src = s.src ∧ s'.status = s.status ∧ s'.result = s.result ∧
      s'.errKind = s.errKind ∧ s'.dst = s.dst ∧ s'.scratch = s.scratch ∧ s'.phase = s.phase ∧
      s'.enc.n = s.enc.n ∧ s'.enc.cap = s.enc.cap ∧ s'.enc.r = s.enc.r := by rw [e]; simp
  obtain ⟨g1, g2, g3, g4, g5, g6, g7, g8, r1, r2, r3, hd, hs, hp, hn, hc, hr⟩ := hcfg
  obtain ⟨f1, f2, f3, f4, f5, f6, f7, f8⟩ := h.frame
  exact {
    frame := ⟨f1.trans g1, f2.trans g2, f3.trans g3, f4.trans g4, f5.trans g5, f6.trans g6, f7.trans g7, f8.trans g8⟩
    wf := fun hw => h.wf (by rw [hd]; exact hw)
    scratchWf := fun hw => h.scratchWf (by rw [hs]; exact hw)
    kept := fun i hi => by rw [h.kept i (by omega), hd]
    width := fun hw => by have := h.width (by rw [g1, r2]; exact hw); rwa [g1] at this
    ends := by
      have x := h.ends
      rw [g1] at x
      exact x.imp id fun ⟨a, b, c, d, e, f, g, i, j⟩ =>
      ⟨a, b.trans r1, c.trans r2, d.trans r3, e, f, g.trans hn, i.trans hc, fun k => by
        rw [← hp, ← hr]; exact j k⟩ }

/-- A failure of the encoder. -/
theorem encPost_raise (s : State) (c : Cause) (hc : c.kind = .destinationTooSmall) : EncPost s (raise s c) where
  frame := by simp
  wf hw := by simpa using Memory.wf_forget hw _ _
  scratchWf _ := by simpa [hc, ErrorKind.scratchAfter, Scratch.forget] using Scratch.wf_unspecified _
  kept i hi := by simp only [raise_dst, hc, ErrorKind.cap, Memory.get?_forget]; rw [if_neg (by omega)]
  width _ := s.cfg.allOnes_lt
  ends := .inl ⟨rfl, ⟨0, by decide, by
    rw [raise_scratch, hc, ErrorKind.scratchAfter, Scratch.forget_get?]; exact Option.some_ne_none 0 |>.symm⟩, by simp [hc, ErrorKind.code]⟩

/-- A success of the encoder. -/
theorem encPost_finishCompress (s : State) : EncPost s (finishCompress s) where
  frame := by simp
  wf hw := by simpa using Memory.wf_forget hw _ _
  scratchWf _ := s.scratch.wf_keepOnly _
  kept i hi := by simp only [finishCompress_dst, Memory.get?_forget]; rw [if_neg (by omega)]
  width _ := s.cfg.fit_lt _
  ends := .inl ⟨rfl, s.scratch.spend_not_zero, by simp⟩

/-- The entry tests (rules R146, R147). -/
theorem encPost_encStart {s : State} (hp : s.phase = .encStart) (hc : s.cfg.wf = true) (h : EncoderInv s)
    (hk : s.scratch.kind = .cleared) : EncPost s (encStart s) := by
  simp only [EncoderInv, hp] at h
  obtain ⟨hr, ha, ho, hm, hcap, hs⟩ := h
  simp only [Config.wf, Bool.and_eq_true, decide_eq_true_eq] at hc
  unfold encStart
  split
  · exact encPost_raise s _ rfl
  · next hn =>
    split
    · exact {
        frame := by simp
        wf := id
        scratchWf := id
        kept := fun _ _ => rfl
        width := id
        ends := .inr ⟨.inr rfl, rfl, rfl, rfl, ⟨by simp [ha], by simpa using hn, by simp [ho], hcap⟩, hk, rfl, rfl, by simp⟩ }
    · next hl =>
      exact {
        frame := by simp
        wf := id
        scratchWf := id
        kept := fun _ _ => rfl
        width := id
        ends := .inr ⟨.inl rfl, rfl, rfl, rfl,
          ⟨by simp [hr], by simp only; omega, by simpa using hn, by simp [ha], by simp [ho], hcap, hs⟩, hk, rfl, rfl,
          fun _ => .inl hp⟩ }

/-- FLUSH (rule R157) never faults and ends the command. -/
theorem encPost_flushStep {s : State} (hp : s.phase = .encFlush) (h : EncoderInv s) :
    ∃ t, flushStep s = .ok t ∧ EncPost s t ∧ t.phase = .idle := by
  simp only [EncoderInv, hp] at h
  obtain ⟨ha, hn, ho, hcap⟩ := h
  have hm := fun t (hp : EncPost (measureTail s) t) => hp.of_measured (s := s) rfl
  unfold flushStep finishFlush
  split
  · exact ⟨_, rfl, hm _ (encPost_finishCompress (measureTail s)), rfl⟩
  · unfold emitTail
    split
    · exact ⟨_, rfl, hm _ (encPost_raise (measureTail s) .noRoom rfl), rfl⟩
    · next hroom =>
      simp only [measureTail_enc] at hroom
      obtain ⟨u, hu, w⟩ := emit_ok (takeTail (measureTail s)) 0 (measureTail s).enc.lit 4 (by omega)
        (by simp only [takeTail_enc, measureTail_enc]; omega) (by simp only [takeTail_enc, measureTail_enc]; omega)
      rw [hu]
      have hc := w.cap
      have r := w.rest
      simp only [takeTail_enc, measureTail_enc] at hc
      exact ⟨_, rfl, {
        frame := by rw [r]; simp
        wf := fun hw => by simpa using Memory.wf_forget (w.wf hw) _ _
        scratchWf := fun _ => u.scratch.wf_keepOnly _
        kept := fun i hi => by
          simp only [finishCompress_dst, Memory.get?_forget]
          rw [if_neg (by omega), w.kept i (.inr (by simpa using hi))]
          rfl
        width := fun _ => by rw [finishCompress_result, r]; exact s.cfg.fit_lt _
        ends := .inl ⟨rfl, u.scratch.spend_not_zero, by simp⟩ }, rfl⟩

/-! ### SEARCH -/

/-- The window at an index is readable where it lies in the source (rules R9, R121). -/
theorem hashAt_ok (s : State) (p : Nat) (h : p + 8 ≤ s.enc.n) :
    hashAt s p = .ok (hashWord s.cfg.hashMult (BitVec.ofNat 64 (leValue (bytesFrom s.srcByte p 8)))) := by
  simp [hashAt, memReadSrc, h]

/-- LOOKUP_INSERT where the position fits (rule R123). -/
theorem lookupInsert_ok (s : State) (h : BitVec 12) (p : Nat) (hp : p < 65536) :
    lookupInsert s h p = .ok { s with
      scratch := s.scratch.setSlot h (BitVec.ofNat 16 p)
      enc := { s.enc with h := h, q := s.scratch.slot h } } := by
  rw [lookupInsert, if_pos hp]

/-- The candidate test where both reads lie in the source (rule R150). -/
theorem candidateAccepted_ok (s : State) (h1 : s.enc.q.toNat + 4 ≤ s.enc.n) (h2 : s.enc.r + 4 ≤ s.enc.n) :
    candidateAccepted s = .ok (decide (leValue (bytesFrom s.srcByte s.enc.q.toNat 4) =
      leValue (bytesFrom s.srcByte s.enc.r 4))) := by
  simp [candidateAccepted, memReadSrc, h1, h2]

/-- The byte phase answers a position between its start and the end (rule R136). -/
theorem extendBytes_bounds (read : Nat → Byte) (fuel a b stop : Nat) (h : b ≤ stop) :
    b ≤ extendBytes read fuel a b stop ∧ extendBytes read fuel a b stop ≤ stop := by
  induction fuel generalizing a b with
  | zero => exact ⟨Nat.le_refl b, h⟩
  | succ f ih =>
    unfold extendBytes
    split
    · next hc => have := ih (a + 1) (b + 1) (by omega); omega
    · exact ⟨Nat.le_refl b, h⟩

/-- The lowest set bit of a nonzero word lies below 64 (rule R8). -/
theorem ctz64_lt {x : BitVec 64} (h : x ≠ 0) : ctz64 x < 64 := by
  unfold ctz64
  cases hf : (List.range 64).find? (fun i => x.getLsbD i) with
  | some i => simpa using List.mem_of_find?_eq_some hf
  | none =>
    exfalso
    apply h
    ext i hi
    have := List.find?_eq_none.1 hf i (by simpa using hi)
    simpa [BitVec.getLsbD_eq_getElem hi] using this

/-- The walk answers a position between its start and the end (rules R135, R136). -/
theorem extendWords_bounds (read : Nat → Byte) (fuel a b stop : Nat) (h : b ≤ stop) :
    b ≤ extendWords read fuel a b stop ∧ extendWords read fuel a b stop ≤ stop := by
  induction fuel generalizing a b with
  | zero => exact ⟨Nat.le_refl b, h⟩
  | succ f ih =>
    unfold extendWords
    split
    · split
      · have := ih (a + 8) (b + 8) (by omega); omega
      · next hx => have := ctz64_lt hx; omega
    · exact extendBytes_bounds read _ a b stop h

/-- EXTEND's answer lies between the position given and the end (rule R135). -/
theorem extendWalk_bounds (read : Nat → Byte) (a b stop : Nat) (h : b ≤ stop) :
    b ≤ extendWalk read a b stop ∧ extendWalk read a b stop ≤ stop := extendWords_bounds read _ a b stop h

/-- A miss (rule R151). -/
theorem encPost_searchMiss {s : State} (hc : s.cfg.wf = true) (hn : s.enc.n ≤ maxSrc)
    (h8 : s.enc.r + 8 ≤ s.enc.n) (ha : s.enc.anchor ≤ s.enc.r) (ho : s.enc.o ≤ s.enc.cap)
    (hcap : s.enc.cap < 2 ^ s.cfg.lenBits) (hs : ∀ h : BitVec 12, (s.scratch.slot h).toNat ≤ s.enc.r)
    (hk : s.scratch.kind = .cleared) : EncPost s (searchMiss s) := by
  simp only [Config.wf, Bool.and_eq_true, decide_eq_true_eq] at hc
  have hlt : s.enc.r < missCursor s := Nat.lt_add_of_pos_right (Nat.add_pos_left Nat.one_pos _)
  unfold searchMiss
  generalize missCursor s = r' at hlt
  by_cases hl : s.enc.n < r' + s.cfg.searchTail
  · simp only [hl, if_true]
    exact {
      frame := by simp
      wf := id
      scratchWf := id
      kept := fun _ _ => rfl
      width := id
      ends := .inr ⟨.inr rfl, rfl, rfl, rfl, ⟨by simp only; omega, hn, ho, hcap⟩, hk, rfl, rfl, by simp⟩ }
  · simp only [hl, if_false]
    exact {
      frame := by simp
      wf := id
      scratchWf := id
      kept := fun _ _ => rfl
      width := id
      ends := .inr ⟨.inl rfl, rfl, rfl, rfl,
        ⟨by simp only; omega, by simp only; omega, hn, by simp only; omega, ho, hcap,
          fun h => Nat.lt_of_le_of_lt (hs h) hlt⟩, hk, rfl, rfl, fun _ => .inr hlt⟩ }

/-- Going on after an emitted match (rule R156) never faults. -/
theorem encPost_resume {s : State} (hc : s.cfg.wf = true) (hn : s.enc.n ≤ maxSrc)
    (he1 : 1 ≤ s.enc.e) (he : s.enc.e ≤ s.enc.n) (ho : s.enc.o ≤ s.enc.cap) (hcap : s.enc.cap < 2 ^ s.cfg.lenBits)
    (hs : ∀ h : BitVec 12, (s.scratch.slot h).toNat < s.enc.e) (hr : s.enc.r < s.enc.e)
    (hk : s.scratch.kind = .cleared) : ∃ t, continueSearch (matchTaken s) = .ok t ∧ EncPost s t := by
  simp only [Config.wf, Bool.and_eq_true, decide_eq_true_eq] at hc
  have hn' : s.enc.n ≤ 65536 := hn
  unfold continueSearch matchTaken
  by_cases hl : s.enc.n < s.enc.e + s.cfg.lookahead
  · simp only [hl, if_true]
    exact ⟨_, rfl, {
      frame := by simp
      wf := id
      scratchWf := id
      kept := fun _ _ => rfl
      width := id
      ends := .inr ⟨.inr rfl, rfl, rfl, rfl, ⟨he, hn, ho, hcap⟩, hk, rfl, rfl, by simp⟩ }⟩
  · simp only [hl, if_false]
    rw [hashAt_ok _ _ (by simp only; omega)]
    simp only [insertPosition, show s.enc.e - 1 < 65536 from by omega, if_true]
    exact ⟨_, rfl, {
      frame := by simp
      wf := id
      scratchWf := fun hw => Scratch.wf_setSlot hw _ _
      kept := fun _ _ => rfl
      width := id
      ends := .inr ⟨.inl rfl, rfl, rfl, rfl,
        ⟨he1, by simp only; omega, hn, Nat.le_refl _, ho, hcap, fun h => by
          simp only [Scratch.slot_setSlot]
          split
          · simp only [BitVec.toNat_ofNat]; omega
          · exact hs h⟩, by simpa using hk, rfl, rfl, fun _ => .inr hr⟩ }⟩

/-- A measured match, dropped or emitted (rules R154 to R156), never faults. -/
theorem encPost_emitMatch {s : State} (hc : s.cfg.wf = true) (hn : s.enc.n ≤ maxSrc) (hr1 : 1 ≤ s.enc.r)
    (ha : s.enc.anchor + s.enc.lit = s.enc.r) (hoff : s.enc.off < 65536) (he : s.enc.e ≤ s.enc.n)
    (hre : s.enc.r + 4 ≤ s.enc.e) (ho : s.enc.o ≤ s.enc.cap)
    (hcap : s.enc.cap < 2 ^ s.cfg.lenBits) (hs : ∀ h : BitVec 12, (s.scratch.slot h).toNat ≤ s.enc.r)
    (hk : s.scratch.kind = .cleared) : ∃ t, emitMatch s = .ok t ∧ EncPost s t := by
  unfold emitMatch
  split
  · exact ⟨_, rfl, {
      frame := by simp
      wf := id
      scratchWf := id
      kept := fun _ _ => rfl
      width := id
      ends := .inr ⟨.inr rfl, rfl, rfl, rfl, ⟨by simp only; omega, hn, ho, hcap⟩, hk, rfl, rfl, by simp⟩ }⟩
  · next hroom =>
    obtain ⟨u, hu, w⟩ := emit_ok s s.enc.off s.enc.lit s.enc.mlen hoff (by omega) (by omega)
    rw [hu]
    have wo := w.o
    rw [sequence_encode_length, bytesFrom_length] at wo
    have r := w.rest
    have e1 : u.cfg = s.cfg ∧ u.scratch = s.scratch ∧ u.enc.n = s.enc.n ∧ u.enc.e = s.enc.e ∧ u.enc.r = s.enc.r ∧
        u.enc.cap = s.enc.cap ∧ u.phase = s.phase ∧ u.status = s.status ∧ u.result = s.result ∧ u.errKind = s.errKind := by
      rw [r]; simp
    obtain ⟨uc, us, un, ue, ur, uk, up, r1, r2, r3⟩ := e1
    obtain ⟨t, ht, hp⟩ := encPost_resume (s := u) (by rw [uc]; exact hc) (by rw [un]; exact hn) (by omega) (by omega)
      (by omega) (by rw [uc]; omega) (fun h => by rw [us]; have := hs h; omega) (by omega) (by rw [us]; exact hk)
    have fu : u.cfg = s.cfg ∧ u.platform = s.platform ∧ u.agenda = s.agenda ∧ u.cmd = s.cmd ∧ u.srcLen = s.srcLen ∧
        u.dstCap = s.dstCap ∧ u.dec = s.dec ∧ u.src = s.src := by rw [r]; simp
    obtain ⟨f1, f2, f3, f4, f5, f6, f7, f8⟩ := hp.frame
    obtain ⟨g1, g2, g3, g4, g5, g6, g7, g8⟩ := fu
    exact ⟨t, ht, {
      frame := ⟨f1.trans g1, f2.trans g2, f3.trans g3, f4.trans g4, f5.trans g5, f6.trans g6, f7.trans g7, f8.trans g8⟩
      wf := fun hw => hp.wf (w.wf hw)
      scratchWf := fun hw => hp.scratchWf (by rw [us]; exact hw)
      kept := fun i hi => by rw [hp.kept i (by omega), w.kept i (.inr hi)]
      width := fun hw => by have := hp.width (by rw [uc, r2]; exact hw); rwa [uc] at this
      ends := by
        have x := hp.ends
        rw [uc] at x
        exact x.imp id fun ⟨a, b, c, d, e, f, g, h, i⟩ =>
        ⟨a, b.trans r1, c.trans r2, d.trans r3, e, f, g.trans un, h.trans uk, fun hh => by
          rw [← up, ← ur]; exact i hh⟩ }⟩

/-- An accepted candidate (rules R152 to R156) never faults. -/
theorem encPost_searchMatch {s : State} (hc : s.cfg.wf = true) (hr1 : 1 ≤ s.enc.r) (hn : s.enc.n ≤ maxSrc)
    (h8 : s.enc.r + 8 ≤ s.enc.n) (ha : s.enc.anchor ≤ s.enc.r) (ho : s.enc.o ≤ s.enc.cap)
    (hcap : s.enc.cap < 2 ^ s.cfg.lenBits) (hs : ∀ h : BitVec 12, (s.scratch.slot h).toNat ≤ s.enc.r)
    (hq : s.enc.q.toNat < s.enc.r) (hk : s.scratch.kind = .cleared) : ∃ t, searchMatch s = .ok t ∧ EncPost s t := by
  have hb : s.enc.r + 4 ≤ matchEnd s ∧ matchEnd s ≤ s.enc.n := extendWalk_bounds _ _ _ _ (by omega)
  have hn' : s.enc.n ≤ 65536 := hn
  rw [searchMatch, if_pos ⟨hq, by omega⟩]
  obtain ⟨t, ht, hp⟩ := encPost_emitMatch (s := measureMatch s) hc hn hr1
    (by simp only [measureMatch]; omega) (by simp only [measureMatch]; omega) hb.2 hb.1 ho hcap hs hk
  exact ⟨t, ht, hp.of_measured rfl⟩

/-- One pass through SEARCH (rules R148 to R156) never faults. -/
theorem encPost_searchStep {s : State} (hp : s.phase = .encSearch) (hc : s.cfg.wf = true) (h : EncoderInv s)
    (hk : s.scratch.kind = .cleared) : ∃ t, searchStep s = .ok t ∧ EncPost s t := by
  simp only [EncoderInv, hp] at h
  obtain ⟨hr1, h8, hn, ha, ho, hcap, hs⟩ := h
  have hn' : s.enc.n ≤ 65536 := hn
  unfold searchStep
  rw [hashAt_ok s _ h8]
  simp only
  generalize hashWord s.cfg.hashMult (BitVec.ofNat 64 (leValue (bytesFrom s.srcByte s.enc.r 8))) = k
  rw [lookupInsert_ok s k _ (by omega)]
  simp only
  have hq := hs k
  generalize hu : ({ s with
    scratch := s.scratch.setSlot k (BitVec.ofNat 16 s.enc.r)
    enc := { s.enc with h := k, q := s.scratch.slot k } } : State) = u
  have ur : u.enc.r = s.enc.r := by rw [← hu]
  have un : u.enc.n = s.enc.n := by rw [← hu]
  have uq : u.enc.q = s.scratch.slot k := by rw [← hu]
  have uo : u.enc.o = s.enc.o := by rw [← hu]
  have ua : u.enc.anchor = s.enc.anchor := by rw [← hu]
  have uc : u.enc.cap = s.enc.cap := by rw [← hu]
  have ug : u.cfg = s.cfg := by rw [← hu]
  have uk : u.scratch.kind = .cleared := by rw [← hu]; simpa using hk
  have us : ∀ h : BitVec 12, (u.scratch.slot h).toNat ≤ u.enc.r := fun h => by
    rw [ur, ← hu]
    simp only [Scratch.slot_setSlot]
    split
    · simp only [BitVec.toNat_ofNat]; omega
    · exact Nat.le_of_lt (hs h)
  rw [candidateAccepted_ok u (by rw [uq, un]; omega) (by omega)]
  have back : ∀ t, EncPost u t → EncPost s t := fun t hp' => by
    have fu : u.cfg = s.cfg ∧ u.platform = s.platform ∧ u.agenda = s.agenda ∧ u.cmd = s.cmd ∧ u.srcLen = s.srcLen ∧
        u.dstCap = s.dstCap ∧ u.dec = s.dec ∧ u.src = s.src := by rw [← hu]; simp
    have ru : u.status = s.status ∧ u.result = s.result ∧ u.errKind = s.errKind ∧ u.phase = s.phase ∧ u.dst = s.dst := by
      rw [← hu]; simp
    obtain ⟨f1, f2, f3, f4, f5, f6, f7, f8⟩ := hp'.frame
    obtain ⟨g1, g2, g3, g4, g5, g6, g7, g8⟩ := fu
    obtain ⟨r1, r2, r3, r4, r5⟩ := ru
    exact {
      frame := ⟨f1.trans g1, f2.trans g2, f3.trans g3, f4.trans g4, f5.trans g5, f6.trans g6, f7.trans g7, f8.trans g8⟩
      wf := fun hw => hp'.wf (by rw [r5]; exact hw)
      scratchWf := fun hw => hp'.scratchWf (by rw [← hu]; exact Scratch.wf_setSlot hw _ _)
      kept := fun i hi => by rw [hp'.kept i (by omega), r5]
      width := fun hw => by have := hp'.width (by rw [ug, r2]; exact hw); rwa [ug] at this
      ends := by
        have x := hp'.ends
        rw [ug] at x
        exact x.imp id fun ⟨a, b, c, d, e, f, g, h, i⟩ =>
        ⟨a, b.trans r1, c.trans r2, d.trans r3, e, f, g.trans un, h.trans uc, fun hh => by
          rw [← r4, ← ur]; exact i hh⟩ }
  cases decide (leValue (bytesFrom u.srcByte u.enc.q.toNat 4) = leValue (bytesFrom u.srcByte u.enc.r 4)) with
  | true =>
    obtain ⟨t, ht, hp'⟩ := encPost_searchMatch (s := u) (by rw [ug]; exact hc) (by omega) (by rw [un]; exact hn) (by omega)
      (by omega) (by omega) (by rw [ug]; omega) us (by rw [uq, ur]; exact hq) uk
    exact ⟨t, ht, back t hp'⟩
  | false =>
    exact ⟨_, rfl, back _ (encPost_searchMiss (s := u) (by rw [ug]; exact hc) (by rw [un]; exact hn) (by omega) (by omega)
      (by omega) (by rw [ug]; omega) us uk)⟩

end Sys2Proof.Machine
end

