-- ==== Sys2Proof/Laws/Step.lean ====
section
/-! SUPPORT. What a step is, turn by turn, and one inversion that says everything an engine's turn can do. -/

namespace Sys2Proof.Machine

/-- What a selected step answers. -/
def Selected.outcome : Selected → Host.Outcome State Fault Refusal
  | .run i t => exec i t
  | .plain o => o

theorem step_eq (s : State) : step s = (select s).outcome := by
  unfold step Selected.outcome
  cases select s <;> rfl

/-- An empty agenda is the engine's turn. -/
theorem step_nil {s : State} (h : s.agenda = []) : step s = (selectEngine s).outcome := by
  rw [step_eq, select, h]

/-- An engine turn of the agenda is used up. -/
theorem step_engine {s : State} {rest : List Turn} (h : s.agenda = .engine :: rest) :
    step s = (selectEngine { s with agenda := rest }).outcome := by rw [step_eq, select, h]

/-- A host turn of the agenda is used up. -/
theorem step_host {s : State} {m : HostMove} {rest : List Turn} (h : s.agenda = .host m :: rest) :
    step s = (selectHost { s with agenda := rest } m).outcome := by rw [step_eq, select, h]

/-- Every token form runs the same sequence, on its own fields (rule R198). -/
theorem exec_decodeToken (v : Token) (s : State) :
    exec (decodeToken v) s = toOutcome (runToken s (tokenOff v) (tokenMf v) (tokenLf v)) := by
  unfold decodeToken
  split
  · next h0 =>
    split
    · rw [h0]; rfl
    · next h1 =>
      have h1 : tokenMf v = 0 := not_not.1 h1
      split
      · next h2 => rw [h0, h1, h2]; rfl
      · split
        · next h3 => rw [h0, h1, h3]; rfl
        · rw [h0, h1]; rfl
  · split
    · next h1 =>
      split
      · next h2 => rw [h1, h2]; rfl
      · rw [h1]; rfl
    · split
      · next h2 => rw [h2]; rfl
      · rfl

/-- Both escape forms take the byte; only a byte below 255 ends the chain (rule R107). -/
theorem exec_decodeEscape (b : Byte) (s : State) :
    exec (decodeEscape b) s =
      if b = 255 then .next (takeEscape s 255) else toOutcome (chainDone (takeEscape s b)) := by
  unfold decodeEscape
  split
  · rfl
  · rfl

/-- A decoder turn at a sequence boundary (rules R192, R202) never faults. -/
theorem boundary_turn {s : State} (hr : DecoderReady s) :
    ∃ t, (selectBoundary s).outcome = .next t ∧ DecPost s t ∧ (t.phase ≠ .idle → s.dec.ip < t.dec.ip) := by
  unfold selectBoundary
  split
  · refine ⟨_, rfl, decPost_tailStep s, fun hne => absurd ?_ hne⟩
    unfold tailStep; split <;> rfl
  · have hip := hr.1
    rw [fetchToken, if_pos (by omega)]
    simp only [Selected.outcome, exec_decodeToken]
    generalize tokenOfBytes _ _ _ = v
    obtain ⟨t, ht, hpost, hprog⟩ := decPost_runToken hr (by omega) (tokenOff v) (tokenMf v) (tokenLf v)
    exact ⟨t, by rw [ht]; rfl, hpost, fun _ => by omega⟩

/-- A decoder turn inside a chain (rule R107) never faults. -/
theorem chain_turn {s : State} (hp : s.phase = .decChain) (hr : DecoderReady s) :
    ∃ t, (selectChain s).outcome = .next t ∧ DecPost s t ∧ (t.phase ≠ .idle → s.dec.ip < t.dec.ip) := by
  have hip := hr.1
  unfold selectChain
  split
  · exact ⟨_, rfl, decPost_raise s _ rfl, fun hne => absurd rfl hne⟩
  · have hr' := fun b => takeEscape_ready hr (by omega) b
    have key : ∀ b t, DecPost (takeEscape s b) t → DecPost s t ∧ (t.phase ≠ .idle → s.dec.ip < t.dec.ip) :=
      fun b t hpost => ⟨hpost.of_dec (by simp) (by simp) (by simp) (by simp) (fun h => h) (fun _ _ => rfl),
        fun _ => hpost.progress⟩
    simp only [Selected.outcome, exec_decodeEscape]
    split
    · refine ⟨_, rfl, key 255 _ ⟨by simp, id, fun _ _ => rfl, ⟨rfl, rfl⟩, Nat.le_refl _, id, ?_⟩⟩
      exact .inr ⟨.inr hp, rfl, rfl, rfl, hr' 255⟩
    · obtain ⟨t, ht, hpost⟩ := decPost_chainDone (hr' (s.srcByte s.dec.ip))
      exact ⟨t, by rw [ht]; rfl, key _ _ hpost⟩

/-- Everything an engine's turn can do from a state of the invariant: nothing while idle, an encoder step, or a decoder step. It
never faults (rules R9, R50). -/
theorem engine_turn {s : State} (h : Inv s) :
    ∃ t, (selectEngine s).outcome = .next t ∧
      ((s.phase = .idle ∧ t = s) ∨ (s.encoding ∧ EncPost s t) ∨
        (s.decoding ∧ DecPost s t ∧ (t.phase ≠ .idle → s.dec.ip < t.dec.ip))) := by
  have hk := h.index
  have hd := h.decoder
  cases hp : s.phase with
  | idle => exact ⟨s, by rw [selectEngine, hp]; rfl, .inl ⟨rfl, rfl⟩⟩
  | encStart =>
    exact ⟨_, by rw [selectEngine, hp]; rfl,
      .inr (.inl ⟨.inl hp, encPost_encStart hp h.cfg h.encoder (hk (.inl hp))⟩)⟩
  | encSearch =>
    obtain ⟨t, ht, hpost⟩ := encPost_searchStep hp h.cfg h.encoder (hk (.inr (.inl hp)))
    exact ⟨t, by rw [selectEngine, hp]; simp [Selected.outcome, ht, toOutcome], .inr (.inl ⟨.inr (.inl hp), hpost⟩)⟩
  | encFlush =>
    obtain ⟨t, ht, hpost, -⟩ := encPost_flushStep hp h.encoder
    exact ⟨t, by rw [selectEngine, hp]; simp [Selected.outcome, ht, toOutcome], .inr (.inl ⟨.inr (.inr hp), hpost⟩)⟩
  | decBoundary =>
    simp only [DecoderInv, hp] at hd
    obtain ⟨t, ht, hpost⟩ := boundary_turn hd
    exact ⟨t, by rw [selectEngine, hp]; exact ht, .inr (.inr ⟨.inl hp, hpost⟩)⟩
  | decChain =>
    simp only [DecoderInv, hp] at hd
    obtain ⟨t, ht, hpost⟩ := chain_turn hp hd
    exact ⟨t, by rw [selectEngine, hp]; exact ht, .inr (.inr ⟨.inr hp, hpost⟩)⟩

end Sys2Proof.Machine
end

