-- ==== Sys2Proof/Laws/Invariant.lean ====
section
/-! SUPPORT. How each part of the invariant travels: through a change of the agenda, through an engine's step, and into a state in
which no command runs. -/

namespace Sys2Proof.Machine

/-- The invariant does not look at the agenda. -/
theorem Inv.of_agenda {s : State} (h : Inv s) (l : List Turn) : Inv { s with agenda := l } :=
  ⟨h.cfg, h.src, h.dst, h.scratch, h.registers, h.widths, h.command, h.encoder, h.decoder, h.index⟩

/-- BUSY is clear exactly while no engine runs (rule R13). -/
theorem Inv.busy_eq_false {s : State} (h : Inv s) : s.busy = false ↔ s.phase = .idle := by
  constructor
  · intro hb
    by_contra hne
    simp [State.busy, (h.registers.1 hne).1] at hb
  · intro hp
    rcases h.registers.2 hp with ⟨a, -⟩ | ⟨a, -⟩ | ⟨a, -⟩ <;> simp [State.busy, a]

/-- An idle state meets the invariant if its buffers are canonical and its result registers are those of reset or of a
completion. -/
theorem Inv.of_idle {t : State} (hp : t.phase = .idle) (h1 : t.cfg.wf = true) (h2 : t.src.wf) (h3 : t.dst.wf)
    (h4 : t.scratch.wf)
    (hr : (t.status = 0 ∧ t.result = 0 ∧ t.errKind = 0) ∨ (t.status = 2 ∧ t.errKind = 0) ∨
      (t.status = 6 ∧ t.result = t.cfg.allOnes ∧ (t.errKind = 1 ∨ t.errKind = 2)))
    (hw : RegistersFit t) : Inv t where
  cfg := h1
  src := h2
  dst := h3
  scratch := h4
  registers := ⟨fun x => absurd hp x, fun _ => hr⟩
  widths := hw
  command := by simp [CommandAgrees, hp]
  encoder := by simp [EncoderInv, hp]
  decoder := by simp [DecoderInv, hp]
  index := fun x => by simp [State.encoding, hp] at x

/-- A running decoder meets the invariant if its cursors are in their buffers, its output so far is specified and the registers
are those of a running DECOMPRESS. -/
theorem Inv.of_decoding {t : State} (hp : t.decoding) (h1 : t.cfg.wf = true) (h2 : t.src.wf) (h3 : t.dst.wf)
    (h4 : t.scratch.wf) (hr : t.status = 1 ∧ t.result = 0 ∧ t.errKind = 0) (hc : t.cmd = 2) (hd : DecoderReady t)
    (hw : RegistersFit t) : Inv t where
  cfg := h1
  src := h2
  dst := h3
  scratch := h4
  registers := ⟨fun _ => hr, fun x => by rcases hp with hp | hp <;> simp [hp] at x⟩
  widths := hw
  command := by rcases hp with hp | hp <;> simp [CommandAgrees, hp, hc]
  encoder := by rcases hp with hp | hp <;> simp [EncoderInv, hp]
  decoder := by rcases hp with hp | hp <;> simpa [DecoderInv, hp] using hd
  index := fun x => by rcases hp with hp | hp <;> simp [State.encoding, hp] at x

/-- A running encoder meets the invariant if its registers do and the host-visible ones are those of a running COMPRESS. -/
theorem Inv.of_encoding {t : State} (hp : t.encoding) (h1 : t.cfg.wf = true) (h2 : t.src.wf) (h3 : t.dst.wf)
    (h4 : t.scratch.wf) (hr : t.status = 1 ∧ t.result = 0 ∧ t.errKind = 0) (hc : t.cmd = 1) (he : EncoderInv t)
    (hk : t.scratch.kind = .cleared) (hw : RegistersFit t) : Inv t where
  cfg := h1
  src := h2
  dst := h3
  scratch := h4
  registers := ⟨fun _ => hr, fun x => by rcases hp with hp | hp | hp <;> simp [hp] at x⟩
  widths := hw
  command := by rcases hp with hp | hp | hp <;> simp [CommandAgrees, hp, hc]
  encoder := he
  decoder := by rcases hp with hp | hp | hp <;> simp [DecoderInv, hp]
  index := fun _ => hk

end Sys2Proof.Machine
end

