-- ==== Sys2Proof/Laws/PerInstr.lean ====
section
/-! SUPPORT. Statements made of every instruction as syntax, one lemma per constructor of Instr. -/

namespace Sys2Proof.Laws.EncodedWidth

open Sys2Proof

/-- The width the opcode table gives a format, in bytes (rule R82). -/
def width : FetchKind → Nat
  | .token => 3
  | .escape => 1
  | .command => 4

/-- An instruction's bytes are as many as its row of the opcode table has, and a decoder given one byte less refuses them. -/
def Statement (i : Instr) : Prop :=
  (encode i).length = width i.kind ∧ decode i.kind (encode i).dropLast = .error .truncated

theorem seq (off : BitVec 16) (mf lf : BitVec 4) : Statement (.seq off mf lf) := ⟨rfl, rfl⟩
theorem seqLx (off : BitVec 16) (mf : BitVec 4) : Statement (.seqLx off mf) := ⟨rfl, rfl⟩
theorem seqMx (off : BitVec 16) (lf : BitVec 4) : Statement (.seqMx off lf) := ⟨rfl, rfl⟩
theorem seqLxMx (off : BitVec 16) : Statement (.seqLxMx off) := ⟨rfl, rfl⟩
theorem endTok (lf : BitVec 4) : Statement (.endTok lf) := ⟨rfl, rfl⟩
theorem endLx : Statement .endLx := ⟨rfl, rfl⟩
theorem illEnd0 : Statement .illEnd0 := ⟨rfl, rfl⟩
theorem illEndM (mf lf : BitVec 4) : Statement (.illEndM mf lf) := ⟨rfl, rfl⟩
theorem escCont : Statement .escCont := ⟨rfl, rfl⟩
theorem escTerm (value : Byte) : Statement (.escTerm value) := ⟨rfl, rfl⟩
theorem compress : Statement .compress := ⟨rfl, rfl⟩
theorem decompress : Statement .decompress := ⟨rfl, rfl⟩

end Sys2Proof.Laws.EncodedWidth
end

