-- ==== Sys2Proof/Tests/Slice0.lean ====
section
/-! SUPPORT. The model's own tests: ill-formed terms refused, one word per constructor decoded, single steps with results taken from
spec/95_test_vectors.md, and one witness for the hypotheses of every obligation. -/

namespace Sys2Proof.Tests

open Sys2Proof Sys2Proof.Machine

/-! ### WellFormed (rule R82, extra conditions) -/

theorem test_wf_seq_offset_zero : (Instr.seq 0 3 1).wf = false := by decide
theorem test_wf_seq_match_saturated : (Instr.seq 1 15 1).wf = false := by decide
theorem test_wf_seq_literal_saturated : (Instr.seq 1 3 15).wf = false := by decide
theorem test_wf_seqLx_offset_zero : (Instr.seqLx 0 3).wf = false := by decide
theorem test_wf_seqLx_match_saturated : (Instr.seqLx 1 15).wf = false := by decide
theorem test_wf_seqMx_offset_zero : (Instr.seqMx 0 3).wf = false := by decide
theorem test_wf_seqMx_literal_saturated : (Instr.seqMx 1 15).wf = false := by decide
theorem test_wf_seqLxMx_offset_zero : (Instr.seqLxMx 0).wf = false := by decide
theorem test_wf_endTok_no_literal : (Instr.endTok 0).wf = false := by decide
theorem test_wf_endTok_literal_saturated : (Instr.endTok 15).wf = false := by decide
theorem test_wf_illEndM_no_match : (Instr.illEndM 0 1).wf = false := by decide
theorem test_wf_escTerm_continues : (Instr.escTerm 255).wf = false := by decide

/-! ### Decoding: words written out from rules R71, R75, R81, R82 (`lit_len_field` in bits 23:20, `match_len_field` in 19:16) -/

/-- 95 section 2.1, row `01 00 13`: off 1, mf 3, lf 1. -/
theorem test_decode_seq : decode .token [0x01, 0x00, 0x13] = .ok (.seq 1 3 1, []) := by rfl
/-- 95 section 2.1, row `15 00 FC`: off 21, mf 12, lf 15. -/
theorem test_decode_seqLx : decode .token [0x15, 0x00, 0xFC] = .ok (.seqLx 21 12, []) := by rfl
/-- 95 section 2.1, row `01 00 1F`: off 1, mf 15, lf 1. -/
theorem test_decode_seqMx : decode .token [0x01, 0x00, 0x1F] = .ok (.seqMx 1 1, []) := by rfl
/-- 95 section 2.1, row `FF FF FF`. -/
theorem test_decode_seqLxMx : decode .token [0xFF, 0xFF, 0xFF] = .ok (.seqLxMx 65535, []) := by rfl
/-- 95 section 2.1, row `00 00 30`. -/
theorem test_decode_endTok : decode .token [0x00, 0x00, 0x30] = .ok (.endTok 3, []) := by rfl
/-- 95 vector V12. -/
theorem test_decode_endLx : decode .token [0x00, 0x00, 0xF0] = .ok (.endLx, []) := by rfl
/-- 95 section 2.1, row `00 00 00`. -/
theorem test_decode_illEnd0 : decode .token [0x00, 0x00, 0x00] = .ok (.illEnd0, []) := by rfl
/-- 95 vector V6: `00 00 11`, mf 1, lf 1. -/
theorem test_decode_illEndM : decode .token [0x00, 0x00, 0x11] = .ok (.illEndM 1 1, []) := by rfl
theorem test_decode_escCont : decode .escape [0xFF, 0x07] = .ok (.escCont, [0x07]) := by rfl
theorem test_decode_escTerm : decode .escape [0xFE] = .ok (.escTerm 0xFE, []) := by rfl
theorem test_decode_compress : decode .command [1, 0, 0, 0] = .ok (.compress, []) := by rfl
theorem test_decode_decompress : decode .command [2, 0, 0, 0] = .ok (.decompress, []) := by rfl
/-- Rule R81: every other command code is reserved. -/
theorem test_decode_reserved_command : decode .command [3, 0, 0, 0] = .error .reservedCommand := by rfl
/-- 95 section 2.1, row `34 12 5A`: the byte order and the nibble order of a token. -/
theorem test_pack : pack 0x1234 5 10 = .ok 0x5A1234 ∧ tokenBytes 0x5A1234 = [0x34, 0x12, 0x5A] := by
  constructor <;> rfl
/-- 95 section 2.2: the chain of 525 is `FF FF 00`. -/
theorem test_escape_chain : escChain 525 = [0xFF, 0xFF, 0x00] ∧ escChain 269 = [0xFE] := by decide

/-! ### Small states -/

/-- A buffer that holds a byte string from index 0 on. -/
def mem (bytes : List Byte) : Memory := (Memory.unspecified 0).writeBytes 0 bytes

/-- DECOMPRESS running on a stream, its output so far given. -/
def decAt (stream out : List Byte) (ip cap : Nat) : State :=
  { State.reset with
    cmd := 2, status := 1, phase := .decBoundary, src := mem stream, dst := mem out
    dec := { Decoder.reset with n := stream.length, cap := cap, ip := ip, op := out.length } }

/-- DECOMPRESS inside an escape chain. -/
def chainAt (stream out : List Byte) (cap : Nat) (off : BitVec 16) (mf : BitVec 4) (chain : ChainKind) : State :=
  let s := decAt stream out 0 cap
  { s with phase := .decChain, dec := { s.dec with off := off, mf := mf, acc := 15, chain := chain } }

/-- COMPRESS running on a source, at a scan position. -/
def encAt (p : Phase) (source : List Byte) (cap r anchor : Nat) : State :=
  { State.reset with
    cmd := 1, status := 1, phase := p, src := mem source, scratch := { cells := [], kind := .cleared, draw := 0 }
    enc := { Encoder.reset with n := source.length, cap := cap, r := r, anchor := anchor } }

/-- The block idle, ready for a command. -/
def readyAt (source : List Byte) (cap : Nat) : State :=
  { State.reset with
    srcLen := source.length, dstCap := cap, src := mem source
    scratch := { cells := [], kind := .cleared, draw := 0 } }

/-- The next state of a step, or the state itself. -/
def after : Nat → State → State
  | 0, s => s
  | k + 1, s =>
    match step s with
    | .next t => after k t
    | .fault _ => s
    | .refused _ => s

/-- What a test looks at: the cursors and the first bytes of DST. -/
def seen (s : State) (k : Nat) : Nat × Nat × List (Option Byte) :=
  (s.dec.ip, s.dec.op, (List.range k).map s.dst.get?)

/-- The results a host reads. -/
def results (s : State) : Nat × Nat × Nat := (s.status, s.result, s.errKind)

/-! ### Single steps -/

/-- PRG1, first sequence. -/
theorem test_step_seq : seen (after 1 (decAt [3, 0, 0x35, 0x61, 0x62, 0x63, 0, 0, 0x10, 0x21] [] 0 13)) 12 =
    (6, 12, [0x61, 0x62, 0x63, 0x61, 0x62, 0x63, 0x61, 0x62, 0x63, 0x61, 0x62, 0x63].map some) := by decide
/-- V17: an offset before the start of DST. -/
theorem test_step_seq_underflow : (after 1 (decAt [2, 0, 0x10, 0x41] [] 0 10)).cause = some .offsetUnderflow := by decide
/-- PRG4's stream: the token only starts the literal chain. -/
theorem test_step_seqLx : (after 1 (decAt [0x15, 0, 0xFC, 7] [] 0 57)).phase = .decChain ∧
    (after 1 (decAt [0x15, 0, 0xFC, 7] [] 0 57)).dec.ip = 3 ∧ (after 1 (decAt [0x15, 0, 0xFC, 7] [] 0 57)).dec.mf = 12 := by decide
/-- PRG2: the literal is copied, then the match chain comes. -/
theorem test_step_seqMx : seen (after 1 (decAt [1, 0, 0x1F, 0xAA, 0xFF] [] 0 4096)) 1 = (4, 1, [some 0xAA]) ∧
    (after 1 (decAt [1, 0, 0x1F, 0xAA, 0xFF] [] 0 4096)).dec.chain = .mtch := by decide
/-- V35: the literal chain comes first. -/
theorem test_step_seqLxMx : (after 1 (decAt [2, 0, 0xFF, 1] [] 0 100)).dec.chain = .literal ∧
    (after 1 (decAt [2, 0, 0xFF, 1] [] 0 100)).dec.acc = 15 := by decide
/-- V2, and what the slack holds after it: nothing specified (rule R34). -/
theorem test_step_end : results (after 1 (decAt [0, 0, 0x30, 0x61, 0x62, 0x63] [] 0 4)) = (2, 3, 0) ∧
    (after 1 (decAt [0, 0, 0x30, 0x61, 0x62, 0x63] [] 0 4)).dst.cells = [(0, 0x61), (1, 0x62), (2, 0x63)] := by decide
/-- V3. -/
theorem test_step_end_overflow : results (after 1 (decAt [0, 0, 0x30, 0x61, 0x62, 0x63] [] 0 2)) = (6, 0xFFFFFFFF, 2) ∧
    (after 1 (decAt [0, 0, 0x30, 0x61, 0x62, 0x63] [] 0 2)).cause = some .dstOverflow := by decide
/-- V12: the chain of an END.LX is missing. -/
theorem test_step_endLx : (after 2 (decAt [0, 0, 0xF0] [] 0 1000)).cause = some .escapeTruncated := by decide
/-- V5. -/
theorem test_step_illEnd0 : (after 1 (decAt [0, 0, 0] [] 0 10)).cause = some .badEnd := by decide
/-- V6. -/
theorem test_step_illEndM : (after 1 (decAt [0, 0, 0x11, 0x41] [] 0 10)).cause = some .badEnd := by decide
/-- 95 section 2.3, row `FF 00`: 15 + 255 after the first byte. -/
theorem test_step_escCont : (after 1 (chainAt [0xFF, 0] [] 300 0 0 .literal)).dec.acc = 270 ∧
    (after 1 (chainAt [0xFF, 0] [] 300 0 0 .literal)).dec.ip = 1 := by decide
/-- A match chain `00` with offset 1 after one `AA`: 19 copies (rule R196), so 20 bytes out. -/
theorem test_step_escTerm : seen (after 1 (chainAt [0] [0xAA] 20 1 15 .mtch)) 20 =
    (1, 20, List.replicate 20 (some 0xAA)) := by decide
/-- 95 section 2.11, step 2. -/
theorem test_step_compress :
    results (after 1 { readyAt [0x61, 0x62, 0x63] 6 with agenda := [.host (.writeReg 0 1)] }) = (1, 0, 0) := by decide
/-- 95 section 2.11, step 3 (vector S3): the stream written. -/
theorem test_step_flush : results (after 1 (encAt .encFlush [0x61, 0x62, 0x63] 6 1 0)) = (2, 6, 0) ∧
    (after 1 (encAt .encFlush [0x61, 0x62, 0x63] 6 1 0)).dst.cells =
      [(0, 0), (1, 0), (2, 0x30), (3, 0x61), (4, 0x62), (5, 0x63)] := by decide
/-- 95 section 2.11, step 7. -/
theorem test_step_decompress :
    results (after 1 { readyAt [0, 0, 0x30, 0x61, 0x62, 0x63] 3 with
      status := 6, result := 0xFFFFFFFF, errKind := 1, agenda := [.host (.writeReg 0 2)] }) = (1, 0, 0) := by decide
/-- 95 section 2.11, step 5: a reserved code clears nothing. -/
theorem test_step_reserved_command :
    results (after 1 { readyAt [] 5 with status := 6, result := 0xFFFFFFFF, errKind := 1, agenda := [.host (.writeReg 0 7)] }) =
      (6, 0xFFFFFFFF, 1) := by decide
/-- S7: 17 equal bytes are one SEQ `01 00 1C AA`. -/
theorem test_step_search : (after 1 (encAt .encSearch (List.replicate 17 0xAA) 100 1 0)).dst.cells =
    [(0, 1), (1, 0), (2, 0x1C), (3, 0xAA)] := by decide
/-- Rules R250 item 4, R255: a SCRATCH the host zeroes by plain writes is launched on like one zeroed as a whole; one byte 1 in it
is not. -/
theorem test_scratch_judged_by_bytes :
    (∀ t : Scratch, t.wf → (t.writeBytes 0 (List.replicate 8192 0)).allZero = true) ∧
    Scratch.allZero ((Scratch.unspecified 0).zero.writeBytes 5 [0]) = true ∧
    Scratch.allZero ((Scratch.unspecified 0).zero.writeBytes 5 [1]) = false := by
  refine ⟨fun t h => ?_, by decide, by decide⟩
  rw [Scratch.allZero_iff (Scratch.wf_writeBytes h (by rw [List.length_replicate]))]
  intro i hi
  have hi' : i < 8192 := hi
  rw [Scratch.get?_writeBytes, if_pos (by rw [List.length_replicate]; omega), List.getElem?_replicate, if_pos (by omega)]
/-- Rule R255: also a COMPRESS that inserted nothing leaves a SCRATCH that must be zeroed again; zeroed, it is accepted. -/
theorem test_relaunch_needs_zeroing :
    ((after 1 (encAt .encFlush [0x61] 4 1 0)).scratch.get? 0 = none) ∧
    (after 1 (encAt .encFlush [0x61] 4 1 0)).scratch.zero.allZero = true ∧
    (∀ i, i < 8 → Scratch.get? (Scratch.lend (Scratch.unspecified 0).zero ⟨100, 8192⟩ ⟨96, 8⟩) i =
      if i < 4 then none else some 0) := by
  refine ⟨?_, rfl, fun i hi => ?_⟩
  · rw [show (after 1 (encAt .encFlush [0x61] 4 1 0)).scratch = (encAt .encFlush [0x61] 4 1 0).scratch.spend from rfl,
      Scratch.get?_spend _ (by decide), if_neg (by rw [Scratch.slot_of_empty rfl rfl]; decide)]
  rw [Scratch.get?_lend _ _ _ (by simp only [scratchBytes]; omega), Scratch.zero_get?]
  exact if_congr (by simp only; omega) rfl rfl
/-- Rule R196: while the match chain is read, `mlen` holds 4 + 15. -/
theorem test_step_match_field : (after 1 (decAt [1, 0, 0x1F, 0xAA, 0xFF] [] 0 4096)).dec.mlen = 19 := by decide
/-- Rule R157: `lit` is written before it is tested. -/
theorem test_step_flush_empty :
    (after 1 { encAt .encFlush [0xAA] 6 1 1 with enc := { (encAt .encFlush [0xAA] 6 1 1).enc with lit := 9 } }).enc.lit = 0 := by
  decide
/-- Rules R30, R58: the bound regions meet, the bytes the command declares do not: it is launched. -/
theorem test_step_compress_shared_region : results (after 1 { readyAt [0x61, 0x62, 0x63] 6 with
    platform := ⟨⟨0, 100⟩, ⟨50, 100⟩, ⟨200, 8192⟩⟩, agenda := [.host (.writeReg 0 1)] }) = (1, 0, 0) := by decide
/-- Rules R12, R13, R222 at another register width: a failure leaves 16 ones in `RESULT`. -/
theorem test_step_width_16 : results (after 1 { decAt [0, 0, 0] [] 0 10 with cfg := { Config.default with lenBits := 16 } }) =
    (6, 0xFFFF, 2) := by decide
/-- 95 section 2.4: the window "ABCDABCD" hashes to 0x2E3. -/
theorem test_hash : hashAt (encAt .encSearch [0x41, 0x42, 0x43, 0x44, 0x41, 0x42, 0x43, 0x44] 100 1 0) 0 = .ok 0x2E3 := by rfl
/-- 95 section 2.6, row "abcdefghijklabcdefghijkX": the word phase stops at byte 7. -/
theorem test_extend : extendWalk (fun i => ([0x61, 0x62, 0x63, 0x64, 0x65, 0x66, 0x67, 0x68, 0x69, 0x6A, 0x6B, 0x6C, 0x61, 0x62, 0x63,
    0x64, 0x65, 0x66, 0x67, 0x68, 0x69, 0x6A, 0x6B, 0x58] : List Byte).getD i 0) 4 16 24 = 23 := by decide
/-- 95 section 2.8: the tiers of MC1, MC4, MC5, MC3 and MC2. -/
theorem test_tiers : tierOf 1 7 7 = .fill ∧ tierOf 20 20 32 = .bulk ∧ tierOf 20 20 31 = .tight ∧ tierOf 3 9 25 = .doubling ∧
    tierOf 3 9 10 = .bytewise := by decide

/-! ### Witnesses: one for the hypotheses of each obligation, each clause at a boundary of its range -/

/-- The default parameters meet rule R6. -/
theorem default_wf : Config.default.wf = true := by decide

/-- A stream byte string in a fresh buffer is in canonical form. -/
theorem mem_wf (bytes : List Byte) : (mem bytes).wf := Memory.wf_writeBytes (Memory.wf_unspecified 0) _ _

/-- Every byte of it is specified. -/
theorem mem_specified (bytes : List Byte) (i : Nat) (h : i < bytes.length) : (mem bytes).get? i ≠ none := by
  rw [mem, Memory.get?_writeBytes, if_pos (by omega)]
  simp [h]

/-- The running decoder of the tests is ready. -/
theorem decAt_ready (stream out : List Byte) (ip cap : Nat) (h1 : ip ≤ stream.length) (h2 : out.length ≤ cap)
    (h3 : cap < 4294967296) : DecoderReady (decAt stream out ip cap) := ⟨h1, h2, h3, fun i hi => mem_specified out i hi⟩

/-- So it is inside a chain. -/
theorem chainAt_ready (stream out : List Byte) (cap : Nat) (off : BitVec 16) (mf : BitVec 4) (c : ChainKind)
    (h2 : out.length ≤ cap) (h3 : cap < 4294967296) : DecoderReady (chainAt stream out cap off mf c) :=
  ⟨Nat.zero_le _, h2, h3, fun i hi => mem_specified out i hi⟩

/-- The registers of a running command of the tests fit. -/
theorem reset_fit {s : State} (h1 : s.cfg = Config.default := by rfl) (h2 : s.srcLen = 0 := by rfl)
    (h3 : s.dstCap = 0 := by rfl) (h4 : s.result = 0 := by rfl) : RegistersFit s := by
  simp [RegistersFit, h1, h2, h3, h4]

/-- The running decoder of the tests meets the invariant. -/
theorem decAt_inv (stream out : List Byte) (ip cap : Nat) (h1 : ip ≤ stream.length) (h2 : out.length ≤ cap)
    (h3 : cap < 4294967296) : Inv (decAt stream out ip cap) :=
  Inv.of_decoding (.inl rfl) default_wf (mem_wf _) (mem_wf _) (Scratch.wf_unspecified 0) ⟨rfl, rfl, rfl⟩ rfl
    (decAt_ready stream out ip cap h1 h2 h3) reset_fit

/-- Every slot of the running encoder of the tests is 0. -/
theorem encAt_slot (p : Phase) (source : List Byte) (cap r anchor : Nat) (h : BitVec 12) :
    (encAt p source cap r anchor).scratch.slot h = 0 := Scratch.slot_of_empty rfl rfl h

/-- The encoder of the tests at its start meets the invariant. -/
theorem encAt_start_inv (source : List Byte) (cap : Nat) (h : cap < 4294967296) : Inv (encAt .encStart source cap 1 0) :=
  Inv.of_encoding (.inl rfl) default_wf (mem_wf _) List.Pairwise.nil ⟨List.Pairwise.nil, fun _ h => absurd h List.not_mem_nil⟩
    ⟨rfl, rfl, rfl⟩ rfl ⟨rfl, rfl, rfl, rfl, h, fun k => by rw [encAt_slot]; exact Nat.one_pos⟩ rfl reset_fit

/-- The encoder of the tests in its search meets the invariant. -/
theorem encAt_search_inv (source : List Byte) (cap r anchor : Nat) (h1 : 1 ≤ r) (h2 : r + 8 ≤ source.length)
    (h3 : source.length ≤ 65536) (h4 : anchor ≤ r) (h : cap < 4294967296) : Inv (encAt .encSearch source cap r anchor) :=
  Inv.of_encoding (.inr (.inl rfl)) default_wf (mem_wf _) List.Pairwise.nil
    ⟨List.Pairwise.nil, fun _ h => absurd h List.not_mem_nil⟩ ⟨rfl, rfl, rfl⟩ rfl
    ⟨h1, h2, h3, h4, Nat.zero_le _, h, fun k => by rw [encAt_slot]; exact h1⟩ rfl reset_fit

/-- The encoder of the tests at FLUSH meets the invariant. -/
theorem encAt_flush_inv (source : List Byte) (cap r anchor : Nat) (h3 : source.length ≤ 65536) (h4 : anchor ≤ source.length)
    (h : cap < 4294967296) : Inv (encAt .encFlush source cap r anchor) :=
  Inv.of_encoding (.inr (.inr rfl)) default_wf (mem_wf _) List.Pairwise.nil
    ⟨List.Pairwise.nil, fun _ h => absurd h List.not_mem_nil⟩ ⟨rfl, rfl, rfl⟩ rfl ⟨h4, h3, Nat.zero_le _, h⟩ rfl reset_fit

/-- The idle block of the tests meets the invariant. -/
theorem readyAt_inv (source : List Byte) (cap : Nat) (h1 : source.length < 4294967296) (h2 : cap < 4294967296) :
    Inv (readyAt source cap) :=
  Inv.of_idle rfl default_wf (mem_wf _) List.Pairwise.nil ⟨List.Pairwise.nil, fun _ h => absurd h List.not_mem_nil⟩
    (.inl ⟨rfl, rfl, rfl⟩) ⟨h1, h2, Nat.two_pow_pos _⟩

theorem test_witness_DecodeInvertsEncode : (Instr.seq 65535 14 14).wf = true ∧ (Instr.seqLx 1 14).wf = true ∧
    (Instr.seqMx 1 0).wf = true ∧ (Instr.seqLxMx 65535).wf = true ∧ (Instr.endTok 14).wf = true ∧ Instr.endLx.wf = true ∧
    Instr.illEnd0.wf = true ∧ (Instr.illEndM 15 15).wf = true ∧ Instr.escCont.wf = true ∧ (Instr.escTerm 254).wf = true ∧
    Instr.compress.wf = true ∧ Instr.decompress.wf = true := by decide

theorem test_witness_EncodeInvertsDecode : decode .token [0x34, 0x12, 0x5A, 7] = .ok (.seq 0x1234 10 5, [7]) ∧
    decode .escape [0xFE] = .ok (.escTerm 0xFE, []) ∧ decode .command [2, 0, 0, 0] = .ok (.decompress, []) := ⟨rfl, rfl, rfl⟩

theorem test_witness_OpcodeTableSelectsOneForm : (0xFE : Byte) ≠ 0xFF := by decide

theorem test_witness_PackAndUnpackAreInverse : (65535 < 65536 ∧ 15 < 16 ∧ 15 < 16) ∧
    ¬(65536 < 65536 ∧ 0 < 16 ∧ 0 < 16) ∧ ¬(0 < 65536 ∧ 16 < 16 ∧ 0 < 16) ∧ ¬(0 < 65536 ∧ 0 < 16 ∧ 16 < 16) := by decide

theorem test_witness_EscapeChainRoundTrips : 15 ≤ 15 ∧ 14 < 15 := by decide

theorem test_witness_SequenceHasOneEncoding : 4 ≤ (Sequence.mk 1 [0x41] 4).mlen ∧
    Sequence.parse [1, 0, 0x10, 0x41, 7] = some (⟨1, [0x41], 4⟩, [7]) := by decide

/-- PRG1's second token, an escape byte, the two ways a turn comes. -/
theorem test_witness_StepRunsDecodedInstruction :
    (let s := decAt [0, 0, 0x10, 0x21] [] 0 13
     s.agenda = [] ∧ s.phase = .decBoundary ∧ s.dec.ip + 3 ≤ s.dec.n ∧
       decode .token (bytesFrom s.srcByte s.dec.ip 3) = .ok (.endTok 1, [])) ∧
    (let s := chainAt [0xFF] [] 13 0 0 .literal
     s.agenda = [] ∧ s.phase = .decChain ∧ s.dec.ip + 1 ≤ s.dec.n ∧
       decode .escape (bytesFrom s.srcByte s.dec.ip 1) = .ok (.escCont, [])) ∧
    (decodeCommand (Config.default.fit 1) = some .compress ∧ decodeCommand (Config.default.fit 2) = some .decompress) ∧
    (∃ s : State, s.agenda = [.host (.writeReg 0 2)]) ∧
    (let s := { decAt [0, 0, 0x10, 0x21] [] 0 13 with agenda := [.engine] }
     s.agenda = [.engine] ∧ s.phase = .decBoundary ∧ s.dec.ip + 3 ≤ s.dec.n ∧
       decode .token (bytesFrom s.srcByte s.dec.ip 3) = .ok (.endTok 1, [])) ∧
    (let s := { chainAt [0xFE] [] 13 0 0 .literal with agenda := [.engine] }
     s.agenda = [.engine] ∧ s.phase = .decChain ∧ s.dec.ip + 1 ≤ s.dec.n ∧
       decode .escape (bytesFrom s.srcByte s.dec.ip 1) = .ok (.escTerm 0xFE, [])) :=
  ⟨⟨rfl, rfl, by decide, rfl⟩, ⟨rfl, rfl, by decide, rfl⟩, by decide,
    ⟨{ State.reset with agenda := [.host (.writeReg 0 2)] }, rfl⟩, ⟨rfl, rfl, by decide, rfl⟩, rfl, rfl, by decide, rfl⟩

theorem test_witness_FetchWordPlacesInstruction : State.reset.cfg.wf = true ∧ decodeTableWord 24 0x130001 = some (.seq 1 3 1) ∧
    decodeTableWord 8 0xFF = some .escCont ∧ decodeTableWord 32 1 = some .compress := by decide

/-- PRG1's first sequence with exactly the bytes, the room and the output it needs. -/
theorem test_witness_SeqExecutes : DecoderReady (decAt [3, 0, 0x35, 0x61, 0x62, 0x63] [] 0 12) ∧
    (let s := decAt [3, 0, 0x35, 0x61, 0x62, 0x63] [] 0 12
     s.dec.ip + 3 + 3 ≤ s.dec.n ∧ s.dec.op + 3 + (4 + 5) ≤ s.dec.cap ∧ 3 ≤ s.dec.op + 3) :=
  ⟨decAt_ready _ _ _ _ (by decide) (by decide) (by decide), by decide⟩

/-- A literal that is not there and one without room, after a token with a match chain; V32, a literal without room, V17, V22. -/
theorem test_witness_SeqFailsInTestOrder :
    (DecoderReady (decAt [1, 0, 0x1F] [] 0 100) ∧
      (let s := decAt [1, 0, 0x1F] [] 0 100
       s.dec.ip + 3 ≤ s.dec.n ∧ (1 : BitVec 4) ≠ 15 ∧ s.dec.n - (s.dec.ip + 3) < (1 : BitVec 4).toNat)) ∧
    (DecoderReady (decAt [0, 0, 0x1F, 0x41] [] 0 0) ∧
      (let s := decAt [0, 0, 0x1F, 0x41] [] 0 0
       s.dec.ip + 3 ≤ s.dec.n ∧ (1 : BitVec 4).toNat ≤ s.dec.n - (s.dec.ip + 3) ∧
         s.dec.cap - s.dec.op < (1 : BitVec 4).toNat)) ∧
    (DecoderReady (decAt [1, 0, 0x1C] [] 0 100) ∧ (decAt [1, 0, 0x1C] [] 0 100).dec.n - (0 + 3) < 1) ∧
    (DecoderReady (decAt [1, 0, 0x13, 0x41] [] 0 0) ∧
      (let s := decAt [1, 0, 0x13, 0x41] [] 0 0
       1 ≤ s.dec.n - (s.dec.ip + 3) ∧ s.dec.cap - s.dec.op < 1)) ∧
    (DecoderReady (decAt [2, 0, 0x10, 0x41] [] 0 10) ∧
      (let s := decAt [2, 0, 0x10, 0x41] [] 0 10
       1 ≤ s.dec.n - (s.dec.ip + 3) ∧ 1 ≤ s.dec.cap - s.dec.op ∧ s.dec.op + 1 < 2)) ∧
    (DecoderReady (decAt [1, 0, 0x13, 0x41] [] 0 7) ∧
      (let s := decAt [1, 0, 0x13, 0x41] [] 0 7
       1 ≤ s.dec.n - (s.dec.ip + 3) ∧ 1 ≤ s.dec.cap - s.dec.op ∧ 1 ≤ s.dec.op + 1 ∧ s.dec.cap - (s.dec.op + 1) < 4 + 3)) :=
  ⟨⟨decAt_ready _ _ _ _ (by decide) (by decide) (by decide), by decide⟩,
    ⟨decAt_ready _ _ _ _ (by decide) (by decide) (by decide), by decide⟩,
    ⟨decAt_ready _ _ _ _ (by decide) (by decide) (by decide), by decide⟩,
    ⟨decAt_ready _ _ _ _ (by decide) (by decide) (by decide), by decide⟩,
    ⟨decAt_ready _ _ _ _ (by decide) (by decide) (by decide), by decide⟩,
    decAt_ready _ _ _ _ (by decide) (by decide) (by decide), by decide⟩

/-- PRG2's token with no room to spare. -/
theorem test_witness_SaturatedMatchStartsChainAfterLiterals : DecoderReady (decAt [1, 0, 0x1F, 0xAA] [] 0 1) ∧
    (let s := decAt [1, 0, 0x1F, 0xAA] [] 0 1
     s.dec.ip + 3 + 1 ≤ s.dec.n ∧ s.dec.op + 1 ≤ s.dec.cap) :=
  ⟨decAt_ready _ _ _ _ (by decide) (by decide) (by decide), by decide⟩

/-- V2 and V4. -/
theorem test_witness_EndCompletesCommand : DecoderReady (decAt [0, 0, 0x10, 0x41] [] 0 1) ∧
    (let s := decAt [0, 0, 0x10, 0x41] [] 0 1
     s.dec.ip + 3 + 1 = s.dec.n ∧ s.dec.op + 1 ≤ s.dec.cap) :=
  ⟨decAt_ready _ _ _ _ (by decide) (by decide) (by decide), by decide⟩

/-- V5; V15; an END without room; V9. -/
theorem test_witness_IllegalEndsFail :
    (DecoderReady (decAt [0, 0, 0] [] 0 10) ∧ (decAt [0, 0, 0] [] 0 10).dec.ip + 3 ≤ (decAt [0, 0, 0] [] 0 10).dec.n) ∧
    (DecoderReady (decAt [0, 0, 0x30, 0x61, 0x62] [] 0 10) ∧ (decAt [0, 0, 0x30, 0x61, 0x62] [] 0 10).dec.n - (0 + 3) < 3) ∧
    (DecoderReady (decAt [0, 0, 0x10, 0x41] [] 0 0) ∧
      (let s := decAt [0, 0, 0x10, 0x41] [] 0 0
       1 ≤ s.dec.n - (s.dec.ip + 3) ∧ s.dec.cap - s.dec.op < 1)) ∧
    (DecoderReady (decAt [0, 0, 0x10, 0x41, 0] [] 0 10) ∧
      (let s := decAt [0, 0, 0x10, 0x41, 0] [] 0 10
       1 < s.dec.n - (s.dec.ip + 3) ∧ 1 ≤ s.dec.cap - s.dec.op)) :=
  ⟨⟨decAt_ready _ _ _ _ (by decide) (by decide) (by decide), by decide⟩,
    ⟨decAt_ready _ _ _ _ (by decide) (by decide) (by decide), by decide⟩,
    ⟨decAt_ready _ _ _ _ (by decide) (by decide) (by decide), by decide⟩,
    decAt_ready _ _ _ _ (by decide) (by decide) (by decide), by decide⟩

/-- The chain `00` (15 literals) of a SEQ with offset 15, the smallest length and the largest offset it allows. -/
theorem test_witness_EscTermFinishesLiteralChainOfSeq :
    DecoderReady (chainAt (0 :: List.replicate 15 0x41) [] 19 15 0 .literal) ∧
    (let s := chainAt (0 :: List.replicate 15 0x41) [] 19 15 0 .literal
     s.dec.chain = .literal ∧ s.dec.off ≠ 0 ∧ s.dec.mf ≠ 15 ∧ s.dec.ip + 1 + (s.dec.acc + 0) ≤ s.dec.n ∧
       s.dec.op + (s.dec.acc + 0) + (4 + s.dec.mf.toNat) ≤ s.dec.cap ∧ s.dec.off.toNat ≤ s.dec.op + (s.dec.acc + 0)) :=
  ⟨chainAt_ready _ _ _ _ _ _ (by decide) (by decide), by decide⟩

/-- V27 without its token. -/
theorem test_witness_EscTermFinishesLiteralChainOfEnd :
    DecoderReady (chainAt (0 :: List.replicate 15 0x41) [] 15 0 0 .literal) ∧
    (let s := chainAt (0 :: List.replicate 15 0x41) [] 15 0 0 .literal
     s.dec.chain = .literal ∧ s.dec.off = 0 ∧ s.dec.mf = 0 ∧ 0 < s.dec.acc + 0 ∧
       s.dec.ip + 1 + (s.dec.acc + 0) = s.dec.n ∧ s.dec.op + (s.dec.acc + 0) ≤ s.dec.cap) :=
  ⟨chainAt_ready _ _ _ _ _ _ (by decide) (by decide), by decide⟩

theorem test_witness_EscTermStartsMatchChain :
    DecoderReady (chainAt (0 :: List.replicate 15 0x41) [] 15 2 15 .literal) ∧
    (let s := chainAt (0 :: List.replicate 15 0x41) [] 15 2 15 .literal
     s.dec.chain = .literal ∧ s.dec.mf = 15 ∧ s.dec.ip + 1 + (s.dec.acc + 0) ≤ s.dec.n ∧
       s.dec.op + (s.dec.acc + 0) ≤ s.dec.cap) :=
  ⟨chainAt_ready _ _ _ _ _ _ (by decide) (by decide), by decide⟩

theorem test_witness_EscTermFinishesMatchChain :
    DecoderReady (chainAt [0] [0xAA] 20 1 15 .mtch) ∧
    (let s := chainAt [0] [0xAA] 20 1 15 .mtch
     s.dec.chain = .mtch ∧ s.dec.off ≠ 0 ∧ s.dec.off.toNat ≤ s.dec.op ∧ s.dec.op + (4 + (s.dec.acc + 0)) ≤ s.dec.cap) :=
  ⟨chainAt_ready _ _ _ _ _ _ (by decide) (by decide), by decide⟩

/-- The eight tests, each failed by one byte: two room tests, three ways an END fails and the two of a SEQ after a literal chain,
and the three after a match chain (V7 the first of them). -/
theorem test_witness_EscTermFailsInTestOrder :
    (let s := chainAt (0 :: List.replicate 14 0x41) [] 15 0 0 .literal
     DecoderReady s ∧ s.dec.ip + 1 ≤ s.dec.n ∧ s.dec.n - (s.dec.ip + 1) < s.dec.acc + 0) ∧
    (let s := chainAt (0 :: List.replicate 15 0x41) [] 14 0 0 .literal
     DecoderReady s ∧ s.dec.acc + 0 ≤ s.dec.n - (s.dec.ip + 1) ∧ s.dec.cap - s.dec.op < s.dec.acc + 0) ∧
    (let s := chainAt (0 :: List.replicate 15 0x41) [] 15 0 1 .literal
     DecoderReady s ∧ s.dec.acc + 0 ≤ s.dec.n - (s.dec.ip + 1) ∧ s.dec.acc + 0 ≤ s.dec.cap - s.dec.op ∧ s.dec.off = 0 ∧
       s.dec.mf ≠ 15 ∧ s.dec.mf ≠ 0) ∧
    (let s := chainAt (0 :: List.replicate 16 0x41) [] 15 0 0 .literal
     DecoderReady s ∧ s.dec.acc + 0 ≤ s.dec.n - (s.dec.ip + 1) ∧ s.dec.acc + 0 ≤ s.dec.cap - s.dec.op ∧ s.dec.off = 0 ∧
       s.dec.acc + 0 ≠ s.dec.n - (s.dec.ip + 1)) ∧
    (let s := chainAt (0 :: List.replicate 15 0x41) [] 19 16 0 .literal
     DecoderReady s ∧ s.dec.acc + 0 ≤ s.dec.n - (s.dec.ip + 1) ∧ s.dec.acc + 0 ≤ s.dec.cap - s.dec.op ∧ s.dec.mf ≠ 15 ∧
       s.dec.op + (s.dec.acc + 0) < s.dec.off.toNat) ∧
    (let s := chainAt (0 :: List.replicate 15 0x41) [] 18 15 0 .literal
     DecoderReady s ∧ s.dec.acc + 0 ≤ s.dec.n - (s.dec.ip + 1) ∧ s.dec.acc + 0 ≤ s.dec.cap - s.dec.op ∧ s.dec.off ≠ 0 ∧
       s.dec.off.toNat ≤ s.dec.op + (s.dec.acc + 0) ∧ s.dec.cap - (s.dec.op + (s.dec.acc + 0)) < 4 + s.dec.mf.toNat) ∧
    (let s := chainAt [0] [0x41] 10 0 15 .mtch
     DecoderReady s ∧ s.dec.chain = .mtch ∧ s.dec.off = 0 ∧ s.dec.mf = 15) ∧
    (let s := chainAt [0] [0x41] 20 2 15 .mtch
     DecoderReady s ∧ s.dec.chain = .mtch ∧ s.dec.op < s.dec.off.toNat) ∧
    (let s := chainAt [0] [0x41] 19 1 15 .mtch
     DecoderReady s ∧ s.dec.chain = .mtch ∧ s.dec.off ≠ 0 ∧ s.dec.off.toNat ≤ s.dec.op ∧
       s.dec.cap - s.dec.op < 4 + (s.dec.acc + 0)) := by
  refine ⟨⟨?_, by decide⟩, ⟨?_, by decide⟩, ⟨?_, by decide⟩, ⟨?_, by decide⟩, ⟨?_, by decide⟩, ⟨?_, by decide⟩,
    ⟨?_, by decide⟩, ⟨?_, by decide⟩, ?_, by decide⟩ <;>
  exact chainAt_ready _ _ _ _ _ _ (by decide) (by decide)

theorem test_witness_ChainOfFullBytesAccumulates :
    (let s := chainAt [0xFF, 0xFF] [] 10 0 0 .literal
     s.agenda = [] ∧ s.phase = .decChain ∧ s.dec.ip + 2 ≤ s.dec.n ∧ ∀ i, i < 2 → s.srcByte (s.dec.ip + i) = 255) := by decide

/-- V10 and V1. -/
theorem test_witness_EndTestAtSequenceBoundary :
    (let s := decAt [0, 0] [] 0 10
     s.agenda = [] ∧ s.phase = .decBoundary ∧ s.dec.n - s.dec.ip < 3 ∧ s.dec.ip ≠ s.dec.n) ∧
    (let s := decAt [] [] 0 0
     s.agenda = [] ∧ s.phase = .decBoundary ∧ s.dec.n - s.dec.ip < 3 ∧ s.dec.ip = s.dec.n) := by decide

/-- Launch requirements of both commands. -/
theorem readyAt_launch (source : List Byte) (cap : Nat) (h1 : source.length ≤ 4294967296) (h2 : cap ≤ 4294967296) :
    CompressLaunch (readyAt source cap) ∧ DecompressLaunch (readyAt source cap) := by
  have h0 : (readyAt source cap).busy = false := by simp [State.busy, readyAt, State.reset]
  have h3 : ¬ (readyAt source cap).srcUsed.meets (readyAt source cap).dstUsed := by
    rintro ⟨a, ⟨-, x⟩, y, -⟩
    simp only [State.srcUsed, State.dstUsed, readyAt, State.reset, Platform.default] at x y
    omega
  have h4 : ¬ (readyAt source cap).srcUsed.meets (readyAt source cap).scratchUsed := by
    rintro ⟨a, ⟨-, x⟩, y, -⟩
    simp only [State.srcUsed, State.scratchUsed, readyAt, State.reset, Platform.default] at x y
    omega
  have h5 : ¬ (readyAt source cap).dstUsed.meets (readyAt source cap).scratchUsed := by
    rintro ⟨a, ⟨-, x⟩, y, -⟩
    simp only [State.dstUsed, State.scratchUsed, readyAt, State.reset, Platform.default] at x y
    omega
  exact ⟨⟨h0, ⟨List.Pairwise.nil, fun _ h => absurd h List.not_mem_nil⟩, fun _ _ => rfl, h1, h2, Nat.le_refl 8192,
    h3, h4, h5⟩, ⟨h0, h1, h2, h3⟩⟩

theorem test_witness_EmptyStreamDecodesToNothing :
    DecompressLaunch (readyAt [] 0) ∧ (readyAt [] 0).agenda = [] ∧ (readyAt [] 0).srcLen = 0 := ⟨(readyAt_launch _ _ (by decide) (by decide)).2, rfl, rfl⟩

/-- V14 after its token. -/
theorem test_witness_TruncatedChainFails :
    (let s := chainAt [] [0x41] 1000 1 15 .mtch
     s.agenda = [] ∧ s.phase = .decChain ∧ s.dec.n ≤ s.dec.ip) := by decide

/-- The shortest SEQ with a match chain, in exactly the room it needs. -/
theorem test_witness_WholeSequenceRuns :
    DecoderReady (decAt [1, 0, 0x1F, 0x41, 0] [] 0 20) ∧
    (let s := decAt [1, 0, 0x1F, 0x41, 0] [] 0 20
     let q : Sequence := ⟨1, [0x41], 19⟩
     s.agenda = [] ∧ s.phase = .decBoundary ∧ q.off ≠ 0 ∧ 4 ≤ q.mlen ∧ s.dec.ip + q.encode.length ≤ s.dec.n ∧
       (∀ i, i < q.encode.length → some (s.srcByte (s.dec.ip + i)) = q.encode[i]?) ∧
       s.dec.op + q.literals.length + q.mlen ≤ s.dec.cap ∧ q.off.toNat ≤ s.dec.op + q.literals.length) :=
  ⟨decAt_ready _ _ _ _ (by decide) (by decide) (by decide), by decide⟩

/-- V4. -/
theorem test_witness_WholeEndRuns :
    DecoderReady (decAt [0, 0, 0x10, 0x41] [] 0 1) ∧
    (let s := decAt [0, 0, 0x10, 0x41] [] 0 1
     let q : Sequence := ⟨0, [0x41], 4⟩
     s.agenda = [] ∧ s.phase = .decBoundary ∧ q.off = 0 ∧ q.mlen = 4 ∧ q.literals ≠ [] ∧
       s.dec.ip + q.encode.length = s.dec.n ∧ (∀ i, i < q.encode.length → some (s.srcByte (s.dec.ip + i)) = q.encode[i]?) ∧
       s.dec.op + q.literals.length ≤ s.dec.cap) :=
  ⟨decAt_ready _ _ _ _ (by decide) (by decide) (by decide), by decide⟩

theorem test_witness_CompressStarts : CompressLaunch (readyAt [0x61, 0x62, 0x63] 6) := (readyAt_launch _ _ (by decide) (by decide)).1

theorem test_witness_DecompressStarts : DecompressLaunch (readyAt [0, 0, 0x30, 0x61, 0x62, 0x63] 3) := (readyAt_launch _ _ (by decide) (by decide)).2

/-- A SCRATCH nothing has zeroed, and one with a single byte 1; SRC and DST declared one byte into each other; SCRATCH one byte
short, SRC one byte short, DST one byte short. -/
theorem test_witness_LaunchWithoutPremisesRefused :
    (State.reset.busy = false ∧ State.reset.scratch.wf ∧ State.reset.scratch.get? 8191 ≠ some 0) ∧
    (let t : Scratch := { cells := [(8191, 1)], kind := .cleared, draw := 0 }
     t.wf ∧ t.get? 8191 ≠ some 0) ∧
    (let s := { readyAt (List.replicate 10 0) 10 with platform := ⟨⟨0, 10⟩, ⟨9, 10⟩, ⟨100, 8192⟩⟩ }
     s.busy = false ∧ s.scratch.wf ∧ (∀ i, i < 8192 → s.scratch.get? i = some 0) ∧ s.srcUsed.meets s.dstUsed) ∧
    (let s := { readyAt [] 0 with platform := ⟨⟨0, 10⟩, ⟨9, 10⟩, ⟨100, 8191⟩⟩ }
     s.busy = false ∧ s.disjointForCompress = true ∧ s.platform.scratch.size < 8192) ∧
    (let s := { readyAt [1] 10 with platform := ⟨⟨0, 0⟩, ⟨10, 10⟩, ⟨100, 8192⟩⟩ }
     s.busy = false ∧ ¬ s.srcUsed.meets s.dstUsed ∧ s.platform.src.size < s.srcLen) ∧
    (let s := { readyAt [] 11 with platform := ⟨⟨0, 10⟩, ⟨10, 10⟩, ⟨100, 8192⟩⟩ }
     s.busy = false ∧ ¬ s.srcUsed.meets s.dstUsed ∧ s.platform.dst.size < s.dstCap) := by
  refine ⟨⟨rfl, Scratch.wf_unspecified 0, by decide⟩, ⟨by decide, by decide⟩,
    ⟨rfl, ⟨List.Pairwise.nil, fun _ h => absurd h List.not_mem_nil⟩, fun _ _ => rfl, ⟨9, by decide, by decide⟩⟩,
    by decide, ⟨rfl, ?_, by decide⟩, rfl, ?_, by decide⟩ <;>
  · rw [← Extent.disjoint_iff]; decide

/-- Two regions that share addresses (a load into SRC lands in DST too), the edge of the bound memory, and one byte past it. -/
theorem test_witness_IdleBufferMoves :
    (let s := { readyAt [] 0 with platform := ⟨⟨0, 10⟩, ⟨9, 10⟩, ⟨100, 8192⟩⟩, agenda := [.host (.load .src 8 [1, 2])] }
     s.busy = false ∧ s.agenda = [.host (.load .src 8 [1, 2])] ∧ 8 + 2 ≤ (s.platform.extent .src).size) ∧
    (let s := { readyAt [] 0 with platform := ⟨⟨0, 10⟩, ⟨9, 10⟩, ⟨100, 8192⟩⟩, agenda := [.host (.load .src 9 [1, 2])] }
     s.busy = false ∧ s.agenda = [.host (.load .src 9 [1, 2])] ∧ (s.platform.extent .src).size < 9 + 2) ∧
    (let s := { State.reset with agenda := [.host .zeroScratch] }
     s.busy = false ∧ s.agenda = [.host .zeroScratch] ∧ 8192 ≤ s.platform.scratch.size) ∧
    (let s := { State.reset with agenda := [.host .zeroScratch], platform := ⟨⟨0, 10⟩, ⟨9, 10⟩, ⟨100, 8191⟩⟩ }
     s.busy = false ∧ s.agenda = [.host .zeroScratch] ∧ s.platform.scratch.size < 8192) ∧
    (let s := { State.reset with agenda := [.host (.bind Platform.default)] }
     s.busy = false ∧ s.agenda = [.host (.bind Platform.default)]) := by decide

theorem test_witness_IgnoredRegisterWrites :
    (let s := { decAt [] [] 0 0 with agenda := [.host (.writeReg 2 7)] }
     s.agenda = [.host (.writeReg 2 7)] ∧ 2 ≤ 5 ∧ s.busy = true) ∧
    (let s := { State.reset with agenda := [.host (.writeReg 0 3)] }
     s.agenda = [.host (.writeReg 0 3)] ∧ s.cfg.fit 3 ≠ 1 ∧ s.cfg.fit 3 ≠ 2) := by decide

theorem test_witness_HostRegisterAccess :
    (let s := { State.reset with agenda := [.host (.writeReg 1 0xFFFFFFFF)] }
     s.agenda = [.host (.writeReg 1 0xFFFFFFFF)] ∧ s.busy = false) ∧
    (let s := { State.reset with agenda := [.host (.writeReg 2 0xFFFFFFFF)] }
     s.agenda = [.host (.writeReg 2 0xFFFFFFFF)] ∧ s.busy = false) ∧
    (let s := { State.reset with agenda := [.host (.writeReg 5 0xFFFFFFFF)] }
     s.agenda = [.host (.writeReg 5 0xFFFFFFFF)] ∧ s.busy = false) := by decide

theorem test_witness_LentBuffersCannotBeWritten :
    (let s := { decAt [] [] 0 0 with agenda := [.host (.load .src 0 [])] }
     s.busy = true ∧ s.agenda = [.host (.load .src 0 [])]) ∧
    (let s := { decAt [] [] 0 0 with agenda := [.host .zeroScratch] }
     s.busy = true ∧ s.agenda = [.host .zeroScratch]) ∧
    (let s := { decAt [] [] 0 0 with agenda := [.host (.bind Platform.default)] }
     s.busy = true ∧ s.agenda = [.host (.bind Platform.default)]) := by decide

/-- Reset of an idle block, of a running encoder, of a running decoder. -/
theorem test_witness_ResetAbandonsCommand :
    (let s := { readyAt [0x61] 6 with agenda := [.host .reset] }
     Inv s ∧ s.agenda = [.host .reset] ∧ s.busy = false) ∧
    (let s := { encAt .encStart [0x61] 6 1 0 with agenda := [.host .reset] }
     Inv s ∧ s.agenda = [.host .reset] ∧ s.encoding) ∧
    (let s := { decAt [0, 0, 0] [0x61] 0 6 with agenda := [.host .reset] }
     Inv s ∧ s.agenda = [.host .reset] ∧ s.decoding) :=
  ⟨⟨(readyAt_inv _ _ (by decide) (by decide)).of_agenda _, rfl, by decide⟩, ⟨(encAt_start_inv _ _ (by decide)).of_agenda _, rfl, .inl rfl⟩,
    (decAt_inv _ _ _ _ (by decide) (by decide) (by decide)).of_agenda _, rfl, .inl rfl⟩

/-- V1: the end test answers a next state. -/
theorem test_witness_StepKeepsInvariant : ∃ s t : State, Inv s ∧ step s = .next t :=
  ⟨decAt [] [] 0 0, complete (decAt [] [] 0 0) 0 0, decAt_inv _ _ _ _ (by decide) (by decide) (by decide), rfl⟩

theorem test_witness_NoStepLeavesItsBounds : Inv (decAt [1, 0, 0] [] 0 0) ∧ (decAt [1, 0, 0] [] 0 0).agenda = [] ∧
    (4 < 16 ∧ 16 ≤ 24 ∧ ∀ i, i < 24 → (fun i => BitVec.ofNat 8 i : Nat → Byte) i = (fun i => BitVec.ofNat 8 (i % 24)) i) :=
  ⟨decAt_inv _ _ _ _ (by decide) (by decide) (by decide), rfl, by decide⟩

theorem test_witness_StatusFlagsAgree : Inv { readyAt [] 0 with status := 6, result := 0xFFFFFFFF, errKind := 2 } :=
  Inv.of_idle rfl (by decide) (mem_wf _) List.Pairwise.nil ⟨List.Pairwise.nil, fun _ h => absurd h List.not_mem_nil⟩
    (.inr (.inr ⟨rfl, rfl, .inr rfl⟩)) ⟨by decide, by decide, by decide⟩

/-- V1 ends in success; a source that is too long and V5 end in failure. -/
theorem test_witness_CommandsEndInDone :
    (∃ t, Inv (decAt [] [] 0 0) ∧ (decAt [] [] 0 0).phase ≠ .idle ∧ step (decAt [] [] 0 0) = .next t ∧ t.phase = .idle ∧
      t.status = 2) ∧
    (∃ t, Inv (encAt .encFlush [0x61] 3 1 0) ∧ (encAt .encFlush [0x61] 3 1 0).encoding ∧
      step (encAt .encFlush [0x61] 3 1 0) = .next t ∧ t.phase = .idle ∧ t.status = 6) ∧
    (∃ t, Inv (decAt [0, 0, 0] [] 0 10) ∧ (decAt [0, 0, 0] [] 0 10).decoding ∧ step (decAt [0, 0, 0] [] 0 10) = .next t ∧
      t.phase = .idle ∧ t.status = 6) :=
  ⟨⟨_, decAt_inv _ _ _ _ (by decide) (by decide) (by decide), by decide, rfl, rfl, rfl⟩,
    ⟨_, encAt_flush_inv _ _ _ _ (by decide) (by decide) (by decide), .inr (.inr rfl), rfl, rfl, rfl⟩,
    _, decAt_inv _ _ _ _ (by decide) (by decide) (by decide), .inl rfl, rfl, rfl, rfl⟩

/-- V1 succeeds, V5 fails. -/
theorem test_witness_NoPartialSuccess :
    (∃ t, Inv (decAt [] [] 0 0) ∧ (decAt [] [] 0 0).decoding ∧ step (decAt [] [] 0 0) = .next t ∧ t.phase = .idle) ∧
    (∃ t, Inv (decAt [0, 0, 0] [] 0 10) ∧ (decAt [0, 0, 0] [] 0 10).decoding ∧ step (decAt [0, 0, 0] [] 0 10) = .next t ∧
      t.phase = .idle) :=
  ⟨⟨_, decAt_inv _ _ _ _ (by decide) (by decide) (by decide), .inl rfl, rfl, rfl⟩,
    _, decAt_inv _ _ _ _ (by decide) (by decide) (by decide), .inl rfl, rfl, rfl⟩

theorem test_witness_EnginesStayInTheirBuffers :
    (∃ t, Inv (encAt .encStart [] 0 1 0) ∧ (encAt .encStart [] 0 1 0).agenda = [] ∧
      step (encAt .encStart [] 0 1 0) = .next t ∧ (encAt .encStart [] 0 1 0).encoding) ∧
    (∃ t, Inv (decAt [] [] 0 0) ∧ (decAt [] [] 0 0).agenda = [] ∧ step (decAt [] [] 0 0) = .next t ∧
      (decAt [] [] 0 0).decoding) ∧
    (∃ t, Inv (readyAt [] 0) ∧ (readyAt [] 0).agenda = [] ∧ step (readyAt [] 0) = .next t ∧ (readyAt [] 0).phase = .idle) :=
  ⟨⟨_, encAt_start_inv _ _ (by decide), rfl, rfl, .inl rfl⟩,
    ⟨_, decAt_inv _ _ _ _ (by decide) (by decide) (by decide), rfl, rfl, .inl rfl⟩, _, readyAt_inv _ _ (by decide) (by decide), rfl, rfl, rfl⟩

theorem test_witness_DecompressAlwaysCompletes : Inv (decAt [0xFF, 0xFF, 0xFF] [] 0 100) ∧
    (decAt [0xFF, 0xFF, 0xFF] [] 0 100).agenda = [] ∧ (decAt [0xFF, 0xFF, 0xFF] [] 0 100).decoding :=
  ⟨decAt_inv _ _ _ _ (by decide) (by decide) (by decide), rfl, .inl rfl⟩

theorem test_witness_CompressAlwaysCompletes : Inv (encAt .encStart (List.replicate 17 0xAA) 100 1 0) ∧
    (encAt .encStart (List.replicate 17 0xAA) 100 1 0).agenda = [] ∧ (encAt .encStart (List.replicate 17 0xAA) 100 1 0).encoding :=
  ⟨encAt_start_inv _ _ (by decide), rfl, .inl rfl⟩

theorem test_witness_HashIsTopBitsOfProduct : 0 + 8 ≤ (encAt .encSearch (List.replicate 8 0xAA) 100 1 0).enc.n := by decide

theorem test_witness_LookupInsertReadsThenInserts : (65535 < 65536 ∧ (1 : BitVec 12) ≠ 0) ∧
    Inv (encAt .encSearch (List.replicate 17 0xAA) 100 1 0) ∧ (encAt .encSearch (List.replicate 17 0xAA) 100 1 0).phase = .encSearch :=
  ⟨by decide, encAt_search_inv _ _ _ _ (by decide) (by decide) (by decide) (by decide) (by decide), rfl⟩

theorem test_witness_ExtendFindsFirstMismatch : 4 < 8 ∧ 8 ≤ 8 := by decide

/-- An offset equal to the output so far, and room for exactly the run. -/
theorem test_witness_MatchCopyIsPeriodic : (1 ≤ 3 ∧ 3 ≤ 3) ∧
    (let u := decAt [] [0x61, 0x62, 0x63] 0 12
     let s := { u with dec := { u.dec with off := 3, mlen := 9 } }
     1 ≤ s.dec.off.toNat ∧ s.dec.off.toNat ≤ s.dec.op ∧ s.dec.mlen ≤ s.dec.cap - s.dec.op ∧ s.dec.op ≤ s.dec.cap) := by decide

/-- MC1 to MC5, one for each tier. -/
theorem test_witness_TiersHaveReferenceEffect :
    (1 ≤ 1 ∧ 1 ≤ 1 ∧ 1 + 7 ≤ 8 ∧ tierOf 1 7 (8 - 1) = .fill) ∧ (1 ≤ 3 ∧ 3 ≤ 3 ∧ 3 + 9 ≤ 13 ∧ tierOf 3 9 (13 - 3) = .bytewise) ∧
    (1 ≤ 3 ∧ 3 ≤ 3 ∧ 3 + 9 ≤ 28 ∧ tierOf 3 9 (28 - 3) = .doubling) ∧
    (1 ≤ 20 ∧ 20 ≤ 20 ∧ 20 + 20 ≤ 52 ∧ tierOf 20 20 (52 - 20) = .bulk) ∧
    (1 ≤ 20 ∧ 20 ≤ 20 ∧ 20 + 20 ≤ 51 ∧ tierOf 20 20 (51 - 20) = .tight) := by decide

/-- LC3 and LC5. -/
theorem test_witness_LiteralBurstsHaveReferenceEffect : (4 + 20 ≤ 33 ∧ 0 + 20 ≤ 52) ∧ (0 + 5 ≤ 64 ∧ 3 + 5 ≤ 8) := by decide

/-- S14, S6 and S7: 65537, 16 and 17 bytes. -/
theorem test_witness_EncoderEntryTests :
    (let s := encAt .encStart [] 0 1 0
     let t := { s with enc := { s.enc with n := 65537 } }
     t.agenda = [] ∧ t.phase = .encStart ∧ 65536 < t.enc.n) ∧
    (let s := encAt .encStart (List.replicate 16 0xAA) 0 1 0
     s.agenda = [] ∧ s.phase = .encStart ∧ s.enc.n ≤ 65536 ∧ s.enc.n < s.enc.r + s.cfg.searchTail) ∧
    (let s := encAt .encStart (List.replicate 17 0xAA) 0 1 0
     s.agenda = [] ∧ s.phase = .encStart ∧ s.enc.n ≤ 65536 ∧ s.enc.r + s.cfg.searchTail ≤ s.enc.n) := by decide

/-- PRG5's source: "ABCD" eight times, then `30 .. 3F`. -/
def prg5 : List Byte :=
  [0x41, 0x42, 0x43, 0x44, 0x41, 0x42, 0x43, 0x44, 0x41, 0x42, 0x43, 0x44, 0x41, 0x42, 0x43, 0x44] ++
  [0x41, 0x42, 0x43, 0x44, 0x41, 0x42, 0x43, 0x44, 0x41, 0x42, 0x43, 0x44, 0x41, 0x42, 0x43, 0x44] ++
  [0x30, 0x31, 0x32, 0x33, 0x34, 0x35, 0x36, 0x37, 0x38, 0x39, 0x3A, 0x3B, 0x3C, 0x3D, 0x3E, 0x3F]

/-- PRG5, step 1: the slot 0x580 holds 0, and the candidate differs in its first byte. -/
theorem test_witness_MissAdvancesByAcceleratingStep :
    (let s := encAt .encSearch prg5 100 1 0
     Inv s ∧ s.agenda = [] ∧ s.phase = .encSearch ∧ SearchSlotIs s 0x580 0 ∧ s.srcByte (0 + 0) ≠ s.srcByte (s.enc.r + 0)) :=
  ⟨encAt_search_inv _ _ _ _ (by decide) (by decide) (by decide) (by decide) (by decide), rfl, rfl,
    ⟨rfl, by rw [encAt_slot]; rfl⟩, by decide⟩

/-- PRG5, step 4 (the search goes on), with and without room; S7 (the match ends the source). -/
theorem test_witness_MatchEmitsItsSequence :
    (let s := encAt .encSearch prg5 8 4 0
     Inv s ∧ s.phase = .encSearch ∧ SearchSlotIs s 0x2E3 0 ∧ (∀ j, j < 4 → s.srcByte (0 + j) = s.srcByte (s.enc.r + j)) ∧
       extendWalk s.srcByte (0 + 4) (s.enc.r + 4) s.enc.n = 32 ∧ 32 + s.cfg.lookahead ≤ s.enc.n ∧
       (Sequence.encode ⟨4, bytesFrom s.srcByte 0 4, 28⟩).length + s.cfg.encMargin ≤ s.enc.cap - s.enc.o) ∧
    (let s := encAt .encSearch prg5 7 4 0
     Inv s ∧ s.phase = .encSearch ∧ SearchSlotIs s 0x2E3 0 ∧
       s.enc.cap - s.enc.o < (Sequence.encode ⟨4, bytesFrom s.srcByte 0 4, 28⟩).length + s.cfg.encMargin) ∧
    (let s := encAt .encSearch (List.replicate 17 0xAA) 4 1 0
     Inv s ∧ s.phase = .encSearch ∧ SearchSlotIs s 0x413 0 ∧ (∀ j, j < 4 → s.srcByte (0 + j) = s.srcByte (s.enc.r + j)) ∧
       extendWalk s.srcByte (0 + 4) (s.enc.r + 4) s.enc.n = 17 ∧ s.enc.n < 17 + s.cfg.lookahead) :=
  ⟨⟨encAt_search_inv _ _ _ _ (by decide) (by decide) (by decide) (by decide) (by decide), rfl,
      ⟨rfl, by rw [encAt_slot]; rfl⟩, by decide, by decide, by decide, by decide⟩,
    ⟨encAt_search_inv _ _ _ _ (by decide) (by decide) (by decide) (by decide) (by decide), rfl,
      ⟨rfl, by rw [encAt_slot]; rfl⟩, by decide⟩,
    encAt_search_inv _ _ _ _ (by decide) (by decide) (by decide) (by decide) (by decide), rfl,
      ⟨rfl, by rw [encAt_slot]; rfl⟩, by decide, by decide, by decide⟩

/-- S1; S3 with exactly the room; S12. -/
theorem test_witness_FlushEndsTheStream :
    (let s := encAt .encFlush [] 0 1 0
     Inv s ∧ s.agenda = [] ∧ s.phase = .encFlush ∧ s.enc.anchor = s.enc.n) ∧
    (let s := encAt .encFlush [0x61, 0x62, 0x63] 6 1 0
     Inv s ∧ s.agenda = [] ∧ s.phase = .encFlush ∧ s.enc.anchor < s.enc.n ∧
       (Sequence.encode ⟨0, bytesFrom s.srcByte s.enc.anchor (s.enc.n - s.enc.anchor), 4⟩).length ≤ s.enc.cap - s.enc.o) ∧
    (let s := encAt .encFlush [0x61, 0x62, 0x63] 5 1 0
     Inv s ∧ s.agenda = [] ∧ s.phase = .encFlush ∧ s.enc.anchor < s.enc.n ∧
       s.enc.cap - s.enc.o < (Sequence.encode ⟨0, bytesFrom s.srcByte s.enc.anchor (s.enc.n - s.enc.anchor), 4⟩).length) :=
  ⟨⟨encAt_flush_inv _ _ _ _ (by decide) (by decide) (by decide), rfl, rfl, rfl⟩,
    ⟨encAt_flush_inv _ _ _ _ (by decide) (by decide) (by decide), rfl, rfl, by decide, by decide⟩,
    encAt_flush_inv _ _ _ _ (by decide) (by decide) (by decide), rfl, rfl, by decide, by decide⟩

/-- S1 and S3: `B(0) = 0`, `B(3) = 6`. -/
theorem test_witness_CompressSucceedsWithRoom :
    (let s := encAt .encStart [] 0 1 0
     Inv s ∧ s.agenda = [] ∧ s.phase = .encStart ∧ s.enc.n ≤ 65536 ∧
       0 = (if s.enc.n = 0 then 0 else s.enc.n + 3 + escCount s.enc.n) ∧ 0 ≤ s.enc.cap) ∧
    (let s := encAt .encStart [0x61, 0x62, 0x63] 6 1 0
     Inv s ∧ s.agenda = [] ∧ s.phase = .encStart ∧ s.enc.n ≤ 65536 ∧
       6 = (if s.enc.n = 0 then 0 else s.enc.n + 3 + escCount s.enc.n) ∧ 6 ≤ s.enc.cap) :=
  ⟨⟨encAt_start_inv _ _ (by decide), rfl, rfl, by decide, by decide, by decide⟩,
    encAt_start_inv _ _ (by decide), rfl, rfl, by decide, by decide, by decide⟩

/-- S3 compressed, then V2. -/
theorem test_witness_CompressThenDecompressIsIdentity :
    (let s := encAt .encStart [0x61, 0x62, 0x63] 6 1 0
     let u := decAt [0, 0, 0x30, 0x61, 0x62, 0x63] [] 0 3
     ∃ t, Inv s ∧ s.agenda = [] ∧ s.phase = .encStart ∧ runsTo 2 s t ∧ t.phase = .idle ∧ t.status = 2 ∧ Inv u ∧
       u.agenda = [] ∧ u.phase = .decBoundary ∧ u.dec.ip = 0 ∧ u.dec.op = 0 ∧ u.dec.n = t.result ∧
       s.enc.n ≤ u.dec.cap ∧ ∀ i, i < t.result → u.src.get? i = t.dst.get? i) :=
  ⟨after 2 (encAt .encStart [0x61, 0x62, 0x63] 6 1 0), encAt_start_inv _ _ (by decide), rfl, rfl, rfl, by decide, by decide,
    decAt_inv _ _ _ _ (by decide) (by decide) (by decide), rfl, rfl, rfl, rfl, by decide, by decide, by decide⟩

/-- V2 on two blocks whose SCRATCH and other registers differ. -/
theorem test_witness_DecompressDependsOnlyOnItsStream :
    (let s := decAt [0, 0, 0x30, 0x61, 0x62, 0x63] [] 0 3
     let u := { decAt [0, 0, 0x30, 0x61, 0x62, 0x63] [] 0 3 with srcLen := 9, enc := { Encoder.reset with r := 7 } }
     ∃ t, Inv s ∧ Inv u ∧ s.agenda = [] ∧ u.agenda = [] ∧ s.phase = .decBoundary ∧ u.phase = .decBoundary ∧ s.dec.ip = 0 ∧
       u.dec.ip = 0 ∧ s.dec.op = 0 ∧ u.dec.op = 0 ∧ u.dec.n = s.dec.n ∧ u.dec.cap = s.dec.cap ∧ u.cfg.lenBits = s.cfg.lenBits ∧
       (∀ i, i < s.dec.n → u.srcByte i = s.srcByte i) ∧ runsTo 1 s t ∧ t.phase = .idle) :=
  ⟨after 1 (decAt [0, 0, 0x30, 0x61, 0x62, 0x63] [] 0 3), decAt_inv _ _ _ _ (by decide) (by decide) (by decide),
    Inv.of_decoding (.inl rfl) (by decide) (mem_wf _) (mem_wf _) (Scratch.wf_unspecified 0) ⟨rfl, rfl, rfl⟩ rfl
      (decAt_ready [0, 0, 0x30, 0x61, 0x62, 0x63] [] 0 3 (by decide) (by decide) (by decide)) ⟨by decide, by decide, by decide⟩,
    rfl, rfl, rfl, rfl, rfl, rfl, rfl, rfl, rfl, rfl, rfl, fun _ _ => rfl, rfl, by decide⟩

/-- S1 on two blocks whose other registers differ. -/
theorem test_witness_CompressDependsOnlyOnItsSource :
    (let s := encAt .encStart [] 4 1 0
     let u := { encAt .encStart [] 4 1 0 with srcLen := 9, dec := { Decoder.reset with ip := 7 } }
     ∃ t, Inv s ∧ Inv u ∧ s.agenda = [] ∧ u.agenda = [] ∧ s.phase = .encStart ∧ u.phase = .encStart ∧ u.enc.n = s.enc.n ∧
       u.enc.cap = s.enc.cap ∧ u.cfg = s.cfg ∧ (∀ i, i < s.enc.n → u.srcByte i = s.srcByte i) ∧ runsTo 2 s t ∧
       t.phase = .idle) :=
  ⟨after 2 (encAt .encStart [] 4 1 0), encAt_start_inv _ _ (by decide),
    Inv.of_encoding (.inl rfl) default_wf (mem_wf _) List.Pairwise.nil ⟨List.Pairwise.nil, fun _ h => absurd h List.not_mem_nil⟩
      ⟨rfl, rfl, rfl⟩ rfl ⟨rfl, rfl, rfl, rfl, by decide, fun k => by
        show (Scratch.slot (encAt .encStart [] 4 1 0).scratch k).toNat < 1
        rw [encAt_slot]; exact Nat.one_pos⟩ rfl ⟨by decide, by decide, by decide⟩,
    rfl, rfl, rfl, rfl, rfl, rfl, rfl, fun _ _ => rfl, rfl, by decide⟩

end Sys2Proof.Tests
end

section
/-! PROOFS. No access outside its bound (rules R9, R50, R166, R207): the host's turns, then match extension, then the statement. -/

namespace Sys2Proof.Machine

/-! ### The host's turns -/

/-- A launch of COMPRESS is accepted, without effect or refused, never a fault (rule R14). -/
theorem execCompress_ne_fault (s : State) (f : Fault) : execCompress s ≠ .fault f := by
  unfold execCompress
  split_ifs <;> nofun

/-- A launch of DECOMPRESS is accepted, without effect or refused, never a fault (rule R14). -/
theorem execDecompress_ne_fault (s : State) (f : Fault) : execDecompress s ≠ .fault f := by
  unfold execDecompress
  split_ifs <;> nofun

/-- A write to `CMD` selects one of the two commands or has no effect (rules R14, R81). -/
theorem selectCommand_ne_fault (s : State) (value : Nat) (f : Fault) : (selectCommand s value).outcome ≠ .fault f := by
  rw [selectCommand, decodeCommand]
  by_cases h1 : s.cfg.fit value = 1
  · rw [if_pos h1]
    exact execCompress_ne_fault s f
  · rw [if_neg h1]
    by_cases h2 : s.cfg.fit value = 2
    · rw [if_pos h2]
      exact execDecompress_ne_fault s f
    · rw [if_neg h2]
      nofun

theorem writePlainReg_ne_fault (s : State) (index value : Nat) (f : Fault) : writePlainReg s index value ≠ .fault f := by
  unfold writePlainReg
  split_ifs <;> nofun

theorem hostLoad_ne_fault (s : State) (b : BufferName) (start : Nat) (bytes : List Byte) (f : Fault) :
    hostLoad s b start bytes ≠ .fault f := by
  unfold hostLoad
  split_ifs <;> nofun

theorem hostZeroScratch_ne_fault (s : State) (f : Fault) : hostZeroScratch s ≠ .fault f := by
  unfold hostZeroScratch
  split_ifs <;> nofun

theorem platformBind_ne_fault (s : State) (p : Platform) (f : Fault) : platformBind s p ≠ .fault f := by
  unfold platformBind
  split_ifs <;> nofun

/-- No move of the host or the platform faults, in any state: what it may not do is refused (rules R14, R258). -/
theorem selectHost_ne_fault (s : State) (m : HostMove) (f : Fault) : (selectHost s m).outcome ≠ .fault f := by
  cases m with
  | writeReg index value =>
    cases index with
    | zero => exact selectCommand_ne_fault s value f
    | succ k => exact writePlainReg_ne_fault s (k + 1) value f
  | load b start bytes => exact hostLoad_ne_fault s b start bytes f
  | zeroScratch => exact hostZeroScratch_ne_fault s f
  | bind p => exact platformBind_ne_fault s p f
  | reset => nofun

/-! ### Every turn -/

/-- From the invariant an engine's turn answers a next state (rules R50, R166, R207). -/
theorem Inv.selectEngine_next {s : State} (h : Inv s) : ∃ t, (selectEngine s).outcome = .next t :=
  (engine_turn h).imp fun _ ht => ht.1

/-- From the invariant no step faults, whoever moves (rule R9). -/
theorem Inv.step_ne_fault {s : State} (h : Inv s) (f : Fault) : step s ≠ .fault f := by
  have engine : ∀ {u : State}, Inv u → (selectEngine u).outcome ≠ .fault f := fun hu => by
    obtain ⟨t, ht⟩ := hu.selectEngine_next
    rw [ht]
    nofun
  match ha : s.agenda with
  | [] => rw [step_nil ha]; exact engine h
  | .engine :: rest => rw [step_engine ha]; exact engine (h.of_agenda rest)
  | .host m :: rest => rw [step_host ha]; exact selectHost_ne_fault _ m f

/-! ### Match extension reads nothing at or above its end -/

section Extend

variable {f g : Nat → Byte} {stop : Nat} (hfg : ∀ i, i < stop → f i = g i)
include hfg

theorem bytesFrom_eq_of_agree_below {a k : Nat} (h : a + k ≤ stop) : bytesFrom f a k = bytesFrom g a k := by
  induction k generalizing a with
  | zero => rfl
  | succ k ih => rw [bytesFrom, bytesFrom, hfg a (by omega), ih (by omega)]

theorem word64_eq_of_agree_below {a : Nat} (h : a + 8 ≤ stop) : word64 f a = word64 g a := by
  rw [word64, word64, bytesFrom_eq_of_agree_below hfg h]

/-- The byte phase compares only while `b` is below the end, and `a` is below `b` (rule R136). -/
theorem extendBytes_eq_of_agree_below (fuel : Nat) {a b : Nat} (hab : a < b) :
    extendBytes f fuel a b stop = extendBytes g fuel a b stop := by
  induction fuel generalizing a b with
  | zero => rfl
  | succ fuel ih =>
    rw [extendBytes, extendBytes]
    by_cases hb : b < stop
    · rw [hfg a (by omega), hfg b hb, ih (by omega)]
    · simp only [hb, false_and, if_false]

/-- The word phase reads two words only where the higher one ends by the end (rule R136). -/
theorem extendWords_eq_of_agree_below (fuel : Nat) {a b : Nat} (hab : a < b) :
    extendWords f fuel a b stop = extendWords g fuel a b stop := by
  induction fuel generalizing a b with
  | zero => rfl
  | succ fuel ih =>
    rw [extendWords, extendWords]
    by_cases h8 : 8 ≤ stop - b
    · rw [if_pos h8, if_pos h8, word64_eq_of_agree_below hfg (a := a) (by omega),
        word64_eq_of_agree_below hfg (a := b) (by omega), ih (by omega)]
    · rw [if_neg h8, if_neg h8, extendBytes_eq_of_agree_below hfg _ hab]

end Extend

/-- Settles O39: the step by whose turn it is, the engine's turn by `engine_turn`, EXTEND by induction over its two phases. -/
theorem noStepLeavesItsBounds : Obligations.NoStepLeavesItsBounds := by
  refine ⟨fun s f h => h.step_ne_fault f, fun s h ha => ?_, fun f g a b stop hab _ hfg => ?_⟩
  · rw [step_nil ha]
    exact h.selectEngine_next
  · exact extendWords_eq_of_agree_below hfg _ hab

end Sys2Proof.Machine
end

section
/-! PROOFS. The invariant of every step (rules R13, R21, R37, R126, R158, R207): the reset state, the engines' turns by their
inversions, the host's moves one by one; then what the invariant says of `STATUS` (R13) and of the engines' frame. -/

namespace Sys2Proof.Machine

/-! ### Which engine runs -/

/-- No command runs, the encoder runs or the decoder runs (rule R10). -/
theorem State.idle_or_runs (s : State) : s.phase = .idle ∨ s.encoding ∨ s.decoding := by
  unfold State.encoding State.decoding
  cases s.phase <;> decide

theorem State.encoding.ne_idle {s : State} (h : s.encoding) : s.phase ≠ .idle := by
  rcases h with h | h | h <;> simp [h]

theorem State.decoding.ne_idle {s : State} (h : s.decoding) : s.phase ≠ .idle := by
  rcases h with h | h <;> simp [h]

theorem State.encoding.not_decoding {s : State} (h : s.encoding) : ¬ s.decoding := by
  rcases h with h | h | h <;> simp [State.decoding, h]

theorem Inv.cmd_of_encoding {s : State} (h : Inv s) (he : s.encoding) : s.cmd = 1 := by
  have hc := h.command
  rcases he with hp | hp | hp <;> simpa [CommandAgrees, hp] using hc

theorem Inv.cmd_of_decoding {s : State} (h : Inv s) (hd : s.decoding) : s.cmd = 2 := by
  have hc := h.command
  rcases hd with hp | hp <;> simpa [CommandAgrees, hp] using hc

theorem Inv.busy_iff {s : State} (h : Inv s) : s.busy = true ↔ s.phase ≠ .idle := by
  rw [← Bool.not_eq_false, not_congr h.busy_eq_false]

theorem Inv.busy_iff_runs {s : State} (h : Inv s) : s.busy = true ↔ s.encoding ∨ s.decoding := by
  rw [h.busy_iff]
  constructor
  · exact s.idle_or_runs.resolve_left
  · rintro (he | hd)
    · exact he.ne_idle
    · exact hd.ne_idle

/-- The four values `STATUS` takes (rules R13, R14, R221, R222). -/
theorem Inv.status_cases {s : State} (h : Inv s) : s.status = 0 ∨ s.status = 1 ∨ s.status = 2 ∨ s.status = 6 := by
  by_cases hp : s.phase = .idle
  · rcases h.registers.2 hp with ⟨hs, -⟩ | ⟨hs, -⟩ | ⟨hs, -⟩ <;> simp [hs]
  · simp [(h.registers.1 hp).1]

/-! ### The engines' turns -/

/-- An encoder step keeps the invariant. -/
theorem EncPost.inv {s t : State} (hp : EncPost s t) (h : Inv s) (he : s.encoding) : Inv t := by
  obtain ⟨fcfg, -, -, fcmd, fsl, fdc, -, fsrc⟩ := hp.frame
  have hcfg : t.cfg.wf = true := fcfg ▸ h.cfg
  have hsrc : t.src.wf := fsrc ▸ h.src
  have hwidths : RegistersFit t := by
    obtain ⟨w1, w2, w3⟩ := h.widths
    rw [RegistersFit, fcfg, fsl, fdc]
    exact ⟨w1, w2, hp.width w3⟩
  rcases hp.ends with ⟨hidle, -, hr⟩ | ⟨hrun, hst, hres, herr, henc, hkind, -⟩
  · refine Inv.of_idle hidle hcfg hsrc (hp.wf h.dst) (hp.scratchWf h.scratch) (.inr ?_) hwidths
    rw [fcfg]
    exact hr.imp id fun ⟨a, b, c⟩ => ⟨a, b, .inl c⟩
  · obtain ⟨r1, r2, r3⟩ := h.registers.1 he.ne_idle
    exact Inv.of_encoding (.inr hrun) hcfg hsrc (hp.wf h.dst) (hp.scratchWf h.scratch)
      ⟨hst.trans r1, hres.trans r2, herr.trans r3⟩ (fcmd.trans (h.cmd_of_encoding he)) henc hkind hwidths

/-- A decoder step keeps the invariant. -/
theorem DecPost.inv {s t : State} (hp : DecPost s t) (h : Inv s) (hd : s.decoding) : Inv t := by
  obtain ⟨fcfg, -, -, fcmd, fsl, fdc, -, fsrc, fscr⟩ := hp.frame
  have hcfg : t.cfg.wf = true := fcfg ▸ h.cfg
  have hsrc : t.src.wf := fsrc ▸ h.src
  have hscr : t.scratch.wf := fscr ▸ h.scratch
  have hwidths : RegistersFit t := by
    obtain ⟨w1, w2, w3⟩ := h.widths
    rw [RegistersFit, fcfg, fsl, fdc]
    exact ⟨w1, w2, hp.width w3⟩
  rcases hp.ends with ⟨hidle, hr⟩ | ⟨hrun, hst, hres, herr, hready⟩
  · refine Inv.of_idle hidle hcfg hsrc (hp.wf h.dst) hscr (.inr ?_) hwidths
    rw [fcfg]
    exact hr.imp id fun ⟨a, b, c⟩ => ⟨a, b, .inr c⟩
  · obtain ⟨r1, r2, r3⟩ := h.registers.1 hd.ne_idle
    exact Inv.of_decoding hrun hcfg hsrc (hp.wf h.dst) hscr ⟨hst.trans r1, hres.trans r2, herr.trans r3⟩
      (fcmd.trans (h.cmd_of_decoding hd)) hready hwidths

/-- Everything an engine's turn that answers `t` can have done: nothing while idle, an encoder step, or a decoder step. -/
theorem Inv.engine_cases {s t : State} (h : Inv s) (ht : (selectEngine s).outcome = .next t) :
    (s.phase = .idle ∧ t = s) ∨ (s.encoding ∧ EncPost s t) ∨ (s.decoding ∧ DecPost s t) := by
  obtain ⟨u, hu, hcases⟩ := engine_turn h
  obtain rfl : u = t := by simpa [hu] using ht
  exact hcases.imp id (Or.imp id fun ⟨hd, hp, _⟩ => ⟨hd, hp⟩)

/-- An engine's turn keeps the invariant. -/
theorem Inv.of_selectEngine {s t : State} (h : Inv s) (ht : (selectEngine s).outcome = .next t) : Inv t := by
  rcases h.engine_cases ht with ⟨-, rfl⟩ | ⟨he, hp⟩ | ⟨hd, hp⟩
  · exact h
  · exact hp.inv h he
  · exact hp.inv h hd

/-! ### The moves of the host and the platform -/

/-- New contents of the buffers and a new binding, all canonical, keep the invariant of an idle block. -/
theorem Inv.of_idle_buffers {s : State} (h : Inv s) (hb : s.busy = false) (p : Platform) {src dst : Memory}
    {scratch : Scratch} (h1 : src.wf) (h2 : dst.wf) (h3 : scratch.wf) :
    Inv { s with platform := p, src := src, dst := dst, scratch := scratch } :=
  have hp := h.busy_eq_false.1 hb
  Inv.of_idle hp h.cfg h1 h2 h3 (h.registers.2 hp) h.widths

/-- A started COMPRESS meets the invariant: its slots all read 0, below the cursor 1 (rules R18, R126). -/
theorem Inv.after_startCompress {s : State} (h : Inv s) : Inv (startCompress s) := by
  obtain ⟨w1, w2, -⟩ := h.widths
  have hslots : SlotsBelow (startCompress s) := fun k => by simp
  have henc : EncoderInv (startCompress s) := ⟨rfl, rfl, rfl, rfl, w2, hslots⟩
  exact Inv.of_encoding (.inl rfl) h.cfg (Memory.wf_lend (Memory.wf_lend h.src _ _) _ _) (Memory.wf_lend h.dst _ _)
    (Scratch.wf_zero _) ⟨rfl, rfl, rfl⟩ rfl henc rfl ⟨w1, w2, Nat.two_pow_pos _⟩

/-- A started DECOMPRESS meets the invariant: both cursors are 0 (rules R22, R191). -/
theorem Inv.after_startDecompress {s : State} (h : Inv s) : Inv (startDecompress s) := by
  obtain ⟨w1, w2, -⟩ := h.widths
  have hready : DecoderReady (startDecompress s) :=
    ⟨Nat.zero_le _, Nat.zero_le _, w2, fun i hi => absurd hi (Nat.not_lt_zero i)⟩
  exact Inv.of_decoding (.inl rfl) h.cfg (Memory.wf_lend h.src _ _) h.dst (Scratch.wf_lend h.scratch _ _)
    ⟨rfl, rfl, rfl⟩ rfl hready ⟨w1, w2, Nat.two_pow_pos _⟩

/-- An accepted reset meets the invariant (rules R37, R245). -/
theorem Inv.after_resetBlock {s : State} (h : Inv s) : Inv (resetBlock s) := by
  have hdst : (resetBlock s).dst.wf := by
    rw [resetBlock_dst]
    split
    · exact Memory.wf_forget h.dst _ _
    · exact h.dst
  exact Inv.of_idle rfl h.cfg h.src hdst (Scratch.wf_forget _) (.inl ⟨rfl, rfl, rfl⟩)
    ⟨Nat.two_pow_pos _, Nat.two_pow_pos _, Nat.two_pow_pos _⟩

/-- A launch of COMPRESS that is answered has no effect or starts the encoder (rule R14). -/
theorem execCompress_next {s t : State} (ht : execCompress s = .next t) : t = s ∨ t = startCompress s := by
  unfold execCompress at ht
  split_ifs at ht <;> cases ht
  · exact .inl rfl
  · exact .inr rfl

/-- A launch of DECOMPRESS that is answered has no effect or starts the decoder (rule R14). -/
theorem execDecompress_next {s t : State} (ht : execDecompress s = .next t) : t = s ∨ t = startDecompress s := by
  unfold execDecompress at ht
  split_ifs at ht <;> cases ht
  · exact .inl rfl
  · exact .inr rfl

/-- A write to `CMD` that is answered has no effect or starts one of the engines (rule R14). -/
theorem selectCommand_next {s t : State} {value : Nat} (ht : (selectCommand s value).outcome = .next t) :
    t = s ∨ t = startCompress s ∨ t = startDecompress s := by
  unfold selectCommand decodeCommand at ht
  by_cases h1 : s.cfg.fit value = 1
  · rw [if_pos h1] at ht
    exact (execCompress_next ht).imp id .inl
  · rw [if_neg h1] at ht
    by_cases h2 : s.cfg.fit value = 2
    · rw [if_pos h2] at ht
      exact (execDecompress_next ht).imp id .inr
    · rw [if_neg h2] at ht
      cases ht
      exact .inl rfl

/-- A write to another register that is answered puts the value, as wide as the register, into `SRC_LEN` or `DST_CAP`, or has no
effect (rules R12, R14). -/
theorem writePlainReg_next {s t : State} {index value : Nat} (ht : writePlainReg s index value = .next t) :
    t = s ∨ t = { s with srcLen := s.cfg.fit value } ∨ t = { s with dstCap := s.cfg.fit value } := by
  unfold writePlainReg at ht
  split_ifs at ht <;> cases ht <;> simp

/-- A write to a register keeps the invariant. -/
theorem Inv.after_writePlainReg {s t : State} (h : Inv s) {index value : Nat}
    (ht : writePlainReg s index value = .next t) : Inv t := by
  obtain ⟨w1, w2, w3⟩ := h.widths
  rcases writePlainReg_next ht with rfl | rfl | rfl
  · exact h
  · exact ⟨h.cfg, h.src, h.dst, h.scratch, h.registers, ⟨s.cfg.fit_lt value, w2, w3⟩, h.command, h.encoder, h.decoder,
      h.index⟩
  · exact ⟨h.cfg, h.src, h.dst, h.scratch, h.registers, ⟨w1, s.cfg.fit_lt value, w3⟩, h.command, h.encoder, h.decoder,
      h.index⟩

/-- A load that is answered stores its bytes into an idle block (rules R55, R258). -/
theorem hostLoad_next {s t : State} {b : BufferName} {start : Nat} {bytes : List Byte}
    (ht : hostLoad s b start bytes = .next t) :
    s.busy = false ∧ t = storeAt s ((s.platform.extent b).base + start) bytes := by
  unfold hostLoad at ht
  split_ifs at ht with hb
  cases ht
  exact ⟨Bool.eq_false_of_not_eq_true hb, rfl⟩

/-- A zeroing that is answered stores zeros into an idle block (rules R250 item 4, R255). -/
theorem hostZeroScratch_next {s t : State} (ht : hostZeroScratch s = .next t) :
    s.busy = false ∧
      t = { storeAt s s.platform.scratch.base (List.replicate scratchBytes 0) with scratch := s.scratch.zero } := by
  unfold hostZeroScratch at ht
  split_ifs at ht with hb
  cases ht
  exact ⟨Bool.eq_false_of_not_eq_true hb, rfl⟩

/-- A binding that is answered leaves the buffers of an idle block unspecified (rule R30). -/
theorem platformBind_next {s t : State} {p : Platform} (ht : platformBind s p = .next t) :
    s.busy = false ∧
      t = { s with
        platform := p
        src := Memory.unspecified (s.src.draw + 1)
        dst := Memory.unspecified (s.dst.draw + 1)
        scratch := s.scratch.forget } := by
  unfold platformBind at ht
  split_ifs at ht with hb
  cases ht
  exact ⟨Bool.eq_false_of_not_eq_true hb, rfl⟩

/-- Every move of the host or the platform that is answered keeps the invariant. -/
theorem Inv.of_selectHost {s t : State} (h : Inv s) {m : HostMove} (ht : (selectHost s m).outcome = .next t) : Inv t := by
  match m with
  | .writeReg 0 value =>
    rcases selectCommand_next ht with rfl | rfl | rfl
    · exact h
    · exact h.after_startCompress
    · exact h.after_startDecompress
  | .writeReg (k + 1) value => exact h.after_writePlainReg ht
  | .load b start bytes =>
    obtain ⟨hb, rfl⟩ := hostLoad_next ht
    obtain ⟨w1, w2, w3⟩ := wf_storeAt h.src h.dst h.scratch ((s.platform.extent b).base + start) bytes
    exact h.of_idle_buffers hb s.platform w1 w2 w3
  | .zeroScratch =>
    obtain ⟨hb, rfl⟩ := hostZeroScratch_next ht
    obtain ⟨w1, w2, -⟩ :=
      wf_storeAt h.src h.dst h.scratch s.platform.scratch.base (List.replicate scratchBytes 0)
    exact h.of_idle_buffers hb s.platform w1 w2 (Scratch.wf_zero _)
  | .bind p =>
    obtain ⟨hb, rfl⟩ := platformBind_next ht
    exact h.of_idle_buffers hb p (Memory.wf_unspecified _) (Memory.wf_unspecified _) (Scratch.wf_forget _)
  | .reset =>
    cases ht
    exact h.after_resetBlock

/-! ### The statements -/

/-- Settles O38: the step by whose turn it is, the engine's turn by its inversion, the host's by one lemma a move. -/
theorem stepKeepsInvariant : Obligations.StepKeepsInvariant := by
  intro s t h ht
  match ha : s.agenda with
  | [] => rw [step_nil ha] at ht; exact h.of_selectEngine ht
  | .engine :: rest => rw [step_engine ha] at ht; exact (h.of_agenda rest).of_selectEngine ht
  | .host m :: rest => rw [step_host ha] at ht; exact (h.of_agenda rest).of_selectHost ht

/-- Settles O37: an idle block with nothing specified. -/
theorem resetMeetsInvariant : Obligations.ResetMeetsInvariant :=
  Inv.of_idle rfl (by decide) (Memory.wf_unspecified 0) (Memory.wf_unspecified 0) (Scratch.wf_unspecified 0)
    (.inl ⟨rfl, rfl, rfl⟩) ⟨by decide, by decide, by decide⟩

/-- Settles O40: `STATUS` takes four values only, each below 8. -/
theorem statusFlagsAgree : Obligations.StatusFlagsAgree := by
  intro s h
  have hlt : s.status < 2 ^ 3 := by rcases h.status_cases with hs | hs | hs | hs <;> simp [hs]
  refine ⟨?_, ?_, fun i hi => Nat.testBit_lt_two_pow (Nat.lt_of_lt_of_le hlt (Nat.pow_le_pow_right (by omega) hi)),
    h.busy_iff_runs⟩
  · rcases h.status_cases with hs | hs | hs | hs <;> rw [State.busy, State.done, hs] <;> decide
  · rcases h.status_cases with hs | hs | hs | hs <;> rw [State.err, State.done, hs] <;> decide

/-- Settles O43: the frames of the two inversions, and an idle block's turn. -/
theorem enginesStayInTheirBuffers : Obligations.EnginesStayInTheirBuffers := by
  intro s t h ha ht
  rw [step_nil ha] at ht
  rcases h.engine_cases ht with ⟨hidle, rfl⟩ | ⟨he, hp⟩ | ⟨hd, hp⟩
  · exact ⟨rfl, rfl, rfl, rfl, rfl, rfl, fun he => absurd hidle he.ne_idle, fun hd => absurd hidle hd.ne_idle, fun _ => rfl⟩
  · obtain ⟨fcfg, fplat, -, fcmd, fsl, fdc, fdec, fsrc⟩ := hp.frame
    exact ⟨fsrc, fsl, fdc, fcmd, fplat, fcfg, fun _ => ⟨fdec, hp.kept⟩, fun hd => absurd hd he.not_decoding,
      fun hidle => absurd hidle he.ne_idle⟩
  · obtain ⟨fcfg, fplat, -, fcmd, fsl, fdc, fenc, fsrc, fscr⟩ := hp.frame
    exact ⟨fsrc, fsl, fdc, fcmd, fplat, fcfg, fun he => absurd hd he.not_decoding, fun _ => ⟨fenc, fscr, hp.kept⟩,
      fun hidle => absurd hidle hd.ne_idle⟩

end Sys2Proof.Machine
end

section
/-! PROOFS. What the host's and the platform's moves do (rules R12 to R15, R30, R37, R245, R246, R250, R251): register accesses,
reset, the two launches with their refusals, the moves on buffers. -/

namespace Sys2Proof.Machine

/-! ### Registers -/

/-- A launch of COMPRESS while BUSY has no effect (rule R14). -/
theorem execCompress_of_busy {s : State} (hb : s.busy = true) : execCompress s = .next s := by
  rw [execCompress, if_pos hb]

/-- A launch of DECOMPRESS while BUSY has no effect (rule R14). -/
theorem execDecompress_of_busy {s : State} (hb : s.busy = true) : execDecompress s = .next s := by
  rw [execDecompress, if_pos hb]

/-- A reserved command code has no effect (rules R14, R81). -/
theorem selectCommand_reserved {s : State} {value : Nat} (h1 : s.cfg.fit value ≠ 1) (h2 : s.cfg.fit value ≠ 2) :
    selectCommand s value = .plain (.next s) := by
  rw [selectCommand, decodeCommand, if_neg h1, if_neg h2]

/-- A write to `CMD` while BUSY has no effect (rule R14). -/
theorem selectCommand_of_busy {s : State} (hb : s.busy = true) (value : Nat) :
    (selectCommand s value).outcome = .next s := by
  by_cases h1 : s.cfg.fit value = 1
  · rw [selectCommand, decodeCommand, if_pos h1]
    exact execCompress_of_busy hb
  · by_cases h2 : s.cfg.fit value = 2
    · rw [selectCommand, decodeCommand, if_neg h1, if_pos h2]
      exact execDecompress_of_busy hb
    · rw [selectCommand_reserved h1 h2]
      rfl

/-- A write to another register while BUSY has no effect (rule R14). -/
theorem writePlainReg_of_busy {s : State} (hb : s.busy = true) {index : Nat} (hi : index ≤ 5) (value : Nat) :
    writePlainReg s index value = .next s := by
  rw [writePlainReg, if_neg (by omega), if_pos hb]

/-- What a write to a register does to an idle block: `SRC_LEN` and `DST_CAP` take the value, as wide as the register (rule
R12), the others ignore it (log entry 3). -/
theorem writePlainReg_of_idle {s : State} (hb : s.busy = false) {index : Nat} (hi : index ≤ 5) (value : Nat) :
    writePlainReg s index value = .next (
      if index = 1 then { s with srcLen := s.cfg.fit value }
      else if index = 2 then { s with dstCap := s.cfg.fit value }
      else s) := by
  rw [writePlainReg, if_neg (by omega), if_neg (by simp [hb])]
  split_ifs <;> rfl

/-- Settles O32: BUSY is the first test of every write. -/
theorem ignoredRegisterWrites : Obligations.IgnoredRegisterWrites := by
  refine ⟨fun s k w rest ha hk hb => ?_, fun s w rest ha h1 h2 => ?_⟩
  · rw [step_host ha]
    cases k with
    | zero => exact selectCommand_of_busy (s := { s with agenda := rest }) hb w
    | succ k => exact writePlainReg_of_busy (s := { s with agenda := rest }) hb hk w
  · rw [step_host ha, selectHost, selectCommand_reserved (s := { s with agenda := rest }) h1 h2]
    rfl

/-- A register write in the agenda of an idle block is used up by its step. -/
theorem step_writeReg_of_idle {s : State} {k w : Nat} {rest : List Turn}
    (ha : s.agenda = .host (.writeReg (k + 1) w) :: rest) (hb : s.busy = false) (hk : k + 1 ≤ 5) :
    step s = .next (
      if k + 1 = 1 then { s with agenda := rest, srcLen := s.cfg.fit w }
      else if k + 1 = 2 then { s with agenda := rest, dstCap := s.cfg.fit w }
      else { s with agenda := rest }) :=
  (step_host ha).trans (writePlainReg_of_idle (s := { s with agenda := rest }) hb hk w)

/-- Settles O33: the three kinds of register an idle block has, and the reads. -/
theorem hostRegisterAccess : Obligations.HostRegisterAccess := by
  refine ⟨fun s k w rest ha hb => ⟨?_, ?_, ?_⟩, fun s => ⟨rfl, rfl, rfl, rfl, rfl, rfl⟩⟩
  · rintro rfl
    exact step_writeReg_of_idle ha hb (by omega)
  · rintro rfl
    exact step_writeReg_of_idle ha hb (by omega)
  · rintro (rfl | rfl | rfl) <;> exact step_writeReg_of_idle ha hb (by omega)

/-! ### Reset -/

/-- Registers that are all 0 read 0 (rule R12). -/
theorem hostRead_eq_zero {s : State} (h1 : s.srcLen = 0) (h2 : s.dstCap = 0) (h3 : s.status = 0) (h4 : s.result = 0)
    (h5 : s.errKind = 0) {k : Nat} (hk : k < 6) : s.hostRead k = some 0 := by
  match k, hk with
  | 0, _ => rfl
  | 1, _ => exact congrArg some h1
  | 2, _ => exact congrArg some h2
  | 3, _ => exact congrArg some h3
  | 4, _ => exact congrArg some h4
  | 5, _ => exact congrArg some h5

/-- Settles O35: the fields of the reset state, and the turn of an idle block. -/
theorem resetIsIdleAndUnspecified : Obligations.ResetIsIdleAndUnspecified := by
  refine ⟨fun k hk => hostRead_eq_zero rfl rfl rfl rfl rfl hk, rfl, rfl, fun i => ⟨rfl, rfl, rfl⟩, rfl, ?_⟩
  rw [step_nil rfl]
  rfl

theorem Inv.runningCap_of_encoding {s : State} (h : Inv s) (he : s.encoding) : s.runningCap = s.enc.cap := by
  rw [State.runningCap, if_pos (h.cmd_of_encoding he)]

theorem Inv.runningCap_of_decoding {s : State} (h : Inv s) (hd : s.decoding) : s.runningCap = s.dec.cap := by
  rw [State.runningCap, h.cmd_of_decoding hd, if_neg (by decide)]

/-- Reset of a running command loses just `D[0 .. cap)` (rule R246). -/
theorem get?_resetBlock_dst_of_busy {s : State} (hb : s.busy = true) (i : Nat) :
    (resetBlock s).dst.get? i = if i < s.runningCap then none else s.dst.get? i := by
  rw [resetBlock_dst, if_pos hb, Memory.get?_forget]
  simp only [Nat.zero_le, true_and]

/-- Settles O36: what reset leaves, with the capacity of the engine that runs. -/
theorem resetAbandonsCommand : Obligations.ResetAbandonsCommand := by
  intro s rest h ha
  have lost : s.busy = true → ∀ cap, s.runningCap = cap →
      (∀ i, i < cap → (resetBlock { s with agenda := rest }).dst.get? i = none) ∧
      ∀ i, cap ≤ i → (resetBlock { s with agenda := rest }).dst.get? i = s.dst.get? i := by
    rintro hb cap rfl
    have hget := get?_resetBlock_dst_of_busy (s := { s with agenda := rest }) hb
    exact ⟨fun i hi => (hget i).trans (if_pos hi), fun i hi => (hget i).trans (if_neg (Nat.not_lt.2 hi))⟩
  refine ⟨_, step_host ha, rfl, rfl, fun k hk => hostRead_eq_zero rfl rfl rfl rfl rfl hk, rfl, fun hb => ?_,
    fun he => ?_, fun hd => ?_⟩
  · rw [resetBlock_dst]
    exact if_neg (ne_true_of_eq_false hb)
  · obtain ⟨hnone, hkept⟩ := lost (h.busy_iff_runs.2 (.inl he)) _ (h.runningCap_of_encoding he)
    exact ⟨hnone, hkept, rfl, fun i => rfl⟩
  · exact lost (h.busy_iff_runs.2 (.inr hd)) _ (h.runningCap_of_decoding hd)

/-! ### Launch premises -/

theorem State.disjointForCompress_iff (s : State) : s.disjointForCompress = true ↔
    ¬ s.srcUsed.meets s.dstUsed ∧ ¬ s.srcUsed.meets s.scratchUsed ∧ ¬ s.dstUsed.meets s.scratchUsed := by
  rw [State.disjointForCompress, Bool.and_eq_true, Bool.and_eq_true, Extent.disjoint_iff, Extent.disjoint_iff,
    Extent.disjoint_iff, and_assoc]

theorem State.disjointForDecompress_iff (s : State) :
    s.disjointForDecompress = true ↔ ¬ s.srcUsed.meets s.dstUsed := Extent.disjoint_iff _ _

theorem State.buffersHold_iff (s : State) :
    s.buffersHold = true ↔ s.srcLen ≤ s.platform.src.size ∧ s.dstCap ≤ s.platform.dst.size := by
  rw [State.buffersHold, Bool.and_eq_true, decide_eq_true_iff, decide_eq_true_iff]

section Launch

variable {s : State} (hb : s.busy = false)
include hb

/-- COMPRESS on an idle block asks for a zero SCRATCH first (rules R128, R250 item 4). -/
theorem execCompress_scratchNotZero (hz : ¬ s.scratch.allZero = true) : execCompress s = .refused .scratchNotZero := by
  simp [execCompress, hb, hz]

/-- COMPRESS on an idle block with a zero SCRATCH asks for disjoint buffers next (rules R58, R259). -/
theorem execCompress_buffersOverlap (hz : s.scratch.allZero = true) (hd : ¬ s.disjointForCompress = true) :
    execCompress s = .refused .buffersOverlap := by
  simp [execCompress, hb, hz, hd]

/-- COMPRESS asks for the memory it declares last (rule R250, U10). -/
theorem execCompress_bufferTooSmall (hz : s.scratch.allZero = true) (hd : s.disjointForCompress = true)
    (hs : ¬ (s.buffersHold = true ∧ scratchBytes ≤ s.platform.scratch.size)) :
    execCompress s = .refused .bufferTooSmall := by
  have hs' : s.buffersHold = false ∨ s.platform.scratch.size < scratchBytes := by
    rw [← Bool.not_eq_true, ← Nat.not_le]; tauto
  simp [execCompress, hb, hz, hd, hs']

/-- DECOMPRESS on an idle block asks for disjoint buffers first (rules R58, R259). -/
theorem execDecompress_buffersOverlap (hd : ¬ s.disjointForDecompress = true) :
    execDecompress s = .refused .buffersOverlap := by
  simp [execDecompress, hb, hd]

/-- DECOMPRESS asks for the memory it declares next (rule R251, U10). -/
theorem execDecompress_bufferTooSmall (hd : s.disjointForDecompress = true) (hs : ¬ s.buffersHold = true) :
    execDecompress s = .refused .bufferTooSmall := by
  simp [execDecompress, hb, hd, hs]

end Launch

/-- Settles O31: the tests of a launch in their order, each read as its premise. -/
theorem launchWithoutPremisesRefused : Obligations.LaunchWithoutPremisesRefused := by
  intro s hb hwf
  refine ⟨fun ⟨i, hi, hne⟩ => ?_, fun hz hmeet => ?_, fun hz d1 d2 d3 hsmall => ?_, fun hmeet => ?_, fun d1 hsmall => ?_⟩
  · exact execCompress_scratchNotZero hb fun hz => hne ((Scratch.allZero_iff hwf).1 hz i hi)
  · refine execCompress_buffersOverlap hb ((Scratch.allZero_iff hwf).2 hz) fun hd => ?_
    obtain ⟨d1, d2, d3⟩ := s.disjointForCompress_iff.1 hd
    rcases hmeet with hm | hm | hm
    · exact d1 hm
    · exact d2 hm
    · exact d3 hm
  · refine execCompress_bufferTooSmall hb ((Scratch.allZero_iff hwf).2 hz) (s.disjointForCompress_iff.2 ⟨d1, d2, d3⟩) ?_
    rw [s.buffersHold_iff]
    rintro ⟨⟨h1, h2⟩, h3⟩
    simp only [scratchBytes] at h3
    omega
  · exact execDecompress_buffersOverlap hb fun hd => s.disjointForDecompress_iff.1 hd hmeet
  · refine execDecompress_bufferTooSmall hb (s.disjointForDecompress_iff.2 d1) ?_
    rw [s.buffersHold_iff]
    omega

/-! ### Launches -/

/-- COMPRESS with its launch requirements starts (rules R14, R145, R250). -/
theorem CompressLaunch.exec_eq {s : State} (h : CompressLaunch s) : execCompress s = .next (startCompress s) := by
  have hz := (Scratch.allZero_iff h.scratchWf).2 h.scratchZero
  have hd := s.disjointForCompress_iff.2 h.disjoint
  have hh := s.buffersHold_iff.2 ⟨h.srcHolds, h.dstHolds⟩
  have hs := Nat.not_lt.2 h.scratchHolds
  simp [execCompress, h.idle, hz, hd, hh, hs]

/-- DECOMPRESS with its launch requirements starts (rules R14, R190, R251). -/
theorem DecompressLaunch.exec_eq {s : State} (h : DecompressLaunch s) :
    execDecompress s = .next (startDecompress s) := by
  have hd := s.disjointForDecompress_iff.2 h.disjoint
  have hh := s.buffersHold_iff.2 ⟨h.srcHolds, h.dstHolds⟩
  simp [execDecompress, h.idle, hd, hh]

/-- A region that shares no address with another has none of its addresses. -/
theorem Extent.not_has_of_not_meets {e f : Extent} (h : ¬ e.meets f) {a : Nat} (ha : e.has a) : ¬ f.has a :=
  fun hf => h ⟨a, ha, hf⟩

theorem State.srcUsed_has {s : State} {i : Nat} (hi : i < s.srcLen) : s.srcUsed.has (s.platform.src.base + i) :=
  ⟨Nat.le_add_right _ _, Nat.add_lt_add_left hi _⟩

theorem State.dstUsed_has {s : State} {i : Nat} (hi : i < s.dstCap) : s.dstUsed.has (s.platform.dst.base + i) :=
  ⟨Nat.le_add_right _ _, Nat.add_lt_add_left hi _⟩

theorem State.scratchUsed_has {s : State} {i : Nat} (hi : i < scratchBytes) :
    s.scratchUsed.has (s.platform.scratch.base + i) :=
  ⟨Nat.le_add_right _ _, Nat.add_lt_add_left hi _⟩

/-- SRC once COMPRESS has started: unspecified just at the addresses it may write as DST or SCRATCH (log entry 10). -/
theorem get?_startCompress_src (s : State) (i : Nat) :
    (startCompress s).src.get? i =
      if i < s.platform.src.size ∧
        (s.dstUsed.has (s.platform.src.base + i) ∨ s.scratchUsed.has (s.platform.src.base + i))
      then none else s.src.get? i := by
  rw [startCompress_src, Memory.get?_lend, Memory.get?_lend, ← ite_or]
  exact if_congr (and_or_left.symm.trans (and_congr_right' or_comm)) rfl rfl

/-- DST once COMPRESS has started: unspecified just at the addresses of SCRATCH (log entry 10). -/
theorem get?_startCompress_dst (s : State) (i : Nat) :
    (startCompress s).dst.get? i =
      if i < s.platform.dst.size ∧ s.scratchUsed.has (s.platform.dst.base + i) then none else s.dst.get? i := by
  rw [startCompress_dst, Memory.get?_lend]
  rfl

/-- SRC once DECOMPRESS has started: unspecified just at the addresses it may write as DST (log entry 10). -/
theorem get?_startDecompress_src (s : State) (i : Nat) :
    (startDecompress s).src.get? i =
      if i < s.platform.src.size ∧ s.dstUsed.has (s.platform.src.base + i) then none else s.src.get? i := by
  rw [startDecompress_src, Memory.get?_lend]
  rfl

/-- A byte unspecified under a condition, else kept, as the two cases of the statements. -/
theorem kept_or_lost {p : Prop} [Decidable p] {x y : Option Byte} (h : x = if p then none else y) :
    x = y ∨ (x = none ∧ p) := by
  by_cases hp : p
  · exact .inr ⟨h.trans (if_pos hp), hp⟩
  · exact .inl (h.trans (if_neg hp))

/-- Settles O29: the start as `startCompress` gives it; the bytes a command uses lie at no address lent under another name, since
its buffers are disjoint. -/
theorem compressStarts : Obligations.CompressStarts := by
  intro s h
  obtain ⟨d1, d2, d3⟩ := h.disjoint
  refine ⟨startCompress s, h.exec_eq, rfl, fun i _ => Scratch.zero_get? _ i, fun k => Scratch.zero_slot _ k,
    fun i hi => ?_, fun i hi => ?_, fun i => ?_, fun i => ?_⟩
  · rw [get?_startCompress_src, if_neg]
    rintro ⟨-, hdst | hscratch⟩
    · exact Extent.not_has_of_not_meets d1 (State.srcUsed_has hi) hdst
    · exact Extent.not_has_of_not_meets d2 (State.srcUsed_has hi) hscratch
  · rw [get?_startCompress_dst, if_neg]
    rintro ⟨-, hscratch⟩
    exact Extent.not_has_of_not_meets d3 (State.dstUsed_has hi) hscratch
  · exact kept_or_lost (get?_startCompress_src s i)
  · exact kept_or_lost (get?_startCompress_dst s i)

/-- Settles O30: the start as `startDecompress` gives it. -/
theorem decompressStarts : Obligations.DecompressStarts := by
  intro s h
  refine ⟨startDecompress s, h.exec_eq, rfl, fun i hi => ?_, fun i => kept_or_lost (get?_startDecompress_src s i),
    fun i hi => ?_, fun hmeet => ?_⟩
  · rw [get?_startDecompress_src, if_neg]
    rintro ⟨-, hdst⟩
    exact Extent.not_has_of_not_meets h.disjoint (State.srcUsed_has hi) hdst
  · rw [startDecompress_scratch, Scratch.get?_lend _ _ _ hi]
    refine if_congr ?_ rfl rfl
    simp only [Platform.extent, scratchBytes]
    omega
  · refine Scratch.lend_of_disjoint _ _ _ fun i hi => ?_
    exact Extent.not_has_of_not_meets hmeet (State.scratchUsed_has (Nat.lt_of_lt_of_le hi (Nat.min_le_right _ _)))

/-! ### Moves on the buffers of an idle block -/

section Idle

variable {s : State} (hb : s.busy = false)
include hb

theorem hostLoad_of_fits {b : BufferName} {start : Nat} {bytes : List Byte}
    (hfit : start + bytes.length ≤ (s.platform.extent b).size) :
    hostLoad s b start bytes = .next (storeAt s ((s.platform.extent b).base + start) bytes) := by
  simp [hostLoad, hb, Nat.not_lt.2 hfit]

theorem hostLoad_outside {b : BufferName} {start : Nat} {bytes : List Byte}
    (hout : (s.platform.extent b).size < start + bytes.length) : hostLoad s b start bytes = .refused .outsideBuffer := by
  simp [hostLoad, hb, hout]

theorem hostZeroScratch_of_fits (hfit : scratchBytes ≤ s.platform.scratch.size) :
    hostZeroScratch s =
      .next { storeAt s s.platform.scratch.base (List.replicate scratchBytes 0) with scratch := s.scratch.zero } := by
  simp [hostZeroScratch, hb, Nat.not_lt.2 hfit]

theorem hostZeroScratch_outside (hout : s.platform.scratch.size < scratchBytes) :
    hostZeroScratch s = .refused .outsideBuffer := by
  simp [hostZeroScratch, hb, hout]

theorem platformBind_of_idle (p : Platform) :
    platformBind s p = .next { s with
      platform := p
      src := Memory.unspecified (s.src.draw + 1)
      dst := Memory.unspecified (s.dst.draw + 1)
      scratch := s.scratch.forget } := by
  simp [platformBind, hb]

end Idle

/-- SRC and DST do not depend on what SCRATCH holds. -/
theorem held_with_scratch (s : State) (t : Scratch) {c : BufferName} (hc : c ≠ .scratch) (i : Nat) :
    ({ s with scratch := t } : State).held c i = s.held c i := by
  cases c with
  | src => rfl
  | dst => rfl
  | scratch => exact absurd rfl hc

/-- Settles O60: each move by what it answers on an idle block, its stores read by `held_storeAt`. -/
theorem idleBufferMoves : Obligations.IdleBufferMoves := by
  intro s rest hb
  have hb' : ({ s with agenda := rest } : State).busy = false := hb
  refine ⟨fun b start bytes ha => ⟨fun hfit => ?_, fun hout => ?_⟩, fun ha => ⟨fun hfit => ?_, fun hout => ?_⟩,
    fun p ha => ?_⟩
  · refine ⟨_, (step_host ha).trans (hostLoad_of_fits hb' hfit), rfl, fun i hi => ?_, fun c i => held_storeAt ..⟩
    rw [held_storeAt, if_pos (by simp only; omega)]
    congr 1
    simp only
    omega
  · exact (step_host ha).trans (hostLoad_outside hb' hout)
  · refine ⟨_, (step_host ha).trans (hostZeroScratch_of_fits hb' hfit), rfl, fun i _ => Scratch.zero_get? _ i,
      fun k => Scratch.zero_slot _ k, fun c i hc => ?_⟩
    rw [held_with_scratch _ _ hc, held_storeAt, List.length_replicate]
    refine ite_congr rfl (fun hin => ?_) fun _ => rfl
    rw [List.getElem?_replicate, if_pos (by simp only [scratchBytes]; omega)]
  · exact (step_host ha).trans (hostZeroScratch_outside hb' hout)
  · refine ⟨_, (step_host ha).trans (platformBind_of_idle hb' p), rfl, fun b i => ?_⟩
    cases b <;> rfl

end Sys2Proof.Machine
end

section
/-! PROOFS. A step runs the instruction that stands where it is fetched (rules R14, R82, R107, R192, R193), and
`State.withFetchWord` puts one there (log entry 20). -/

namespace Sys2Proof.Machine

/-! ### Fetching -/

/-- At a sequence boundary the instruction is the one the next three bytes decode to (rules R192, R193). -/
theorem selectBoundary_eq_run {s : State} {i : Instr} (hn : s.dec.ip + 3 ≤ s.dec.n)
    (hd : decode .token (bytesFrom s.srcByte s.dec.ip 3) = .ok (i, [])) : selectBoundary s = .run i s := by
  obtain rfl : decodeToken (tokenOfBytes (s.srcByte s.dec.ip) (s.srcByte (s.dec.ip + 1)) (s.srcByte (s.dec.ip + 2))) = i := by
    simpa [bytesFrom, decode] using hd
  rw [selectBoundary, if_neg (by omega), fetchToken, if_pos hn]

/-- Inside a chain the instruction is the one the next byte decodes to (rule R107). -/
theorem selectChain_eq_run {s : State} {i : Instr} (hn : s.dec.ip + 1 ≤ s.dec.n)
    (hd : decode .escape (bytesFrom s.srcByte s.dec.ip 1) = .ok (i, [])) : selectChain s = .run i s := by
  obtain rfl : decodeEscape (s.srcByte s.dec.ip) = i := by simpa [bytesFrom, decode] using hd
  rw [selectChain, if_neg (by omega)]

/-- The engine's turn on a token. -/
theorem selectEngine_token {s : State} {i : Instr} (hp : s.phase = .decBoundary) (hn : s.dec.ip + 3 ≤ s.dec.n)
    (hd : decode .token (bytesFrom s.srcByte s.dec.ip 3) = .ok (i, [])) : (selectEngine s).outcome = exec i s := by
  rw [selectEngine, hp]
  exact congrArg Selected.outcome (selectBoundary_eq_run hn hd)

/-- The engine's turn on an escape byte. -/
theorem selectEngine_escape {s : State} {i : Instr} (hp : s.phase = .decChain) (hn : s.dec.ip + 1 ≤ s.dec.n)
    (hd : decode .escape (bytesFrom s.srcByte s.dec.ip 1) = .ok (i, [])) : (selectEngine s).outcome = exec i s := by
  rw [selectEngine, hp]
  exact congrArg Selected.outcome (selectChain_eq_run hn hd)

/-- A step whose move is a command code written to `CMD` (rule R14). -/
theorem step_command {s : State} {i : Instr} {w : Nat} {rest : List Turn} (ha : s.agenda = .host (.writeReg 0 w) :: rest)
    (hd : decodeCommand (s.cfg.fit w) = some i) : step s = exec i { s with agenda := rest } := by
  rw [step_host ha, selectHost, selectCommand, hd]
  rfl

/-- Settles O9: the three places an instruction is fetched from, with and without an engine turn in the agenda. -/
theorem stepRunsDecodedInstruction : Obligations.StepRunsDecodedInstruction := by
  refine ⟨fun s i ha hp hn hd => ?_, fun s i ha hp hn hd => ?_, fun s i w rest ha hd => ?_,
    fun s i rest ha hp hn hd => ?_, fun s i rest ha hp hn hd => ?_⟩
  · exact (step_nil ha).trans (selectEngine_token hp hn hd)
  · exact (step_nil ha).trans (selectEngine_escape hp hn hd)
  · exact step_command ha hd
  · exact (step_engine ha).trans (selectEngine_token (s := { s with agenda := rest }) hp hn hd)
  · exact (step_engine ha).trans (selectEngine_escape (s := { s with agenda := rest }) hp hn hd)

/-! ### What a table word decodes to -/

theorem decode_token_of_tableWord {w : Nat} {i : Instr} (h : decodeTableWord 24 w = some i) :
    decode .token (bytesOfNat 3 w) = .ok (i, []) := by
  simpa [decodeTableWord, decode, bytesOfNat] using h

theorem decode_escape_of_tableWord {w : Nat} {i : Instr} (h : decodeTableWord 8 w = some i) :
    decode .escape (bytesOfNat 1 w) = .ok (i, []) := by
  simpa [decodeTableWord, decode, bytesOfNat] using h

/-- Two bit fields side by side, as numbers. -/
theorem toNat_append_eq_add {m n : Nat} (x : BitVec m) (y : BitVec n) :
    (x ++ y).toNat = x.toNat * 2 ^ n + y.toNat := by
  rw [BitVec.toNat_append, ← Nat.shiftLeft_add_eq_or_of_lt y.isLt, Nat.shiftLeft_eq]

/-- The four bytes of a number, put together again (rules R41, R81; log entry 21). -/
theorem toNat_four_bytes (w : Nat) :
    ((BitVec.ofNat 8 (w / 256 / 256 / 256) ++ BitVec.ofNat 8 (w / 256 / 256) : BitVec 16) ++
      (BitVec.ofNat 8 (w / 256) ++ BitVec.ofNat 8 w : BitVec 16)).toNat = w % 2 ^ 32 := by
  simp only [toNat_append_eq_add, BitVec.toNat_ofNat]
  omega

theorem decodeCommand_of_tableWord {w : Nat} {i : Instr} (h : decodeTableWord 32 w = some i) :
    decodeCommand (w % 2 ^ 32) = some i := by
  rw [← toNat_four_bytes]
  simp only [decodeTableWord, decode, bytesOfNat] at h
  revert h
  generalize decodeCommand _ = o
  cases o <;> simp

/-- Every command code fits a register of a well-formed configuration (rules R6, R81). -/
theorem fit_of_decodeCommand {c : Config} (hc : c.wf = true) {v : Nat} {i : Instr} (h : decodeCommand v = some i) :
    c.fit v = v := by
  have h8 := Config.eight_le hc
  refine Config.fit_of_lt ?_
  unfold decodeCommand at h
  split_ifs at h <;> omega

/-! ### Placing -/

/-- What is laid into SRC is what the engines read there. -/
theorem layStream_srcHolds (s : State) (p : Phase) (bytes : List Byte) (room : Nat) :
    (layStream s p bytes room).srcHolds s.dec.ip bytes := by
  intro j hj
  have hget : (layStream s p bytes room).src.get? (s.dec.ip + j) = bytes[j]? := by
    rw [layStream, Memory.get?_writeBytes, if_pos (by omega), Nat.add_sub_cancel_left]
  rw [List.getElem?_eq_getElem hj] at hget ⊢
  exact congrArg some (Memory.byte_of_get? hget 0)

/-- The front of a byte string that SRC holds, as the engines read it. -/
theorem State.srcHolds.bytesFrom_eq {s : State} {a : Nat} {front rest : List Byte} (h : s.srcHolds a (front ++ rest)) :
    bytesFrom s.srcByte a front.length = front := by
  refine List.ext_getElem? fun j => ?_
  rw [bytesFrom_getElem?]
  split
  · next hj => rw [h j (by rw [List.length_append]; omega), List.getElem?_append_left hj]
  · next hj => rw [List.getElem?_eq_none (Nat.not_lt.1 hj)]

/-- A token laid at `ip` is run by the next step. -/
theorem step_layStream_token (s : State) {w : Nat} {i : Instr} (h : decodeTableWord 24 w = some i) (rest : List Byte)
    (room : Nat) :
    step (layStream s .decBoundary (bytesOfNat 3 w ++ rest) room) =
      exec i { layStream s .decBoundary (bytesOfNat 3 w ++ rest) room with agenda := s.agenda } := by
  refine (step_engine rfl).trans (selectEngine_token rfl ?_ ?_)
  · exact Nat.add_le_add_left (by rw [List.length_append]; exact Nat.le_add_right 3 _) _
  · exact (congrArg (decode .token) (layStream_srcHolds s .decBoundary _ room).bytesFrom_eq).trans
      (decode_token_of_tableWord h)

/-- An escape byte laid at `ip` is run by the next step. -/
theorem step_layStream_escape (s : State) {w : Nat} {i : Instr} (h : decodeTableWord 8 w = some i) (rest : List Byte)
    (room : Nat) :
    step (layStream s .decChain (bytesOfNat 1 w ++ rest) room) =
      exec i { layStream s .decChain (bytesOfNat 1 w ++ rest) room with agenda := s.agenda } := by
  refine (step_engine rfl).trans (selectEngine_escape rfl ?_ ?_)
  · exact Nat.add_le_add_left (by rw [List.length_append]; exact Nat.le_add_right 1 _) _
  · exact (congrArg (decode .escape) (layStream_srcHolds s .decChain _ room).bytesFrom_eq).trans
      (decode_escape_of_tableWord h)

/-- An escape byte is laid into the chain being read, or into a literal chain begun for it; either way it is run next. -/
theorem step_layEscape (s : State) {w : Nat} {i : Instr} (h : decodeTableWord 8 w = some i) :
    step (layEscape s w) = exec i { layEscape s w with agenda := s.agenda } := by
  unfold layEscape
  by_cases hp : s.phase = .decChain
  · simp only [if_pos hp]
    exact step_layStream_escape s h _ _
  · simp only [if_neg hp]
    exact step_layStream_escape (startChain s .literal) h _ _

/-- A command code laid into the host's next move is run by the next step. -/
theorem step_layCommand (s : State) (hc : s.cfg.wf = true) {w : Nat} {i : Instr} (h : decodeTableWord 32 w = some i) :
    step (layCommand s w) = exec i { layCommand s w with agenda := s.agenda } := by
  have hd := decodeCommand_of_tableWord h
  exact step_command rfl ((congrArg decodeCommand (fit_of_decodeCommand hc hd)).trans hd)

/-- Settles O10: a token, an escape byte and a command code, each laid where the next step fetches it. -/
theorem fetchWordPlacesInstruction : Obligations.FetchWordPlacesInstruction := by
  intro s w i hc
  exact ⟨fun h => step_layStream_token s h _ _, fun h => step_layEscape s h, fun h => step_layCommand s hc h⟩

end Sys2Proof.Machine
end

section
/-! PROOFS. How a command ends in success: an END of the decoder (rules R195, R197, R221) and the encoder's FLUSH (rules R154,
R157, R164, R221, R222). -/

namespace Sys2Proof.Machine

/-! ### The steps of an END -/

/-- Step 3 of a sequence done (rule R195): the literals copied, both cursors past them. -/
def literalsTaken (s : State) : State :=
  { s with
    dst := (literalRun s.srcByte s.dst s.dec.ip s.dec.op s.dec.lit).forget (s.dec.op + s.dec.lit) s.dec.cap
    dec := { s.dec with ip := s.dec.ip + s.dec.lit, op := s.dec.op + s.dec.lit } }

/-- The literals stand where the cursor stood (rule R172). -/
theorem literalsAt_literalsTaken (s : State) : LiteralsAt s (literalsTaken s).dst s.dec.ip s.dec.op s.dec.lit := by
  intro i hi
  rw [literalsTaken, Memory.get?_forget, if_neg (by omega), get?_literalRun, if_pos (by omega), Nat.add_sub_cancel_left]

/-- The literals and their slack lie between the cursor and `cap` (rules R172, R183). -/
theorem dstKept_literalsTaken {s : State} (h : s.dec.op + s.dec.lit ≤ s.dec.cap) :
    DstKept s.dst (literalsTaken s).dst s.dec.op s.dec.cap := by
  intro i hi
  rw [literalsTaken, Memory.get?_forget, if_neg (by omega), get?_literalRun, if_neg (by omega)]

/-- Forgetting from the end of a literal run on leaves the run. -/
theorem LiteralsAt.forget {s : State} {d : Memory} {si di len : Nat} (h : LiteralsAt s d si di len) {lo : Nat}
    (hlo : di + len ≤ lo) (hi : Nat) : LiteralsAt s (d.forget lo hi) si di len := by
  intro i hlt
  rw [Memory.get?_forget, if_neg (by omega), h i hlt]

/-- Forgetting between `start` and `cap` keeps what lies outside. -/
theorem DstKept.forget {d d' : Memory} {start cap : Nat} (h : DstKept d d' start cap) {lo : Nat} (hlo : start ≤ lo) :
    DstKept d (d'.forget lo cap) start cap := by
  intro i hi
  rw [Memory.get?_forget, if_neg (by omega), h i hi]

/-- Step 2 where the literal length is its field (rule R194). -/
theorem literalLength_of_ne {s : State} (h : s.dec.lf ≠ 15) : literalLength s = literalStep s := if_neg h

/-- Step 3 where both rooms hold (rule R195). -/
theorem literalStep_of_fits {s : State} (h1 : s.dec.ip + s.dec.lit ≤ s.dec.n) (h2 : s.dec.op + s.dec.lit ≤ s.dec.cap) :
    literalStep s = matchLength (literalsTaken s) := by
  rw [literalStep, if_neg (by omega), if_neg (by omega), litCopyDec_ok s h1 h2]
  rfl

/-- Step 4 where the match length is its field (rule R196). -/
theorem matchLength_of_ne {s : State} (h : s.dec.mf ≠ 15) : matchLength s = finishSequence (takeMatchField s) := if_neg h

/-- With offset 0 a sequence is an END (rules R77, R197). -/
theorem finishSequence_of_end {s : State} (h : s.dec.off = 0) : finishSequence s = .ok (endStep s) := if_pos h

/-- An END that passes its three tests returns `op` (rules R197, R221). -/
theorem endStep_eq_complete {s : State} (h1 : s.dec.lit ≠ 0) (h2 : s.dec.mf = 0) (h3 : s.dec.ip = s.dec.n) :
    endStep s = complete s s.dec.cap s.dec.op := by
  rw [endStep, if_neg h1, if_neg (not_not.2 h2), if_neg (not_not.2 h3)]

/-- An END whose literals end the stream, as one step (rules R193 to R197). -/
theorem runToken_end {s : State} {lf : BitVec 4} (h0 : lf ≠ 0) (h15 : lf ≠ 15) (hn : s.dec.ip + 3 + lf.toNat = s.dec.n)
    (hcap : s.dec.op + lf.toNat ≤ s.dec.cap) :
    runToken s 0 0 lf =
      .ok (complete (takeMatchField (literalsTaken (takeToken s 0 0 lf))) s.dec.cap (s.dec.op + lf.toNat)) := by
  have hlit : lf.toNat ≠ 0 := fun h => h0 (BitVec.eq_of_toNat_eq h)
  calc runToken s 0 0 lf
      = literalStep (takeToken s 0 0 lf) := literalLength_of_ne h15
    _ = matchLength (literalsTaken (takeToken s 0 0 lf)) := literalStep_of_fits (Nat.le_of_eq hn) hcap
    _ = finishSequence (takeMatchField (literalsTaken (takeToken s 0 0 lf))) :=
        matchLength_of_ne (show (0 : BitVec 4) ≠ 15 by decide)
    _ = .ok (endStep (takeMatchField (literalsTaken (takeToken s 0 0 lf)))) := finishSequence_of_end rfl
    _ = _ := congrArg _ (endStep_eq_complete hlit rfl hn)

/-- A success whose value fits `RESULT` (rules R12, R221). -/
theorem complete_of_fits {s : State} {v : Nat} (h : v < 2 ^ s.cfg.lenBits) (cap : Nat) :
    complete s cap v =
      { s with
        status := 2, result := v, errKind := 0, cause := none, phase := .idle, dst := s.dst.forget v cap } := by
  rw [complete, Config.fit_of_lt h]

/-- Settles O15: the END as one step; its slack is forgotten twice, after the copy and at completion. -/
theorem endCompletesCommand : Obligations.EndCompletesCommand := by
  intro s lf hr h0 h15 hn hcap
  obtain ⟨-, -, hwidth, -⟩ := hr
  have hlits : LiteralsAt s (literalsTaken (takeToken s 0 0 lf)).dst (s.dec.ip + 3) s.dec.op lf.toNat :=
    literalsAt_literalsTaken (takeToken s 0 0 lf)
  have hkept : DstKept s.dst (literalsTaken (takeToken s 0 0 lf)).dst s.dec.op s.dec.cap :=
    dstKept_literalsTaken (s := takeToken s 0 0 lf) hcap
  have hfits := complete_of_fits (s := takeMatchField (literalsTaken (takeToken s 0 0 lf)))
    (Nat.lt_of_le_of_lt hcap hwidth) s.dec.cap
  have hstep := (runToken_end h0 h15 hn hcap).trans (congrArg _ hfits)
  exact ⟨(literalsTaken (takeToken s 0 0 lf)).dst.forget (s.dec.op + lf.toNat) s.dec.cap, congrArg toOutcome hstep,
    hlits.forget (Nat.le_refl _) _, hkept.forget (Nat.le_add_right _ _),
    fun i hlo hhi => (Memory.get?_forget ..).trans (if_pos ⟨hlo, hhi⟩)⟩

/-! ### FLUSH -/

/-- What a COMPRESS that succeeded leaves of a SCRATCH with no unspecified byte: the slots that hold a position (rule R164; D22,
U7, log entry 7). -/
theorem Scratch.spend_keeps_positions {t : Scratch} (hk : t.kind = .cleared) :
    (∀ h, t.slot h ≠ 0 → t.spend.slot h = t.slot h) ∧
      ∀ i, i < 8192 → t.slot (BitVec.ofNat 12 (i / 2)) = 0 → t.spend.get? i = none :=
  ⟨fun _ hne => Scratch.slot_spend hk hne, fun _ hi h0 => by rw [Scratch.get?_spend t hi, if_neg (not_not.2 h0)]⟩

/-- The END that FLUSH emits (rule R157). -/
def State.tailSequence (s : State) : Sequence := ⟨0, bytesFrom s.srcByte s.enc.anchor (s.enc.n - s.enc.anchor), 4⟩

theorem State.tailSequence_length (s : State) :
    s.tailSequence.encode.length = sequenceSize (s.enc.n - s.enc.anchor) 4 := by
  rw [State.tailSequence, sequence_encode_length, bytesFrom_length]

theorem flushStep_of_empty {s : State} (h : s.enc.n - s.enc.anchor = 0) :
    flushStep s = .ok (finishCompress (measureTail s)) := if_pos h

theorem flushStep_of_nonempty {s : State} (h : s.enc.n - s.enc.anchor ≠ 0) : flushStep s = emitTail (measureTail s) :=
  if_neg h

/-- FLUSH without room for the END (rules R154, R157). -/
theorem flushStep_of_noRoom {s : State} (h : s.enc.n - s.enc.anchor ≠ 0)
    (hroom : s.enc.cap - s.enc.o < s.tailSequence.encode.length) :
    flushStep s = .ok (raise (measureTail s) .noRoom) := by
  rw [State.tailSequence_length] at hroom
  exact (flushStep_of_nonempty h).trans (if_pos hroom)

/-- FLUSH with room for the END writes just its bytes, then returns (rules R155, R157). -/
theorem flushStep_of_room {s : State} (h : s.enc.n - s.enc.anchor ≠ 0) (ho : s.enc.o ≤ s.enc.cap)
    (hroom : s.tailSequence.encode.length ≤ s.enc.cap - s.enc.o) :
    ∃ u, flushStep s = .ok (finishCompress u) ∧ Wrote (takeTail (measureTail s)) u s.tailSequence.encode := by
  have hsize := s.tailSequence_length
  obtain ⟨u, hu, hw⟩ := emit_ok (takeTail (measureTail s)) 0 (s.enc.n - s.enc.anchor) 4 (by omega)
    (by simp only [takeTail_enc, measureTail_enc]; omega) (by simp only [takeTail_enc, measureTail_enc]; omega)
  refine ⟨u, (flushStep_of_nonempty h).trans ?_, hw⟩
  rw [emitTail, if_neg (by simp only [measureTail_enc]; omega)]
  simp only [measureTail_enc, hu]

/-- A step at FLUSH. -/
theorem step_flush {s t : State} (ha : s.agenda = []) (hp : s.phase = .encFlush) (ht : flushStep s = .ok t) :
    step s = .next t := by
  rw [step_nil ha, selectEngine, hp]
  exact congrArg toOutcome ht

/-- Settles O55: the three cases of FLUSH. -/
theorem flushEndsTheStream : Obligations.FlushEndsTheStream := by
  intro s h ha hp
  have henc := h.encoder
  simp only [EncoderInv, hp] at henc
  obtain ⟨hanchor, -, ho, hwidth⟩ := henc
  have hspent := Scratch.spend_keeps_positions (h.index (.inr (.inr hp)))
  refine ⟨fun heq => ?_, fun hlt hroom => ?_, fun hlt hroom => ?_⟩
  · have hlit : s.enc.n - s.enc.anchor = 0 := by omega
    have hkept : DstKept s.dst s.dst s.enc.o s.enc.cap := fun _ _ => rfl
    refine ⟨_, step_flush ha hp (flushStep_of_empty hlit), rfl, rfl, rfl,
      Config.fit_of_lt (Nat.lt_of_le_of_lt ho hwidth), ?_, hspent, hkept.forget (Nat.le_refl _)⟩
    rw [finishCompress_enc, measureTail_enc, hlit]
  · have hlit : s.enc.n - s.enc.anchor ≠ 0 := by omega
    have hroom' : s.tailSequence.encode.length ≤ s.enc.cap - s.enc.o := hroom
    obtain ⟨u, hu, hw⟩ := flushStep_of_room hlit ho hroom
    have ho' : u.enc.o = s.enc.o + s.tailSequence.encode.length := hw.o
    have hc' : u.enc.cap = s.enc.cap := hw.cap
    have hfields : u.cfg = s.cfg ∧ u.enc.lit = s.enc.n - s.enc.anchor ∧ u.enc.mlen = 4 ∧ u.enc.off = 0 ∧
        u.scratch = s.scratch := by rw [hw.rest]; exact ⟨rfl, rfl, rfl, rfl, rfl⟩
    obtain ⟨fcfg, flit, fmlen, foff, fscr⟩ := hfields
    refine ⟨_, step_flush ha hp hu, rfl, rfl, rfl, ?_, fun i hi => ?_, flit, fmlen, foff, ?_, fun i hi => ?_⟩
    · rw [finishCompress_result, ho', fcfg]
      exact Config.fit_of_lt (by omega)
    · have hi' : i < s.tailSequence.encode.length := hi
      rw [finishCompress_dst, Memory.get?_forget, if_neg (by omega)]
      exact hw.holds i hi
    · simp only [finishCompress_scratch, fscr]
      exact hspent
    · rw [finishCompress_dst, Memory.get?_forget, if_neg (by omega)]
      exact hw.kept i hi
  · have hlit : s.enc.n - s.enc.anchor ≠ 0 := by omega
    have hget := Memory.get?_forget s.dst 0 s.enc.cap
    exact ⟨_, step_flush ha hp (flushStep_of_noRoom hlit hroom), rfl, rfl, rfl, rfl, rfl, rfl, rfl,
      fun i hi => (hget i).trans (if_pos ⟨Nat.zero_le i, hi⟩),
      fun i hi => (hget i).trans (if_neg fun hlt => Nat.not_lt.2 hi hlt.2)⟩

end Sys2Proof.Machine
end

section
/-! PROOFS. A token in stream bytes (rules R41, R46, R71). -/

namespace Sys2Proof

/-- The value of a token read from the stream: its first byte is the least significant (rules R41, R46). -/
theorem tokenOfBytes_toNat (b0 b1 b2 : Byte) :
    (tokenOfBytes b0 b1 b2).toNat = b0.toNat + b1.toNat * 2 ^ 8 + b2.toNat * 2 ^ 16 := by
  simp only [tokenOfBytes, Machine.toNat_append_eq_add]
  omega

/-- The bytes a token is read from are the ones it is written as (rules R41, R46). -/
@[simp] theorem tokenBytes_tokenOfBytes (b0 b1 b2 : Byte) : tokenBytes (tokenOfBytes b0 b1 b2) = [b0, b1, b2] := by
  have low : (tokenOfBytes b0 b1 b2).extractLsb' 0 8 = b0 := BitVec.extractLsb'_append_eq_right
  have mid : (tokenOfBytes b0 b1 b2).extractLsb' 8 8 = b1 := by
    rw [tokenOfBytes, BitVec.extractLsb'_append_eq_of_le (by decide)]
    exact BitVec.extractLsb'_append_eq_right
  have high : (tokenOfBytes b0 b1 b2).extractLsb' 16 8 = b2 := by
    rw [tokenOfBytes, BitVec.extractLsb'_append_eq_of_le (by decide)]
    exact BitVec.extractLsb'_append_eq_left
  rw [tokenBytes, low, mid, high]

/-- Settles O5: the bytes written are bit fields; the bytes read are put together by value and taken apart again. -/
theorem tokenIsThreeBytesLowFirst : Obligations.TokenIsThreeBytesLowFirst :=
  ⟨fun _ => rfl, fun b0 b1 b2 => ⟨tokenOfBytes_toNat b0 b1 b2, tokenBytes_tokenOfBytes b0 b1 b2⟩⟩

end Sys2Proof
end

section
/-! PROOFS. The buffers lent to a running command (rules R55, R258). -/

namespace Sys2Proof.Machine

section Busy

variable {s : State} (hb : s.busy = true)
include hb

theorem hostLoad_of_busy (b : BufferName) (start : Nat) (bytes : List Byte) :
    hostLoad s b start bytes = .refused .lentBuffer := if_pos hb

theorem hostZeroScratch_of_busy : hostZeroScratch s = .refused .lentBuffer := if_pos hb

theorem platformBind_of_busy (p : Platform) : platformBind s p = .refused .lentBuffer := if_pos hb

end Busy

/-- Settles O34: BUSY is the first test of each of the three moves. -/
theorem lentBuffersCannotBeWritten : Obligations.LentBuffersCannotBeWritten := by
  intro s rest hb
  have hb' : ({ s with agenda := rest } : State).busy = true := hb
  refine ⟨fun b start bytes ha => ?_, fun ha => ?_, fun p ha => ?_⟩
  · exact (step_host ha).trans (hostLoad_of_busy hb' b start bytes)
  · exact (step_host ha).trans (hostZeroScratch_of_busy hb')
  · exact (step_host ha).trans (platformBind_of_busy hb' p)

end Sys2Proof.Machine
end

section
/-! PROOFS. The instruction encoding (rules R71, R75, R80 to R82): the fields of a token, the eight token forms, decoding against
encoding, and the rows of the opcode table. -/

namespace Sys2Proof

/-! ### A token and its fields (rules R71, R101, R102) -/

@[simp] theorem tokenOff_tokenOf (off : BitVec 16) (mf lf : BitVec 4) : tokenOff (tokenOf off mf lf) = off :=
  BitVec.extractLsb'_append_eq_right

@[simp] theorem tokenMf_tokenOf (off : BitVec 16) (mf lf : BitVec 4) : tokenMf (tokenOf off mf lf) = mf :=
  (BitVec.extractLsb'_append_eq_of_le (by decide)).trans BitVec.extractLsb'_append_eq_right

@[simp] theorem tokenLf_tokenOf (off : BitVec 16) (mf lf : BitVec 4) : tokenLf (tokenOf off mf lf) = lf :=
  (BitVec.extractLsb'_append_eq_of_le (by decide)).trans BitVec.extractLsb'_append_eq_left

/-- No bit of a token lies outside its three fields. -/
@[simp] theorem tokenOf_fields (v : Token) : tokenOf (tokenOff v) (tokenMf v) (tokenLf v) = v := by
  have high : (tokenLf v ++ tokenMf v : BitVec 8) = v.extractLsb' 16 8 :=
    BitVec.extractLsb'_append_extractLsb'_eq_extractLsb' rfl
  rw [tokenOf, high]
  exact (BitVec.extractLsb'_append_extractLsb'_eq_extractLsb' rfl).trans BitVec.extractLsb'_eq_self

/-- Two tokens are equal just where their fields are. -/
theorem token_eq_tokenOf_iff {v : Token} {off : BitVec 16} {mf lf : BitVec 4} :
    v = tokenOf off mf lf ↔ tokenOff v = off ∧ tokenMf v = mf ∧ tokenLf v = lf := by
  constructor
  · rintro rfl
    simp
  · rintro ⟨rfl, rfl, rfl⟩
    exact (tokenOf_fields v).symm

/-- The token read from the three bytes a token is written as (rules R41, R46). -/
theorem tokenOfBytes_tokenBytes (v : Token) :
    tokenOfBytes (v.extractLsb' 0 8) (v.extractLsb' 8 8) (v.extractLsb' 16 8) = v := by
  have high : (v.extractLsb' 16 8 ++ v.extractLsb' 8 8 : BitVec 16) = v.extractLsb' 8 16 :=
    BitVec.extractLsb'_append_extractLsb'_eq_extractLsb' rfl
  rw [tokenOfBytes, high]
  exact (BitVec.extractLsb'_append_extractLsb'_eq_extractLsb' rfl).trans BitVec.extractLsb'_eq_self

/-! ### The eight token forms (rule R82) -/

/-- The form of a token is a well-formed token instruction whose token it is: one case a branch of `decodeToken`. -/
theorem decodeToken_spec (v : Token) :
    (decodeToken v).wf = true ∧ (decodeToken v).kind = .token ∧ (decodeToken v).token = v := by
  have fields := tokenOf_fields v
  unfold decodeToken
  split_ifs <;> simp_all [Instr.wf, Instr.kind, Instr.token]

/-- The form of a well-formed token instruction's token is the instruction: one case a form. -/
theorem decodeToken_token {i : Instr} (hk : i.kind = .token) (hw : i.wf = true) : decodeToken i.token = i := by
  cases i <;> simp_all [Instr.wf, Instr.kind, Instr.token, decodeToken]

/-- A token instruction is written as the three bytes of its token (rule R71). -/
theorem encode_of_token {i : Instr} (hk : i.kind = .token) : encode i = tokenBytes i.token := by
  cases i with
  | escCont | escTerm | compress | decompress => cases hk
  | _ => rfl

/-- Three bytes and more decode to the form of their token (rules R46, R82). -/
theorem decode_tokenBytes (v : Token) (rest : List Byte) :
    decode .token (tokenBytes v ++ rest) = .ok (decodeToken v, rest) := by
  rw [← tokenOfBytes_tokenBytes v, tokenBytes_tokenOfBytes]
  rfl

/-! ### Decoding against encoding -/

theorem decodeEscape_of_ne {b : Byte} (h : b ≠ 255) : decodeEscape b = .escTerm b := if_neg h

/-- Settles O1: the token forms by their token, an escape byte and a command code by their value. -/
theorem decodeInvertsEncode : Obligations.DecodeInvertsEncode := by
  intro i rest hw
  have token (hk : i.kind = .token) : decode .token (encode i ++ rest) = .ok (i, rest) := by
    rw [encode_of_token hk, decode_tokenBytes, decodeToken_token hk hw]
  cases i with
  | escCont => rfl
  | escTerm value =>
    have hne : value ≠ 255 := of_decide_eq_true hw
    show Except.ok (decodeEscape value, rest) = _
    rw [decodeEscape_of_ne hne]
  | compress => rfl
  | decompress => rfl
  | _ => exact token rfl

/-- Four bytes are those of the number they make (rule R81; log entry 21). -/
theorem four_bytes_inj {a0 a1 a2 a3 b0 b1 b2 b3 : Byte}
    (h : ((a3 ++ a2 : BitVec 16) ++ (a1 ++ a0 : BitVec 16)).toNat = ((b3 ++ b2 : BitVec 16) ++ (b1 ++ b0 : BitVec 16)).toNat) :
    a0 = b0 ∧ a1 = b1 ∧ a2 = b2 ∧ a3 = b3 := by
  simp only [Machine.toNat_append_eq_add] at h
  refine ⟨?_, ?_, ?_, ?_⟩ <;> apply BitVec.eq_of_toNat_eq <;> omega

/-- A command code is one of two values (rule R81). -/
theorem decodeCommand_eq_some {w : Nat} {i : Instr} (h : decodeCommand w = some i) :
    (w = 1 ∧ i = .compress) ∨ (w = 2 ∧ i = .decompress) := by
  unfold decodeCommand at h
  split_ifs at h with h1 h2
  · exact .inl ⟨h1, (Option.some.inj h).symm⟩
  · exact .inr ⟨h2, (Option.some.inj h).symm⟩

theorem decode_token_ok {bytes rest : List Byte} {i : Instr} (h : decode .token bytes = .ok (i, rest)) :
    i.wf = true ∧ i.kind = .token ∧ bytes = encode i ++ rest := by
  match bytes with
  | [] | [_] | [_, _] => cases h
  | b0 :: b1 :: b2 :: tail =>
    cases h
    obtain ⟨hw, hk, ht⟩ := decodeToken_spec (tokenOfBytes b0 b1 b2)
    exact ⟨hw, hk, by rw [encode_of_token hk, ht, tokenBytes_tokenOfBytes]; rfl⟩

theorem decode_escape_ok {bytes rest : List Byte} {i : Instr} (h : decode .escape bytes = .ok (i, rest)) :
    i.wf = true ∧ i.kind = .escape ∧ bytes = encode i ++ rest := by
  match bytes with
  | [] => cases h
  | b :: tail =>
    cases h
    unfold decodeEscape
    split
    · next hb => exact ⟨rfl, rfl, by rw [hb]; rfl⟩
    · next hb => exact ⟨decide_eq_true hb, rfl, rfl⟩

theorem decode_command_ok {bytes rest : List Byte} {i : Instr} (h : decode .command bytes = .ok (i, rest)) :
    i.wf = true ∧ i.kind = .command ∧ bytes = encode i ++ rest := by
  match bytes with
  | [] | [_] | [_, _] | [_, _, _] => cases h
  | b0 :: b1 :: b2 :: b3 :: tail =>
    simp only [decode] at h
    split at h
    · next j hj =>
      cases h
      rcases decodeCommand_eq_some hj with ⟨hw, rfl⟩ | ⟨hw, rfl⟩
      · obtain ⟨rfl, rfl, rfl, rfl⟩ := four_bytes_inj (b0 := 1) (b1 := 0) (b2 := 0) (b3 := 0) hw
        exact ⟨rfl, rfl, rfl⟩
      · obtain ⟨rfl, rfl, rfl, rfl⟩ := four_bytes_inj (b0 := 2) (b1 := 0) (b2 := 0) (b3 := 0) hw
        exact ⟨rfl, rfl, rfl⟩
    · cases h

/-- Settles O2: one inversion of `decode` for each place an instruction is fetched from. -/
theorem encodeInvertsDecode : Obligations.EncodeInvertsDecode := by
  intro k bytes i rest h
  cases k with
  | token => exact decode_token_ok h
  | escape => exact decode_escape_ok h
  | command => exact decode_command_ok h

/-- Settles O6: each word evaluated. -/
theorem specWordsDecode : Obligations.SpecWordsDecode := by
  unfold Obligations.SpecWordsDecode
  decide

/-! ### The rows of the opcode table (rule R82) -/

theorem tokenOff_and (v w : Token) : tokenOff (v &&& w) = tokenOff v &&& tokenOff w := BitVec.extractLsb'_and

theorem tokenMf_and (v w : Token) : tokenMf (v &&& w) = tokenMf v &&& tokenMf w := BitVec.extractLsb'_and

theorem tokenLf_and (v w : Token) : tokenLf (v &&& w) = tokenLf v &&& tokenLf w := BitVec.extractLsb'_and

/-- A mask compares a token field by field. -/
theorem and_tokenOf_eq_iff (v : Token) (off off' : BitVec 16) (mf mf' lf lf' : BitVec 4) :
    v &&& tokenOf off mf lf = tokenOf off' mf' lf' ↔
      tokenOff v &&& off = off' ∧ tokenMf v &&& mf = mf' ∧ tokenLf v &&& lf = lf' := by
  rw [token_eq_tokenOf_iff, tokenOff_and, tokenMf_and, tokenLf_and, tokenOff_tokenOf, tokenMf_tokenOf, tokenLf_tokenOf]

/-- The rows with each mask and each match value written by fields: a mask covers a field whole or not at all. -/
theorem tokenRows_by_fields : tokenRows =
    [ ⟨"SEQ", tokenOf 0 0 0, tokenOf 0 0 0, true, false, true, false, true⟩,
      ⟨"SEQ.LX", tokenOf 0 0 15, tokenOf 0 0 15, true, false, true, false, false⟩,
      ⟨"SEQ.MX", tokenOf 0 15 0, tokenOf 0 15 0, true, false, false, false, true⟩,
      ⟨"SEQ.LX.MX", tokenOf 0 15 15, tokenOf 0 15 15, true, false, false, false, false⟩,
      ⟨"END", tokenOf 65535 15 0, tokenOf 0 0 0, false, false, false, true, true⟩,
      ⟨"END.LX", tokenOf 65535 15 15, tokenOf 0 0 15, false, false, false, false, false⟩,
      ⟨"ILL.END0", tokenOf 65535 15 15, tokenOf 0 0 0, false, false, false, false, false⟩,
      ⟨"ILL.ENDM", tokenOf 65535 0 0, tokenOf 0 0 0, false, true, false, false, false⟩ ] := by
  decide

/-- A mask that covers a field whole leaves it. -/
theorem and_mask16 (x : BitVec 16) : x &&& 65535#16 = x := BitVec.and_allOnes

theorem and_mask4 (x : BitVec 4) : x &&& 15#4 = x := BitVec.and_allOnes

/-- A token value is selected by the row of its form and by no other: one case a branch of `decodeToken`. -/
theorem tokenRows_filter (v : Token) :
    (tokenRows.filter (fun row => row.selects v)).map TokenRow.mnemonic = [(decodeToken v).mnemonic] := by
  unfold decodeToken
  rw [tokenRows_by_fields]
  split_ifs <;>
    simp_all [TokenRow.selects, and_tokenOf_eq_iff, and_mask16, and_mask4, Instr.mnemonic]

/-- Settles O3: the token rows by fields, an escape byte and a command code by value. -/
theorem opcodeTableSelectsOneForm : Obligations.OpcodeTableSelectsOneForm := by
  refine ⟨tokenRows_filter, fun b => ⟨⟨fun h => ?_, fun h => ?_⟩, decodeEscape_of_ne⟩, fun _ => rfl⟩
  · by_contra hne
    rw [decodeEscape_of_ne hne] at h
    cases h
  · exact if_pos h

end Sys2Proof
end

section
/-! PROOFS. The codec of a whole sequence (rules R72 to R76, R103 to R108): a length's field and escape chain, then a sequence. -/

namespace Sys2Proof

/-! ### Escape chains (rules R75, R105, R107) -/

/-- A chain one byte longer stands for 255 more. -/
theorem escChain_add_full (d : Nat) : escChain (15 + (d + 255)) = 255 :: escChain (15 + d) := by
  simp only [escChain, Nat.add_sub_cancel_left, Nat.add_div_right d (show 0 < 255 by decide), Nat.add_mod_right,
    List.replicate_succ, List.cons_append]

/-- The last byte of a chain. -/
theorem escChain_of_lt {d : Nat} (h : d < 255) : escChain (15 + d) = [BitVec.ofNat 8 d] := by
  simp only [escChain, Nat.add_sub_cancel_left, Nat.div_eq_of_lt h, Nat.mod_eq_of_lt h, List.replicate_zero,
    List.nil_append]

/-- A byte below 255 by its value. -/
theorem ofNat_ne_full {d : Nat} (h : d < 255) : BitVec.ofNat 8 d ≠ 255 := by
  intro e
  have := congrArg BitVec.toNat e
  rw [BitVec.toNat_ofNat, Nat.mod_eq_of_lt (by omega)] at this
  exact absurd this (by simp; omega)

theorem escDecode_full (acc : Nat) (rest : List Byte) : escDecode acc (255 :: rest) = escDecode (acc + 255) rest :=
  if_pos rfl

theorem escDecode_last (acc : Nat) {b : Byte} (h : b ≠ 255) (rest : List Byte) :
    escDecode acc (b :: rest) = some (acc + b.toNat, rest) := if_neg h

/-- ESC.DEC adds to its accumulator what the chain stands for above 15 (rule R108). -/
theorem escDecode_escChain (d acc : Nat) (rest : List Byte) :
    escDecode acc (escChain (15 + d) ++ rest) = some (acc + d, rest) := by
  by_cases hd : d < 255
  · rw [escChain_of_lt hd, List.singleton_append, escDecode_last acc (ofNat_ne_full hd), BitVec.toNat_ofNat,
      Nat.mod_eq_of_lt (by omega)]
  · obtain ⟨e, rfl⟩ : ∃ e, d = e + 255 := ⟨d - 255, by omega⟩
    rw [escChain_add_full, List.cons_append, escDecode_full, escDecode_escChain e, Nat.add_right_comm, Nat.add_assoc]
termination_by d

/-- What ESC.DEC reads is the one chain of the value it adds (rules R75, R107). -/
theorem escDecode_eq_some {acc x : Nat} {bytes rest : List Byte} (h : escDecode acc bytes = some (x, rest)) :
    ∃ d, x = acc + d ∧ bytes = escChain (15 + d) ++ rest := by
  induction bytes generalizing acc with
  | nil => cases h
  | cons b tail ih =>
    by_cases hb : b = 255
    · subst hb
      rw [escDecode_full] at h
      obtain ⟨d, hx, ht⟩ := ih h
      exact ⟨d + 255, by omega, by rw [escChain_add_full, ht]; rfl⟩
    · rw [escDecode_last acc hb] at h
      cases h
      have hlt : b.toNat < 255 := by
        have hne : b.toNat ≠ 255 := fun e => hb (BitVec.eq_of_toNat_eq e)
        omega
      exact ⟨b.toNat, rfl, by rw [escChain_of_lt hlt, BitVec.ofNat_toNat, BitVec.setWidth_eq]; rfl⟩

/-! ### A length (rules R74, R103) -/

/-- The field of a length below 15 is the length. -/
theorem lengthField_of_lt {x : Nat} (h : x < 15) :
    BitVec.ofNat 4 (field x) ≠ 15 ∧ (BitVec.ofNat 4 (field x)).toNat = x := by
  have hx : (BitVec.ofNat 4 (field x)).toNat = x := by
    rw [field, Nat.min_eq_left (by omega), BitVec.toNat_ofNat, Nat.mod_eq_of_lt (by omega)]
  refine ⟨fun e => ?_, hx⟩
  rw [e] at hx
  exact absurd (hx ▸ h) (by decide)

/-- The field of a length of 15 or more is saturated. -/
theorem lengthField_of_ge {x : Nat} (h : 15 ≤ x) : BitVec.ofNat 4 (field x) = 15 := by
  rw [(field_eq_esc x).2 h]
  rfl

theorem escBytes_of_lt {x : Nat} (h : x < 15) : escBytes x = [] := if_pos h

theorem escBytes_of_ge {x : Nat} (h : 15 ≤ x) : escBytes x = escChain x := if_neg (Nat.not_lt.2 h)

/-- A length is read back from its field and its escape bytes (rule R108). -/
theorem lengthParse_escBytes (x : Nat) (rest : List Byte) :
    lengthParse (BitVec.ofNat 4 (field x)) (escBytes x ++ rest) = some (x, rest) := by
  by_cases hx : x < 15
  · obtain ⟨hne, hval⟩ := lengthField_of_lt hx
    rw [lengthParse, if_neg hne, hval, escBytes_of_lt hx, List.nil_append]
  · obtain ⟨d, rfl⟩ : ∃ d, x = 15 + d := ⟨x - 15, by omega⟩
    rw [lengthParse, if_pos (lengthField_of_ge (by omega)), escBytes_of_ge (by omega), escDecode_escChain]

/-- The field and the bytes a length is read from are the ones it is written as (rules R75, R103). -/
theorem lengthParse_eq_some {f : BitVec 4} {bytes rest : List Byte} {x : Nat} (h : lengthParse f bytes = some (x, rest)) :
    f = BitVec.ofNat 4 (field x) ∧ bytes = escBytes x ++ rest := by
  unfold lengthParse at h
  split at h
  · next hf =>
    obtain ⟨d, rfl, rfl⟩ := escDecode_eq_some h
    exact ⟨hf.trans (lengthField_of_ge (by omega)).symm, by rw [escBytes_of_ge (by omega)]⟩
  · next hf =>
    cases h
    have hlt : f.toNat < 15 := by
      have hne : f.toNat ≠ 15 := fun e => hf (BitVec.eq_of_toNat_eq e)
      omega
    exact ⟨(BitVec.eq_of_toNat_eq (lengthField_of_lt hlt).2).symm, by rw [escBytes_of_lt hlt]; rfl⟩

/-! ### A sequence (rules R72, R76, R106) -/

@[simp] theorem Sequence.tokenOff_token (q : Sequence) : tokenOff q.token = q.off := tokenOff_tokenOf ..

@[simp] theorem Sequence.tokenMf_token (q : Sequence) : tokenMf q.token = BitVec.ofNat 4 (field (q.mlen - 4)) :=
  tokenMf_tokenOf ..

@[simp] theorem Sequence.tokenLf_token (q : Sequence) : tokenLf q.token = BitVec.ofNat 4 (field q.literals.length) :=
  tokenLf_tokenOf ..

/-- A sequence read part by part: its token, its literal length, its literals, its match length (rule R72). -/
theorem Sequence.parse_of_parts {v : Token} {bytes rest1 rest2 : List Byte} {lit m : Nat}
    (h1 : lengthParse (tokenLf v) bytes = some (lit, rest1)) (h2 : lit ≤ rest1.length)
    (h3 : lengthParse (tokenMf v) (rest1.drop lit) = some (m, rest2)) :
    Sequence.parse (tokenBytes v ++ bytes) = some (⟨tokenOff v, rest1.take lit, 4 + m⟩, rest2) := by
  rw [← tokenOfBytes_tokenBytes v] at h1 h3 ⊢
  rw [tokenBytes_tokenOfBytes]
  simp only [Sequence.parse, List.cons_append, List.nil_append, h1, Nat.not_lt.2 h2, if_false, h3]

/-- Decoding an encoded sequence gives it back. -/
theorem Sequence.parse_encode {q : Sequence} (h : 4 ≤ q.mlen) (rest : List Byte) :
    Sequence.parse (q.encode ++ rest) = some (q, rest) := by
  have hlit := lengthParse_escBytes q.literals.length (q.literals ++ (escBytes (q.mlen - 4) ++ rest))
  have hm := lengthParse_escBytes (q.mlen - 4) rest
  rw [← q.tokenLf_token] at hlit
  rw [← q.tokenMf_token] at hm
  have hparse := Sequence.parse_of_parts hlit (by simp) (by rw [List.drop_left]; exact hm)
  rw [List.take_left, q.tokenOff_token, Nat.add_sub_cancel' h] at hparse
  rw [Sequence.encode, List.append_assoc, List.append_assoc, List.append_assoc]
  exact hparse

/-- A sequence that decodes is written as the bytes it was read from. -/
theorem Sequence.encode_of_parse {bytes rest : List Byte} {q : Sequence} (h : Sequence.parse bytes = some (q, rest)) :
    4 ≤ q.mlen ∧ bytes = q.encode ++ rest := by
  match bytes with
  | [] | [_] | [_, _] => cases h
  | b0 :: b1 :: b2 :: tail =>
    simp only [Sequence.parse] at h
    split at h
    · cases h
    · next lit rest1 hlit =>
      split at h
      · cases h
      · next hlen =>
        split at h
        · cases h
        · next m rest2 hm =>
          cases h
          obtain ⟨hlf, rfl⟩ := lengthParse_eq_some hlit
          obtain ⟨hmf, hdrop⟩ := lengthParse_eq_some hm
          have htake : (rest1.take lit).length = lit := List.length_take_of_le (by omega)
          refine ⟨Nat.le_add_right 4 m, ?_⟩
          simp only [Sequence.encode, Sequence.token, htake, Nat.add_sub_cancel_left, ← hlf, ← hmf, tokenOf_fields,
            tokenBytes_tokenOfBytes, List.append_assoc, ← hdrop, List.take_append_drop]
          rfl

/-- Settles O8: the two inverse laws, and the length part by part. -/
theorem sequenceHasOneEncoding : Obligations.SequenceHasOneEncoding := by
  refine ⟨fun q rest h => Sequence.parse_encode h rest, fun bytes q rest h => Sequence.encode_of_parse h, fun q => ?_⟩
  simp only [Sequence.encode, List.length_append, tokenBytes_length, escBytes_length]

end Sys2Proof
end

section
/-! PROOFS. How a DECOMPRESS fails on a token, on the last byte of a chain and inside a chain (rules R79, R107, R195, R197, R199,
R200, R209): each test of a sequence as one lemma, then the forms that reach it. -/

namespace Sys2Proof.Machine

/-! ### A failure and what it leaves (rule R222) -/

/-- A decoder operation that ends in a failure leaves what a failure of DECOMPRESS leaves. -/
theorem DecPost.decodeFailed {s u : State} {c : Cause} (h : DecPost s (raise u c)) (hc : c.kind = .malformedStream) :
    DecodeFailed s (raise u c) c where
  status := rfl
  result := congrArg Config.allOnes h.frame.1
  errKind := congrArg ErrorKind.code hc
  cause := rfl
  phase := rfl
  lost i hi := by
    have hcap : u.dec.cap = s.dec.cap := h.sizes.2
    rw [raise_dst, hc, ErrorKind.cap, hcap, Memory.get?_forget, if_pos ⟨Nat.zero_le i, hi⟩]
  kept := h.kept
  frame := h.frame

/-- The operation fails the command with this cause. -/
def Raises (r : Except Fault State) (c : Cause) : Prop := ∃ u, r = .ok (raise u c)

/-- A token with an unsaturated literal length fails where its literals or what follows them do. -/
theorem runToken_fails {s : State} {off : BitVec 16} {mf lf : BitVec 4} {c : Cause} (hr : DecoderReady s)
    (h3 : s.dec.ip + 3 ≤ s.dec.n) (hlf : lf ≠ 15) (hc : c.kind = .malformedStream)
    (h : Raises (literalStep (takeToken s off mf lf)) c) :
    ∃ t, toOutcome (runToken s off mf lf) = .next t ∧ DecodeFailed s t c := by
  obtain ⟨u, hu⟩ := h
  obtain ⟨t, ht, hpost, -⟩ := decPost_runToken hr h3 off mf lf
  have hrun : runToken s off mf lf = .ok (raise u c) := (literalLength_of_ne hlf).trans hu
  obtain rfl : raise u c = t := Except.ok.inj (hrun.symm.trans ht)
  exact ⟨_, congrArg toOutcome hrun, hpost.decodeFailed hc⟩

/-- The last byte of a chain fails where the end of the chain does. -/
theorem escTerm_fails {s : State} {b : Byte} {c : Cause} (hr : DecoderReady s) (h1 : s.dec.ip + 1 ≤ s.dec.n)
    (hc : c.kind = .malformedStream) (h : Raises (chainDone (takeEscape s b)) c) :
    ∃ t, exec (.escTerm b) s = .next t ∧ DecodeFailed s t c := by
  obtain ⟨u, hu⟩ := h
  obtain ⟨t, ht, hpost⟩ := decPost_chainDone (takeEscape_ready hr h1 b)
  obtain rfl : raise u c = t := Except.ok.inj (hu.symm.trans ht)
  have hpost' : DecPost s (raise u c) :=
    hpost.of_dec (by simp) (by simp) (by simp) (by simp) (fun hw => hw) (fun _ _ => rfl)
  exact ⟨_, congrArg toOutcome hu, hpost'.decodeFailed hc⟩

/-! ### The tests of a sequence in their order (rule R209) -/

/-- Step 3, a literal beyond the stream (rule R195). -/
theorem literalStep_raises_source {s : State} (h : s.dec.n - s.dec.ip < s.dec.lit) :
    Raises (literalStep s) .literalOverrunsSource := ⟨s, if_pos h⟩

/-- Step 3, no room for the literals (rule R195). -/
theorem literalStep_raises_dst {s : State} (h1 : s.dec.lit ≤ s.dec.n - s.dec.ip) (h2 : s.dec.cap - s.dec.op < s.dec.lit) :
    Raises (literalStep s) .dstOverflow := ⟨s, (if_neg (Nat.not_lt.2 h1)).trans (if_pos h2)⟩

/-- Steps 3 and 4 where both rooms hold and the match length is its field (rules R195, R196). -/
theorem literalStep_of_rooms {s : State} (hr : DecoderReady s) (h1 : s.dec.lit ≤ s.dec.n - s.dec.ip)
    (h2 : s.dec.lit ≤ s.dec.cap - s.dec.op) (hmf : s.dec.mf ≠ 15) :
    literalStep s = finishSequence (takeMatchField (literalsTaken s)) := by
  obtain ⟨hip, hop, -, -⟩ := hr
  exact (literalStep_of_fits (by omega) (by omega)).trans (matchLength_of_ne hmf)

/-- With another offset than 0 a sequence has a match (rule R198). -/
theorem finishSequence_of_match {s : State} (h : s.dec.off ≠ 0) : finishSequence s = matchStep s := if_neg h

/-- Step 5, an END that is not one (rule R197). -/
theorem finishSequence_raises_badEnd {s : State} (h0 : s.dec.off = 0)
    (h : s.dec.lit = 0 ∨ s.dec.mf ≠ 0 ∨ s.dec.ip ≠ s.dec.n) : Raises (finishSequence s) .badEnd := by
  refine ⟨s, (finishSequence_of_end h0).trans (congrArg _ ?_)⟩
  unfold endStep
  split_ifs with hlit hmf hip
  · rfl
  · rfl
  · rfl
  · exact (h.elim hlit (·.elim hmf hip)).elim

/-- Step 6, an offset before the output (rule R199). -/
theorem finishSequence_raises_offset {s : State} (h : s.dec.op < s.dec.off.toNat) :
    Raises (finishSequence s) .offsetUnderflow := by
  have h0 : s.dec.off ≠ 0 := fun e => Nat.not_lt_zero _ (by rwa [e] at h)
  exact ⟨s, (finishSequence_of_match h0).trans (if_pos h)⟩

/-- Step 7, no room for the match (rule R200). -/
theorem finishSequence_raises_dst {s : State} (h0 : s.dec.off ≠ 0) (h1 : s.dec.off.toNat ≤ s.dec.op)
    (h2 : s.dec.cap - s.dec.op < s.dec.mlen) : Raises (finishSequence s) .dstOverflow :=
  ⟨s, (finishSequence_of_match h0).trans ((if_neg (Nat.not_lt.2 h1)).trans (if_pos h2))⟩

/-! ### The token forms -/

/-- Settles O12: the four tests of a token whose literal length is its field; the first two come before the match length. -/
theorem seqFailsInTestOrder : Obligations.SeqFailsInTestOrder := by
  refine ⟨fun s off lf hr h3 hlf => ?_, fun s off mf lf hr h3 h0 hmf hlf => ?_⟩
  · refine ⟨fun hsrc => ⟨?_, ?_⟩, fun hsrc hdst => ⟨?_, ?_⟩⟩
    · exact runToken_fails hr h3 hlf rfl (literalStep_raises_source hsrc)
    · exact runToken_fails hr h3 hlf rfl (literalStep_raises_source hsrc)
    · exact runToken_fails hr h3 hlf rfl (literalStep_raises_dst hsrc hdst)
    · exact runToken_fails hr h3 hlf rfl (literalStep_raises_dst hsrc hdst)
  · have hready : DecoderReady (takeToken s off mf lf) := ⟨h3, hr.2⟩
    refine ⟨fun hsrc => ?_, fun hsrc hdst => ?_, fun hsrc hdst hoff => ?_, fun hsrc hdst hoff hroom => ?_⟩
    · exact runToken_fails hr h3 hlf rfl (literalStep_raises_source hsrc)
    · exact runToken_fails hr h3 hlf rfl (literalStep_raises_dst hsrc hdst)
    · refine runToken_fails hr h3 hlf rfl ?_
      rw [literalStep_of_rooms hready hsrc hdst hmf]
      exact finishSequence_raises_offset hoff
    · refine runToken_fails hr h3 hlf rfl ?_
      rw [literalStep_of_rooms hready hsrc hdst hmf]
      exact finishSequence_raises_dst h0 hoff hroom

/-- Settles O16: an END with offset 0 fails on its literals or on one of the three tests of an END. -/
theorem illegalEndsFail : Obligations.IllegalEndsFail := by
  intro s hr h3
  have hready (mf lf : BitVec 4) : DecoderReady (takeToken s 0 mf lf) := ⟨h3, hr.2⟩
  refine ⟨?_, fun mf lf h0 hmf hlf => ?_, fun lf h0 hlf => ⟨fun hsrc => ?_, fun hsrc hdst => ?_, fun hsrc hdst => ?_⟩⟩
  · refine runToken_fails hr h3 (by decide) rfl ?_
    rw [literalStep_of_rooms (hready 0 0) (Nat.zero_le _) (Nat.zero_le _) (show (0 : BitVec 4) ≠ 15 by decide)]
    exact finishSequence_raises_badEnd rfl (.inl rfl)
  · by_cases hsrc : s.dec.n - (s.dec.ip + 3) < lf.toNat
    · exact (runToken_fails hr h3 hlf rfl (literalStep_raises_source hsrc)).imp fun _ h => ⟨_, h⟩
    · have hsrc := Nat.not_lt.1 hsrc
      by_cases hdst : s.dec.cap - s.dec.op < lf.toNat
      · exact (runToken_fails hr h3 hlf rfl (literalStep_raises_dst hsrc hdst)).imp fun _ h => ⟨_, h⟩
      · have hbad : Raises (literalStep (takeToken s 0 mf lf)) .badEnd := by
          rw [literalStep_of_rooms (hready mf lf) hsrc (Nat.not_lt.1 hdst) hmf]
          exact finishSequence_raises_badEnd rfl (.inr (.inl h0))
        exact (runToken_fails hr h3 hlf rfl hbad).imp fun _ h => ⟨_, h⟩
  · exact runToken_fails hr h3 hlf rfl (literalStep_raises_source hsrc)
  · exact runToken_fails hr h3 hlf rfl (literalStep_raises_dst hsrc hdst)
  · have hleft : s.dec.ip + 3 + lf.toNat ≠ s.dec.n := by omega
    refine runToken_fails hr h3 hlf rfl ?_
    rw [literalStep_of_rooms (hready 0 lf) (Nat.le_of_lt hsrc) hdst (show (0 : BitVec 4) ≠ 15 by decide)]
    exact finishSequence_raises_badEnd rfl (.inr (.inr hleft))

/-! ### Escape bytes -/

/-- The end of a literal chain (rules R107, R194). -/
theorem chainDone_of_literal {s : State} (h : s.dec.chain = .literal) :
    chainDone s = literalStep { s with dec := { s.dec with lit := s.dec.acc } } := by rw [chainDone, h]

/-- The end of a match chain (rules R107, R196). -/
theorem chainDone_of_match {s : State} (h : s.dec.chain = .mtch) :
    chainDone s = finishSequence { s with dec := { s.dec with mlen := 4 + s.dec.acc } } := by rw [chainDone, h]

/-- Settles O22: a literal chain goes on with the tests of the literals and, where no match chain follows, with those after them; a
match chain with those of an END or of a match. -/
theorem escTermFailsInTestOrder : Obligations.EscTermFailsInTestOrder := by
  intro s b hr h1 _
  have fails {c : Cause} (hc : c.kind = .malformedStream) := escTerm_fails (b := b) (c := c) hr h1 hc
  have hlit (hch : s.dec.chain = .literal) := chainDone_of_literal (s := takeEscape s b) hch
  have hmatch (hch : s.dec.chain = .mtch) := chainDone_of_match (s := takeEscape s b) hch
  have hready : DecoderReady { takeEscape s b with dec := { (takeEscape s b).dec with lit := (takeEscape s b).dec.acc } } :=
    ⟨h1, hr.2⟩
  refine ⟨fun hch hsrc => fails rfl ?_, fun hch hsrc hdst => fails rfl ?_, fun hch hsrc hdst h0 hmf hend => fails rfl ?_,
    fun hch hsrc hdst hmf hoff => fails rfl ?_, fun hch hsrc hdst hmf h0 hoff hroom => fails rfl ?_,
    fun hch h0 hmf => fails rfl ?_, fun hch hoff => fails rfl ?_, fun hch h0 hoff hroom => fails rfl ?_⟩
  · exact hlit hch ▸ literalStep_raises_source hsrc
  · exact hlit hch ▸ literalStep_raises_dst hsrc hdst
  · rw [hlit hch, literalStep_of_rooms hready hsrc hdst hmf]
    refine finishSequence_raises_badEnd h0 (hend.imp id (.imp id fun hne heq => hne ?_))
    have hip : s.dec.ip + 1 + (s.dec.acc + b.toNat) = s.dec.n := heq
    omega
  · rw [hlit hch, literalStep_of_rooms hready hsrc hdst hmf]
    exact finishSequence_raises_offset hoff
  · rw [hlit hch, literalStep_of_rooms hready hsrc hdst hmf]
    exact finishSequence_raises_dst h0 hoff hroom
  · have hne : s.dec.mf ≠ 0 := by rw [hmf]; decide
    exact hmatch hch ▸ finishSequence_raises_badEnd h0 (.inr (.inl hne))
  · exact hmatch hch ▸ finishSequence_raises_offset hoff
  · exact hmatch hch ▸ finishSequence_raises_dst h0 hoff hroom

/-- Settles O26: with no byte left inside a chain the turn is the failure. -/
theorem truncatedChainFails : Obligations.TruncatedChainFails := by
  intro s ha hp hn
  refine ⟨raise s .escapeTruncated, ?_, (decPost_raise s _ rfl).decodeFailed rfl⟩
  rw [step_nil ha, selectEngine, hp]
  exact congrArg Selected.outcome (if_pos (by omega))

end Sys2Proof.Machine
end

section
/-! PROOFS. Whole runs of the decoder (rules R72, R75, R107, R193 to R201, R221): runs put together, escape chains, then a SEQ and an
END with any lengths. -/

namespace Sys2Proof.Machine

/-! ### Runs -/

/-- A turn and the turns after it. -/
theorem runsTo_succ {k : Nat} {s t u : State} (hs : step s = .next t) (h : runsTo k t u) : runsTo (k + 1) s u := by
  have hs' : core.step s = .next t := hs
  simp only [runsTo, Host.Core.run, hs']
  exact h

/-- What an operation answers reaches a state with a property by `k` more turns. -/
def Reaches (r : Except Fault State) (k : Nat) (P : State → Prop) : Prop := ∃ v t, r = .ok v ∧ runsTo k v t ∧ P t

/-- An operation that answers a state with the property needs no more turns. -/
theorem Reaches.done {r : Except Fault State} {t : State} {P : State → Prop} (hr : r = .ok t) (ht : P t) : Reaches r 0 P :=
  ⟨t, t, hr, rfl, ht⟩

/-- The turn that is the operation. -/
theorem Reaches.of_step {s : State} {r : Except Fault State} {k : Nat} {P : State → Prop} (hs : step s = toOutcome r)
    (h : Reaches r k P) : Reaches (.ok s) (k + 1) P := by
  obtain ⟨v, t, rfl, hrun, ht⟩ := h
  exact ⟨s, t, rfl, runsTo_succ hs hrun, ht⟩

/-- A state that reaches one with a property runs there. -/
theorem Reaches.exists_runsTo {s : State} {k m : Nat} {P : State → Prop} (h : Reaches (.ok s) k P) (hk : k = m) :
    ∃ t, runsTo m s t ∧ P t := by
  obtain ⟨v, t, hv, hrun, ht⟩ := h
  cases hv
  exact ⟨t, hk ▸ hrun, ht⟩

/-- The front of what SRC holds. -/
theorem State.srcHolds.left {s : State} {a : Nat} {x y : List Byte} (h : s.srcHolds a (x ++ y)) : s.srcHolds a x :=
  fun i hi => (h i (by rw [List.length_append]; omega)).trans (List.getElem?_append_left hi)

/-- The rest of what SRC holds. -/
theorem State.srcHolds.right {s : State} {a : Nat} {x y : List Byte} (h : s.srcHolds a (x ++ y)) :
    s.srcHolds (a + x.length) y := fun i hi => by
  rw [Nat.add_assoc, h (x.length + i) (by rw [List.length_append]; omega), List.getElem?_append_right (by omega),
    Nat.add_sub_cancel_left]

/-- What SRC holds is a matter of SRC alone. -/
theorem State.srcHolds.of_src {s t : State} {a : Nat} {bytes : List Byte} (h : s.srcHolds a bytes) (hsrc : t.src = s.src) :
    t.srcHolds a bytes := fun i hi => by
  rw [State.srcByte, hsrc]
  exact h i hi

theorem State.srcHolds.head {s : State} {a : Nat} {b : Byte} {rest : List Byte} (h : s.srcHolds a (b :: rest)) :
    s.srcByte a = b := Option.some.inj (h 0 (Nat.zero_lt_succ _))

theorem State.srcHolds.tail {s : State} {a : Nat} {b : Byte} {rest : List Byte} (h : s.srcHolds a (b :: rest)) :
    s.srcHolds (a + 1) rest := State.srcHolds.right (x := [b]) h

/-- The turn on a token that stands at `ip` (rules R192, R193). -/
theorem step_token {s : State} {v : Token} (ha : s.agenda = []) (hp : s.phase = .decBoundary)
    (hn : s.dec.ip + 3 ≤ s.dec.n) (hs : s.srcHolds s.dec.ip (tokenBytes v)) :
    step s = toOutcome (runToken s (tokenOff v) (tokenMf v) (tokenLf v)) := by
  have hbytes : bytesFrom s.srcByte s.dec.ip 3 = tokenBytes v :=
    State.srcHolds.bytesFrom_eq (front := tokenBytes v) (rest := []) (by rwa [List.append_nil])
  have hdecode : decode .token (bytesFrom s.srcByte s.dec.ip 3) = .ok (decodeToken v, []) := by
    rw [hbytes, ← List.append_nil (tokenBytes v), decode_tokenBytes]
  rw [step_nil ha, selectEngine_token hp hn hdecode, exec_decodeToken]

/-- The turn on an escape byte that stands at `ip` (rule R107). -/
theorem step_escape {s : State} {b : Byte} (ha : s.agenda = []) (hp : s.phase = .decChain)
    (hn : s.dec.ip + 1 ≤ s.dec.n) (hb : s.srcByte s.dec.ip = b) : step s = exec (decodeEscape b) s :=
  (step_nil ha).trans (selectEngine_escape hp hn (hb ▸ rfl))

/-- The turn on a full escape byte: the chain goes on (rule R107). -/
theorem step_escape_full {s : State} (ha : s.agenda = []) (hp : s.phase = .decChain)
    (hn : s.dec.ip + 1 ≤ s.dec.n) (hb : s.srcByte s.dec.ip = 255) : step s = .next (takeEscape s 255) :=
  step_escape ha hp hn hb

/-- The turn on another escape byte: the chain is done (rule R107). -/
theorem step_escape_last {s : State} {b : Byte} (ha : s.agenda = []) (hp : s.phase = .decChain)
    (hn : s.dec.ip + 1 ≤ s.dec.n) (hb : s.srcByte s.dec.ip = b) (hne : b ≠ 255) :
    step s = toOutcome (chainDone (takeEscape s b)) := by
  rw [step_escape ha hp hn hb, decodeEscape_of_ne hne]
  rfl

/-- Settles O23, by induction on the number of full bytes. -/
theorem chainOfFullBytesAccumulates : Obligations.ChainOfFullBytesAccumulates := by
  intro k
  induction k with
  | zero => exact fun s _ _ _ _ => rfl
  | succ k ih =>
    intro s ha hp hn hs
    have htail : ∀ i, i < k → (takeEscape s 255).srcByte ((takeEscape s 255).dec.ip + i) = 255 := fun i hi =>
      (congrArg s.srcByte (Nat.succ_add_eq_add_succ s.dec.ip i)).trans (hs (i + 1) (by omega))
    have hrest := ih (takeEscape s 255) ha hp (by simp only [takeEscape_dec]; omega) htail
    have hip : s.dec.ip + 1 + k = s.dec.ip + (k + 1) := by omega
    have hacc : s.dec.acc + (255 : Byte).toNat + 255 * k = s.dec.acc + 255 * (k + 1) := by
      rw [show (255 : Byte).toNat = 255 from rfl]
      omega
    simp only [takeEscape_dec, hip, hacc] at hrest
    exact runsTo_succ (step_escape_full ha hp (by omega) (hs 0 (by omega))) hrest

/-! ### Escape chains (rule R107) -/

theorem escCount_of_lt {x : Nat} (h : x < 15) : escCount x = 0 := if_pos h

/-- A chain that stands at `ip` is run byte by byte; then its end comes with what the chain stands for added. -/
theorem reaches_chain (d : Nat) {s : State} {k : Nat} {P : State → Prop} (ha : s.agenda = []) (hp : s.phase = .decChain)
    (hn : s.dec.ip + escCount (15 + d) ≤ s.dec.n) (hs : s.srcHolds s.dec.ip (escChain (15 + d))) {ip acc : Nat}
    (hip : ip = s.dec.ip + escCount (15 + d)) (hacc : acc = s.dec.acc + d)
    (h : Reaches (chainDone { s with dec := { s.dec with ip := ip, acc := acc } }) k P) :
    Reaches (.ok s) (escCount (15 + d) + k) P := by
  by_cases hd : d < 255
  · have hone : escCount (15 + d) = 1 := by simp only [escCount]; split <;> omega
    rw [escChain_of_lt hd] at hs
    have hval : (BitVec.ofNat 8 d).toNat = d := by rw [BitVec.toNat_ofNat, Nat.mod_eq_of_lt (by omega)]
    have hend : takeEscape s (BitVec.ofNat 8 d) = { s with dec := { s.dec with ip := ip, acc := acc } } := by
      rw [takeEscape, hval, hip, hacc, hone]
    rw [hone, Nat.add_comm]
    exact Reaches.of_step (step_escape_last ha hp (by omega) hs.head (ofNat_ne_full hd)) (hend ▸ h)
  · obtain ⟨e, rfl⟩ : ∃ e, d = e + 255 := ⟨d - 255, by omega⟩
    have hcount : escCount (15 + (e + 255)) = escCount (15 + e) + 1 := by
      simp only [escCount]; split <;> split <;> omega
    rw [escChain_add_full] at hs
    rw [hcount] at hn hip ⊢
    have hrest : Reaches (.ok (takeEscape s 255)) (escCount (15 + e) + k) P :=
      reaches_chain e ha hp (by simp only [takeEscape_dec]; omega) hs.tail (by simp only [takeEscape_dec]; omega)
        (by simp only [takeEscape_dec]; rw [show (255 : Byte).toNat = 255 from rfl]; omega) h
    rw [Nat.add_right_comm]
    exact Reaches.of_step (r := .ok _) (step_escape_full ha hp (by omega) hs.head) hrest
termination_by d

/-- The literal length is in its register and `ip` past its escape bytes; where the length came from a chain, the chain's registers
have moved (rules R194, R107). -/
def literalsMeasured (s : State) (p : Phase) (acc : Nat) (c : ChainKind) (lit : Nat) : State :=
  { s with phase := p, dec := { s.dec with ip := s.dec.ip + escCount lit, lit := lit, acc := acc, chain := c } }

/-- The same of the match length, 4 more than `m` (rules R196, R107). -/
def matchMeasured (s : State) (p : Phase) (acc : Nat) (c : ChainKind) (m : Nat) : State :=
  { s with phase := p, dec := { s.dec with ip := s.dec.ip + escCount m, mlen := 4 + m, acc := acc, chain := c } }

/-- Step 2 with any literal length (rule R194): one turn for each escape byte, then step 3. -/
theorem reaches_literalLength {s : State} {x k : Nat} {P : State → Prop} (ha : s.agenda = [])
    (hlf : s.dec.lf = BitVec.ofNat 4 (field x)) (hlit : s.dec.lit = s.dec.lf.toNat)
    (hn : s.dec.ip + escCount x ≤ s.dec.n) (hs : s.srcHolds s.dec.ip (escBytes x))
    (h : ∀ p acc c, Reaches (literalStep (literalsMeasured s p acc c x)) k P) :
    Reaches (literalLength s) (escCount x + k) P := by
  by_cases hx : x < 15
  · obtain ⟨hne, hval⟩ := lengthField_of_lt hx
    have hsame : literalsMeasured s s.phase s.dec.acc s.dec.chain x = s := by
      rw [literalsMeasured, escCount_of_lt hx, ← hval, ← hlf, ← hlit]
      rfl
    rw [literalLength_of_ne (hlf ▸ hne), escCount_of_lt hx, Nat.zero_add]
    exact hsame ▸ h s.phase s.dec.acc s.dec.chain
  · obtain ⟨d, rfl⟩ : ∃ d, x = 15 + d := ⟨x - 15, by omega⟩
    have hstart : literalLength s = .ok (startChain s .literal) := if_pos (hlf.trans (lengthField_of_ge (by omega)))
    rw [escBytes_of_ge (by omega)] at hs
    rw [hstart]
    exact reaches_chain d ha rfl hn hs rfl rfl (h .decChain (15 + d) .literal)

/-- Step 4 with any match length (rule R196): one turn for each escape byte, then step 5 or 6. -/
theorem reaches_matchLength {s : State} {x k : Nat} {P : State → Prop} (ha : s.agenda = [])
    (hmf : s.dec.mf = BitVec.ofNat 4 (field x)) (hn : s.dec.ip + escCount x ≤ s.dec.n)
    (hs : s.srcHolds s.dec.ip (escBytes x)) (h : ∀ p acc c, Reaches (finishSequence (matchMeasured s p acc c x)) k P) :
    Reaches (matchLength s) (escCount x + k) P := by
  by_cases hx : x < 15
  · obtain ⟨hne, hval⟩ := lengthField_of_lt hx
    have hsame : matchMeasured s s.phase s.dec.acc s.dec.chain x = takeMatchField s := by
      rw [matchMeasured, escCount_of_lt hx, takeMatchField, hmf, hval]
      rfl
    rw [matchLength_of_ne (hmf ▸ hne), escCount_of_lt hx, Nat.zero_add]
    exact hsame ▸ h s.phase s.dec.acc s.dec.chain
  · obtain ⟨d, rfl⟩ : ∃ d, x = 15 + d := ⟨x - 15, by omega⟩
    have hstart : matchLength s = .ok (startChain (takeMatchField s) .mtch) :=
      if_pos (hmf.trans (lengthField_of_ge (by omega)))
    rw [escBytes_of_ge (by omega)] at hs
    rw [hstart]
    exact reaches_chain d ha rfl hn hs rfl rfl (h .decChain (15 + d) .mtch)

/-! ### The match (rules R199 to R201) -/

/-- Steps 6 and 7 of a sequence done: the match copied, `op` past it, the next sequence boundary. -/
def matchCopied (s : State) : State :=
  { s with
    phase := .decBoundary
    dst := (matchRun s.dst s.dec.op s.dec.off.toNat s.dec.mlen).forget (s.dec.op + s.dec.mlen) s.dec.cap
    dec := { s.dec with op := s.dec.op + s.dec.mlen } }

/-- A match whose two tests hold is copied. -/
theorem finishSequence_of_fits {s : State} (h0 : s.dec.off ≠ 0) (h1 : s.dec.off.toNat ≤ s.dec.op)
    (h2 : s.dec.op + s.dec.mlen ≤ s.dec.cap) : finishSequence s = .ok (matchCopied s) := by
  rw [finishSequence_of_match h0, matchStep, if_neg (by omega), if_neg (by omega), matchCopy_ok s h0 h1 h2]
  rfl

theorem matchCopied_ready {s : State} (h : DecoderReady s) (h0 : s.dec.off ≠ 0) (h1 : s.dec.off.toNat ≤ s.dec.op)
    (h2 : s.dec.op + s.dec.mlen ≤ s.dec.cap) : DecoderReady (matchCopied s) :=
  ⟨h.1, h2, h.2.2.1, fun _ hi => matchRun_ready h h0 h1 hi⟩

/-- The match stands where the cursor stood (rule R176). -/
theorem matchAt_matchCopied {s : State} (h : DecoderReady s) (h0 : s.dec.off ≠ 0) (h1 : s.dec.off.toNat ≤ s.dec.op) :
    MatchAt (matchCopied s).dst s.dec.op s.dec.off.toNat s.dec.mlen := by
  intro j hj
  have hpos : s.dec.off.toNat ≠ 0 := fun e => h0 (BitVec.eq_of_toNat_eq e)
  have hspec : (matchCopied s).dst.get? (s.dec.op + j - s.dec.off.toNat) ≠ none := matchRun_ready h h0 h1 (by omega)
  obtain ⟨b, hb⟩ := Option.ne_none_iff_exists'.1 hspec
  rw [hb]
  rw [matchCopied, Memory.get?_forget, if_neg (by omega)] at hb ⊢
  rw [get?_matchRun_inside _ _ _ _ _ (by omega) h1 (by omega), Memory.byte_of_get? hb]

/-- The match and its slack lie between the cursor and `cap` (rules R176, R183). -/
theorem dstKept_matchCopied {s : State} (h : s.dec.op + s.dec.mlen ≤ s.dec.cap) :
    DstKept s.dst (matchCopied s).dst s.dec.op s.dec.cap := by
  intro i hi
  rw [matchCopied, Memory.get?_forget, if_neg (by omega), get?_matchRun_outside _ _ _ _ _ (by omega)]

/-- What the decoder has once a match of `4 + m` bytes is taken: a sequence boundary, the match in DST. -/
structure MatchDone (u : State) (m : Nat) (t : State) : Prop where
  rest : t = { u with phase := .decBoundary, dst := t.dst, dec := t.dec }
  ready : DecoderReady t
  sizes : t.dec.n = u.dec.n ∧ t.dec.cap = u.dec.cap
  ip : t.dec.ip = u.dec.ip + escCount m
  op : t.dec.op = u.dec.op + (4 + m)
  copied : MatchAt t.dst u.dec.op u.dec.off.toNat (4 + m)
  kept : DstKept u.dst t.dst u.dec.op u.dec.cap

/-- From step 4: one turn for each escape byte of the match length, the match taken in the last of them. -/
theorem reaches_match {u : State} {m : Nat} {P : State → Prop} (ha : u.agenda = []) (hr : DecoderReady u)
    (hmf : u.dec.mf = BitVec.ofNat 4 (field m)) (hn : u.dec.ip + escCount m ≤ u.dec.n)
    (hs : u.srcHolds u.dec.ip (escBytes m)) (h0 : u.dec.off ≠ 0) (h1 : u.dec.off.toNat ≤ u.dec.op)
    (h2 : u.dec.op + (4 + m) ≤ u.dec.cap) (h : ∀ t, MatchDone u m t → P t) :
    Reaches (matchLength u) (escCount m + 0) P := by
  refine reaches_matchLength ha hmf hn hs fun p acc c => ?_
  have hready : DecoderReady (matchMeasured u p acc c m) := ⟨hn, hr.2⟩
  exact Reaches.done (finishSequence_of_fits (s := matchMeasured u p acc c m) h0 h1 h2) (h _ {
    rest := rfl
    ready := matchCopied_ready hready h0 h1 h2
    sizes := ⟨rfl, rfl⟩
    ip := rfl
    op := rfl
    copied := matchAt_matchCopied hready h0 h1
    kept := dstKept_matchCopied (s := matchMeasured u p acc c m) h2 })

/-! ### A token and its literals (rules R193 to R195) -/

theorem literalsTaken_ready {s : State} (h : DecoderReady s) (h1 : s.dec.ip + s.dec.lit ≤ s.dec.n)
    (h2 : s.dec.op + s.dec.lit ≤ s.dec.cap) : DecoderReady (literalsTaken s) :=
  ⟨h1, h2, h.2.2.1, fun _ hi => literalRun_ready h hi⟩

/-- A literal run of what SRC holds. -/
theorem LiteralsAt.holds {s : State} {d : Memory} {si di : Nat} {bytes : List Byte}
    (h : LiteralsAt s d si di bytes.length) (hs : s.srcHolds si bytes) : d.holds di bytes :=
  fun i hi => (h i hi).trans (hs i hi)

/-- What is held below the bytes that change stays. -/
theorem DstKept.holds {d d' : Memory} {start cap a : Nat} {bytes : List Byte} (h : DstKept d d' start cap)
    (ha : a + bytes.length ≤ start) (hd : d.holds a bytes) : d'.holds a bytes :=
  fun i hi => (h _ (.inl (by omega))).trans (hd i hi)

/-- One change of the bytes from the cursor to `cap` after another, the cursor not moving back. -/
theorem DstKept.trans {d d' d'' : Memory} {start start' cap : Nat} (h : DstKept d d' start cap)
    (h' : DstKept d' d'' start' cap) (hle : start ≤ start') : DstKept d d'' start cap :=
  fun i hi => (h' i (hi.imp (fun hlt => Nat.lt_of_lt_of_le hlt hle) id)).trans (h i hi)

/-- The token and the literal length of a sequence taken. -/
def sequenceMeasured (s : State) (q : Sequence) (p : Phase) (acc : Nat) (c : ChainKind) : State :=
  literalsMeasured (takeToken s q.off (BitVec.ofNat 4 (field (q.mlen - 4))) (BitVec.ofNat 4 (field q.literals.length)))
    p acc c q.literals.length

/-- What the decoder has once a sequence's token and literals are taken. -/
structure LiteralsDone (s : State) (q : Sequence) (u : State) : Prop where
  rest : u = { s with phase := u.phase, dst := u.dst, dec := u.dec }
  ready : DecoderReady u
  sizes : u.dec.n = s.dec.n ∧ u.dec.cap = s.dec.cap
  off : u.dec.off = q.off
  mf : u.dec.mf = BitVec.ofNat 4 (field (q.mlen - 4))
  lit : u.dec.lit = q.literals.length
  ip : u.dec.ip = s.dec.ip + (3 + escCount q.literals.length + q.literals.length)
  op : u.dec.op = s.dec.op + q.literals.length
  holds : u.dst.holds s.dec.op q.literals
  kept : DstKept s.dst u.dst s.dec.op s.dec.cap

section Literals

variable {s : State} {q : Sequence} {tail : List Byte} (hr : DecoderReady s)
  (hn : s.dec.ip + (3 + escCount q.literals.length + q.literals.length) ≤ s.dec.n)
  (hs : s.srcHolds s.dec.ip (tokenBytes q.token ++ escBytes q.literals.length ++ q.literals ++ tail))
  (hcap : s.dec.op + q.literals.length ≤ s.dec.cap)
include hr hn hs hcap

/-- Taking the literals does just that. -/
theorem literalsDone_literalsTaken (p : Phase) (acc : Nat) (c : ChainKind) :
    LiteralsDone s q (literalsTaken (sequenceMeasured s q p acc c)) := by
  have hip : s.dec.ip + 3 + escCount q.literals.length + q.literals.length =
      s.dec.ip + (3 + escCount q.literals.length + q.literals.length) := by omega
  have hready : DecoderReady (sequenceMeasured s q p acc c) :=
    ⟨show s.dec.ip + 3 + escCount q.literals.length ≤ s.dec.n by omega, hr.2⟩
  have hsrc : s.srcHolds (s.dec.ip + 3 + escCount q.literals.length) q.literals := by
    have := hs.left.right
    rwa [List.length_append, tokenBytes_length, escBytes_length, ← Nat.add_assoc] at this
  exact {
    rest := rfl
    ready := literalsTaken_ready hready (hip ▸ hn) hcap
    sizes := ⟨rfl, rfl⟩
    off := rfl
    mf := rfl
    lit := rfl
    ip := hip
    op := rfl
    holds := (literalsAt_literalsTaken (sequenceMeasured s q p acc c)).holds hsrc
    kept := dstKept_literalsTaken (s := sequenceMeasured s q p acc c) hcap }

/-- From a sequence boundary: one turn for the token and one for each escape byte of the literal length, then step 4 with the
literals taken. -/
theorem reaches_literals (ha : s.agenda = []) (hp : s.phase = .decBoundary) {k : Nat} {P : State → Prop}
    (h : ∀ u, LiteralsDone s q u → Reaches (matchLength u) k P) :
    Reaches (.ok s) (escCount q.literals.length + k + 1) P := by
  have hstep := step_token ha hp (by omega) hs.left.left.left
  rw [q.tokenOff_token, q.tokenMf_token, q.tokenLf_token] at hstep
  refine Reaches.of_step hstep (reaches_literalLength ha rfl rfl ?_ hs.left.left.right fun p acc c => ?_)
  · simp only [takeToken_dec]
    omega
  · have hdone := literalsDone_literalsTaken hr hn hs hcap p acc c
    have hfits : literalStep (sequenceMeasured s q p acc c) = matchLength (literalsTaken (sequenceMeasured s q p acc c)) :=
      literalStep_of_fits hdone.ready.1 hcap
    exact (congrArg (Reaches · k P) hfits).mpr (h _ hdone)

end Literals

/-! ### Whole sequences -/

/-- Settles O27: the token with the literals taken, then the match on what they left. -/
theorem wholeSequenceRuns : Obligations.WholeSequenceRuns := by
  intro s q ha hp hr h0 hm hn hs hcap hoff
  have hlen : q.encode.length = 3 + escCount q.literals.length + q.literals.length + escCount (q.mlen - 4) := by
    simp only [Sequence.encode, List.length_append, tokenBytes_length, escBytes_length]
  have hmlen : 4 + (q.mlen - 4) = q.mlen := by omega
  rw [hlen] at hn ⊢
  refine (reaches_literals (k := escCount (q.mlen - 4) + 0) hr (by omega) hs (by omega) ha hp
    fun u hu => ?_).exists_runsTo (by omega)
  obtain ⟨hrest, hready, ⟨hun, hucap⟩, huoff, humf, -, huip, huop, hlits, hkept⟩ := hu
  have hagenda : u.agenda = [] := by rw [hrest]; exact ha
  have hchain : u.srcHolds u.dec.ip (escBytes (q.mlen - 4)) := by
    have hright := hs.right.of_src (t := u) (by rw [hrest])
    rw [List.length_append, List.length_append, tokenBytes_length, escBytes_length] at hright
    rwa [huip]
  refine reaches_match hagenda hready humf (by omega) hchain (huoff ▸ h0) (by rw [huoff, huop]; exact hoff) (by omega)
    fun t ht => ?_
  obtain ⟨trest, tready, ⟨tn, tcap⟩, tip, top, tcopied, tkept⟩ := ht
  rw [hmlen, huoff, huop] at tcopied
  rw [huop, hucap] at tkept
  exact ⟨trest.trans (by rw [hrest]), tready, tn.trans hun, tcap.trans hucap, by omega, by omega,
    tkept.holds (Nat.le_refl _) hlits, tcopied, hkept.trans tkept (Nat.le_add_right _ _)⟩

/-- Settles O28: the token, the literal chain, then the end of the stream. -/
theorem wholeEndRuns : Obligations.WholeEndRuns := by
  intro s q ha hp hr h0 hm hne hn hs hcap
  have hchain : escBytes (q.mlen - 4) = [] := by rw [hm]; rfl
  rw [Sequence.encode, hchain] at hn hs
  simp only [List.length_append, tokenBytes_length, escBytes_length, List.length_nil] at hn
  refine (reaches_literals (k := 0) hr (Nat.le_of_eq hn) hs hcap ha hp fun u hu => ?_).exists_runsTo (by omega)
  obtain ⟨hrest, hready, ⟨hun, hucap⟩, huoff, humf, hulit, huip, huop, hlits, hkept⟩ := hu
  have hmf : u.dec.mf = 0 := by rw [humf, hm]; rfl
  have hlit : u.dec.lit ≠ 0 := by rw [hulit]; exact fun e => hne (List.length_eq_zero_iff.1 e)
  have hend : matchLength u = .ok (complete (takeMatchField u) u.dec.cap u.dec.op) := by
    have hn' : u.dec.ip = u.dec.n := by omega
    rw [matchLength_of_ne (by rw [hmf]; decide)]
    exact (finishSequence_of_end (s := takeMatchField u) (huoff.trans h0)).trans
      (congrArg _ (endStep_eq_complete hlit hmf hn'))
  have hcfg : u.cfg = s.cfg := by rw [hrest]
  have hfit : s.cfg.fit u.dec.op = u.dec.op := Config.fit_of_lt (by have := hr.2.2.1; omega)
  refine Reaches.done hend ⟨rfl, rfl, rfl, ?_, ?_, ?_, ?_, ?_, ?_⟩
  · show u.cfg.fit u.dec.op = _
    rw [hcfg, hfit, huop]
  · exact fun i hi => (Memory.get?_forget ..).trans ((if_neg (by omega)).trans (hlits i hi))
  · exact hucap ▸ hkept.forget (by omega)
  · rw [hrest]; rfl
  · rw [hrest]; rfl
  · rw [hrest]; rfl

end Sys2Proof.Machine
end

section
/-! PROOFS. The operands of a token and the escape chain of a length (rules R101 to R108). -/

namespace Sys2Proof.Machine

/-- The value of a token by its fields (rules R71, R101). -/
theorem tokenOf_toNat (off : BitVec 16) (mf lf : BitVec 4) :
    (tokenOf off mf lf).toNat = off.toNat + mf.toNat * 2 ^ 16 + lf.toNat * 2 ^ 20 := by
  simp only [tokenOf, toNat_append_eq_add]
  omega

/-- PACK of what three fields hold is their token (rule R101). -/
theorem pack_fields (off : BitVec 16) (lf mf : BitVec 4) : pack off.toNat lf.toNat mf.toNat = .ok (tokenOf off mf lf) := by
  simp only [pack, BitVec.ofNat_toNat, BitVec.setWidth_eq]
  exact if_pos ⟨off.isLt, lf.isLt, mf.isLt⟩

/-- Settles O4: operands in range are what three fields hold, and PACK of fields is their token. -/
theorem packAndUnpackAreInverse : Obligations.PackAndUnpackAreInverse := by
  refine ⟨fun off lf mf hoff hlf hmf => ?_, fun v => ?_, fun off lf mf hout => if_neg hout⟩
  · obtain ⟨o, rfl⟩ : ∃ o : BitVec 16, o.toNat = off := ⟨.ofNatLT off hoff, rfl⟩
    obtain ⟨l, rfl⟩ : ∃ l : BitVec 4, l.toNat = lf := ⟨.ofNatLT lf hlf, rfl⟩
    obtain ⟨m, rfl⟩ : ∃ m : BitVec 4, m.toNat = mf := ⟨.ofNatLT mf hmf, rfl⟩
    exact ⟨tokenOf o m l, pack_fields o l m, tokenOf_toNat o m l, congrArg _ (tokenOff_tokenOf o m l),
      congrArg _ (tokenMf_tokenOf o m l), congrArg _ (tokenLf_tokenOf o m l)⟩
  · rw [pack_fields, tokenOf_fields]

/-- Settles O7: a chain adds to the accumulator what it stands for above 15; below 15 there is none. -/
theorem escapeChainRoundTrips : Obligations.EscapeChainRoundTrips := by
  refine ⟨fun x rest hx => ⟨?_, escChain_length hx⟩, fun x rest hx => ⟨?_, escBytes_of_lt hx⟩⟩
  · obtain ⟨d, rfl⟩ : ∃ d, x = 15 + d := ⟨x - 15, by omega⟩
    exact escDecode_escChain d 15 rest
  · have hparse := lengthParse_escBytes x rest
    rwa [escBytes_of_lt hx] at hparse

end Sys2Proof.Machine
end

section
/-! PROOFS. How a token starts a chain and how the last byte of a chain goes on (rules R107, R193 to R201, R221): a literal length
known, then an END, a SEQ or a match chain. -/

namespace Sys2Proof.Machine

/-! ### Tokens that start a chain -/

/-- Step 2 where the literal length is saturated (rule R194). -/
theorem literalLength_of_saturated {s : State} (h : s.dec.lf = 15) : literalLength s = .ok (startChain s .literal) := if_pos h

/-- Step 4 where the match length is saturated (rule R196). -/
theorem matchLength_of_saturated {s : State} (h : s.dec.mf = 15) :
    matchLength s = .ok (startChain (takeMatchField s) .mtch) := if_pos h

/-- Settles O13: the four forms are one token each. -/
theorem saturatedLiteralStartsChain : Obligations.SaturatedLiteralStartsChain := by
  intro s off mf
  have starts (o : BitVec 16) (m : BitVec 4) :
      toOutcome (runToken s o m 15) = .next (startChain (takeToken s o m 15) .literal) :=
    congrArg toOutcome (literalLength_of_saturated rfl)
  exact ⟨starts off mf, starts off 15, starts 0 0, starts 0 mf⟩

/-- `mlen` starts at 4 more than the field (rule R196). -/
theorem takeMatchField_of_mf {s : State} {m : BitVec 4} (h : s.dec.mf = m) :
    takeMatchField s = { s with dec := { s.dec with mlen := 4 + m.toNat } } := by rw [takeMatchField, h]

/-- Steps 3 and 4 where the literals fit and the match length is saturated (rules R195, R196). -/
theorem literalStep_startsMatchChain {s : State} (hmf : s.dec.mf = 15) (h1 : s.dec.ip + s.dec.lit ≤ s.dec.n)
    (h2 : s.dec.op + s.dec.lit ≤ s.dec.cap) :
    literalStep s = .ok (startChain (takeMatchField (literalsTaken s)) .mtch) :=
  (literalStep_of_fits h1 h2).trans (matchLength_of_saturated hmf)

/-- Settles O14: the literals taken, then the chain; the two forms differ only in the offset. -/
theorem saturatedMatchStartsChainAfterLiterals : Obligations.SaturatedMatchStartsChainAfterLiterals := by
  intro s off lf _ hlf hn hcap
  have starts (o : BitVec 16) : toOutcome (runToken s o 15 lf) =
      .next (startChain (takeMatchField (literalsTaken (takeToken s o 15 lf))) .mtch) :=
    congrArg toOutcome ((literalLength_of_ne (s := takeToken s o 15 lf) hlf).trans
      (literalStep_startsMatchChain rfl hn hcap))
  exact ⟨(literalsTaken (takeToken s off 15 lf)).dst, ⟨starts off, starts 0⟩,
    literalsAt_literalsTaken (takeToken s off 15 lf), dstKept_literalsTaken (s := takeToken s off 15 lf) hcap⟩

/-! ### A sequence whose literal length is known (rules R195 to R201) -/

/-- An END whose literals end the stream returns (rules R195 to R197, R221). -/
theorem literalStep_completes {s : State} (hoff : s.dec.off = 0) (hmf : s.dec.mf = 0) (hlit : s.dec.lit ≠ 0)
    (hn : s.dec.ip + s.dec.lit = s.dec.n) (hcap : s.dec.op + s.dec.lit ≤ s.dec.cap) :
    literalStep s = .ok (complete (takeMatchField (literalsTaken s)) s.dec.cap (s.dec.op + s.dec.lit)) := by
  have hmf15 : s.dec.mf ≠ 15 := by rw [hmf]; decide
  calc literalStep s
      = matchLength (literalsTaken s) := literalStep_of_fits (Nat.le_of_eq hn) hcap
    _ = finishSequence (takeMatchField (literalsTaken s)) := matchLength_of_ne hmf15
    _ = .ok (endStep (takeMatchField (literalsTaken s))) := finishSequence_of_end hoff
    _ = _ := congrArg _ (endStep_eq_complete hlit hmf hn)

/-- What is copied below the bytes that change stays. -/
theorem LiteralsAt.of_dstKept {s : State} {d d' : Memory} {si di len start cap : Nat} (h : LiteralsAt s d si di len)
    (hk : DstKept d d' start cap) (hle : di + len ≤ start) : LiteralsAt s d' si di len :=
  fun i hi => (hk _ (.inl (by omega))).trans (h i hi)

/-- The state after a SEQ that fails no test: literals and match taken. -/
def sequenceTaken (s : State) : State := matchCopied (takeMatchField (literalsTaken s))

section Sequence

variable {s : State} (hoff : s.dec.off ≠ 0) (hcap : s.dec.op + s.dec.lit + (4 + s.dec.mf.toNat) ≤ s.dec.cap)
  (hstart : s.dec.off.toNat ≤ s.dec.op + s.dec.lit)

include hcap

/-- The literals and the match lie between the old cursor and `cap`. -/
theorem dstKept_sequenceTaken : DstKept s.dst (sequenceTaken s).dst s.dec.op s.dec.cap :=
  (dstKept_literalsTaken (by omega)).trans (dstKept_matchCopied (s := takeMatchField (literalsTaken s)) hcap)
    (Nat.le_add_right _ _)

/-- The match leaves the literals before it. -/
theorem literalsAt_sequenceTaken : LiteralsAt s (sequenceTaken s).dst s.dec.ip s.dec.op s.dec.lit :=
  (literalsAt_literalsTaken s).of_dstKept (dstKept_matchCopied (s := takeMatchField (literalsTaken s)) hcap)
    (Nat.le_refl _)

include hoff hstart

/-- A SEQ that fails no test runs to the next sequence boundary (rules R195 to R201). -/
theorem literalStep_takesSequence (hmf : s.dec.mf ≠ 15) (hn : s.dec.ip + s.dec.lit ≤ s.dec.n) :
    literalStep s = .ok (sequenceTaken s) :=
  calc literalStep s
      = matchLength (literalsTaken s) := literalStep_of_fits hn (by omega)
    _ = finishSequence (takeMatchField (literalsTaken s)) := matchLength_of_ne hmf
    _ = .ok (sequenceTaken s) := finishSequence_of_fits (s := takeMatchField (literalsTaken s)) hoff hstart hcap

/-- The match stands behind the literals (rule R176). -/
theorem matchAt_sequenceTaken (hr : DecoderReady s) (hn : s.dec.ip + s.dec.lit ≤ s.dec.n) :
    MatchAt (sequenceTaken s).dst (s.dec.op + s.dec.lit) s.dec.off.toNat (4 + s.dec.mf.toNat) :=
  have hready : DecoderReady (takeMatchField (literalsTaken s)) := literalsTaken_ready hr hn (by omega)
  matchAt_matchCopied hready hoff hstart

end Sequence

/-! ### Escape bytes -/

/-- Settles O17: the accumulator takes 255 and `ip` one byte. -/
theorem escContAddsAndContinues : Obligations.EscContAddsAndContinues := fun _ => rfl

/-- The last byte of a literal chain taken, and the literal length it gives (rules R107, R194). -/
def literalLengthRead (s : State) (b : Byte) : State :=
  { s with dec := { s.dec with ip := s.dec.ip + 1, acc := s.dec.acc + b.toNat, lit := s.dec.acc + b.toNat } }

/-- The last byte of a match chain taken, and the match length it gives (rules R107, R196). -/
def matchLengthRead (s : State) (b : Byte) : State :=
  { s with dec := { s.dec with ip := s.dec.ip + 1, acc := s.dec.acc + b.toNat, mlen := 4 + (s.dec.acc + b.toNat) } }

section EscTerm

variable {s t : State} {b : Byte}

/-- ESC.TERM at the end of a literal chain is step 3 with the length read (rules R107, R195). -/
theorem exec_escTerm_of_literal (hc : s.dec.chain = .literal) (h : literalStep (literalLengthRead s b) = .ok t) :
    exec (.escTerm b) s = .next t :=
  congrArg toOutcome ((chainDone_of_literal (s := takeEscape s b) hc).trans h)

/-- ESC.TERM at the end of a match chain is step 5 or 6 with the length read (rules R107, R197, R199). -/
theorem exec_escTerm_of_match (hc : s.dec.chain = .mtch) (h : finishSequence (matchLengthRead s b) = .ok t) :
    exec (.escTerm b) s = .next t :=
  congrArg toOutcome ((chainDone_of_match (s := takeEscape s b) hc).trans h)

end EscTerm

/-- Settles O18: the sequence whose literal length is the one read. -/
theorem escTermFinishesLiteralChainOfSeq : Obligations.EscTermFinishesLiteralChainOfSeq := by
  intro s b hr _ hc hoff hmf hn hcap hstart
  have hready : DecoderReady (literalLengthRead s b) := ⟨show s.dec.ip + 1 ≤ s.dec.n by omega, hr.2⟩
  have hstep := literalStep_takesSequence (s := literalLengthRead s b) hoff hcap hstart hmf hn
  exact ⟨(sequenceTaken (literalLengthRead s b)).dst, exec_escTerm_of_literal hc hstep,
    literalsAt_sequenceTaken (s := literalLengthRead s b) hcap, matchAt_sequenceTaken hoff hcap hstart hready hn,
    dstKept_sequenceTaken (s := literalLengthRead s b) hcap⟩

/-- Settles O19: the END whose literal length is the one read; its slack is forgotten again at completion. -/
theorem escTermFinishesLiteralChainOfEnd : Obligations.EscTermFinishesLiteralChainOfEnd := by
  intro s b hr _ hc hoff hmf hpos hn hcap
  obtain ⟨-, -, hwidth, -⟩ := hr
  have hfits := complete_of_fits (s := takeMatchField (literalsTaken (literalLengthRead s b)))
    (Nat.lt_of_le_of_lt hcap hwidth) s.dec.cap
  have hstep := (literalStep_completes (s := literalLengthRead s b) hoff hmf (Nat.ne_of_gt hpos) hn hcap).trans
    (congrArg _ hfits)
  rw [takeMatchField_of_mf (s := literalsTaken (literalLengthRead s b)) hmf] at hstep
  exact ⟨(literalsTaken (literalLengthRead s b)).dst.forget (s.dec.op + (s.dec.acc + b.toNat)) s.dec.cap,
    exec_escTerm_of_literal hc hstep, (literalsAt_literalsTaken (literalLengthRead s b)).forget (Nat.le_refl _) _,
    (dstKept_literalsTaken (s := literalLengthRead s b) hcap).forget (Nat.le_add_right _ _),
    fun i hlo hhi => (Memory.get?_forget ..).trans (if_pos ⟨hlo, hhi⟩)⟩

/-- Settles O20: the literals of the length read, then the match chain. -/
theorem escTermStartsMatchChain : Obligations.EscTermStartsMatchChain := by
  intro s b _ _ hc hmf hn hcap
  have hstep := literalStep_startsMatchChain (s := literalLengthRead s b) hmf hn hcap
  rw [takeMatchField_of_mf (s := literalsTaken (literalLengthRead s b)) hmf] at hstep
  exact ⟨(literalsTaken (literalLengthRead s b)).dst, exec_escTerm_of_literal hc hstep,
    literalsAt_literalsTaken (literalLengthRead s b), dstKept_literalsTaken (s := literalLengthRead s b) hcap⟩

/-- Settles O21: the match of the length read. -/
theorem escTermFinishesMatchChain : Obligations.EscTermFinishesMatchChain := by
  intro s b hr _ hc hoff hstart hcap
  have hstep := finishSequence_of_fits (s := matchLengthRead s b) hoff hstart hcap
  have hcopied : MatchAt (matchCopied (matchLengthRead s b)).dst s.dec.op s.dec.off.toNat (4 + (s.dec.acc + b.toNat)) :=
    matchAt_matchCopied (s := { s with dec := { s.dec with mlen := 4 + (s.dec.acc + b.toNat) } }) hr hoff hstart
  exact ⟨(matchCopied (matchLengthRead s b)).dst, exec_escTerm_of_match hc hstep, hcopied,
    dstKept_matchCopied (s := matchLengthRead s b) hcap⟩

end Sys2Proof.Machine
end

section
/-! PROOFS. The hash index (rules R31, R121, R123, R124, R126) and the end of a command (rules R128, R215, R221, R222, R255). -/

namespace Sys2Proof.Machine

/-! ### The end of a command -/

/-- COMPRESS on an idle block is refused where a byte of SCRATCH is not 0 (rules R128, R255). -/
theorem Inv.execCompress_refused {t : State} (h : Inv t) (hidle : t.phase = .idle)
    (hscr : ∃ i, i < scratchBytes ∧ t.scratch.get? i ≠ some 0) : execCompress t = .refused .scratchNotZero := by
  obtain ⟨i, hi, hne⟩ := hscr
  exact execCompress_scratchNotZero (h.busy_eq_false.2 hidle)
    fun hz => hne ((Scratch.allZero_iff h.scratch).1 hz i hi)

/-- A COMPRESS that ends leaves SCRATCH not zero, and its results are a success or DestinationTooSmall (rules R215, R216, R255). -/
theorem EncPost.ends_of_idle {s t : State} (hp : EncPost s t) (hidle : t.phase = .idle) :
    (∃ i, i < scratchBytes ∧ t.scratch.get? i ≠ some 0) ∧
      ((t.status = 2 ∧ t.errKind = 0) ∨ (t.status = 6 ∧ t.result = s.cfg.allOnes ∧ t.errKind = 1)) := by
  rcases hp.ends with ⟨-, hends⟩ | ⟨hruns, -⟩
  · exact hends
  · rcases hruns with hrun | hrun <;> simp [hrun] at hidle

/-- A DECOMPRESS that ends has the results of a success or of MalformedStream (rules R215, R217). -/
theorem DecPost.ends_of_idle {s t : State} (hp : DecPost s t) (hidle : t.phase = .idle) :
    (t.status = 2 ∧ t.errKind = 0) ∨ (t.status = 6 ∧ t.result = s.cfg.allOnes ∧ t.errKind = 2) := by
  rcases hp.ends with ⟨-, hends⟩ | ⟨hruns, -⟩
  · exact hends
  · exact absurd hidle hruns.ne_idle

/-- Settles O41: the ends of the two inversions; a byte that a COMPRESS leaves not 0 has the next one refused. -/
theorem commandsEndInDone : Obligations.CommandsEndInDone := by
  intro s t h ha hruns ht hidle
  have hinv : Inv t := stepKeepsInvariant s t h ht
  rw [step_nil ha] at ht
  rcases h.engine_cases ht with ⟨hp, -⟩ | ⟨he, hp⟩ | ⟨hd, hp⟩
  · exact absurd hp hruns
  · obtain ⟨hscr, hends⟩ := hp.ends_of_idle hidle
    exact ⟨hends.imp_right fun ⟨hst, hres, herr⟩ => ⟨hst, hres, fun _ => herr, fun hd => absurd hd he.not_decoding⟩,
      fun _ => hinv.execCompress_refused hidle hscr⟩
  · have hends := hp.ends_of_idle hidle
    exact ⟨hends.imp_right fun ⟨hst, hres, herr⟩ => ⟨hst, hres, fun he => absurd hd he.not_decoding, fun _ => herr⟩,
      fun he => absurd hd he.not_decoding⟩

/-! ### HASH -/

/-- The hash of a window as a number (rule R121). -/
theorem hashWord_toNat (mult : BitVec 64) (w : Nat) :
    (hashWord mult (BitVec.ofNat 64 w)).toNat = w * mult.toNat % 2 ^ 64 / 2 ^ 52 := by
  have hfits : w * mult.toNat % 2 ^ 64 / 2 ^ 52 < 2 ^ 12 := by omega
  rw [hashWord, BitVec.extractLsb'_toNat, BitVec.toNat_mul, BitVec.toNat_ofNat, Nat.mod_mul_mod, Nat.shiftRight_eq_div_pow,
    Nat.mod_eq_of_lt hfits]

/-- Settles O46: the window is readable, and its hash is `hashWord_toNat`. -/
theorem hashIsTopBitsOfProduct : Obligations.HashIsTopBitsOfProduct :=
  fun s p hp => ⟨_, hashAt_ok s p hp, hashWord_toNat _ _⟩

/-! ### LOOKUP_INSERT and INSERT -/

/-- INSERT where the position fits (rule R124). -/
theorem insertPosition_ok (s : State) (h : BitVec 12) (p : Nat) (hp : p < 65536) :
    insertPosition s h p = .ok { s with scratch := s.scratch.setSlot h (BitVec.ofNat 16 p) } := if_pos hp

/-- A position that fits is read back from its slot (rules R31, R123). -/
theorem Scratch.slot_setSlot_self_toNat (t : Scratch) (h : BitVec 12) {p : Nat} (hp : p < 65536) :
    ((t.setSlot h (BitVec.ofNat 16 p)).slot h).toNat = p := by
  rw [Scratch.slot_setSlot, if_pos rfl, BitVec.toNat_ofNat, Nat.mod_eq_of_lt hp]

/-- A write to a slot leaves every other slot as it was (rule R31). -/
theorem Scratch.slot_setSlot_of_ne (t : Scratch) {h k : BitVec 12} (hk : k ≠ h) (p : BitVec 16) :
    (t.setSlot h p).slot k = t.slot k := by
  rw [Scratch.slot_setSlot, if_neg hk.symm]

/-- A search looks up a position that fits a slot, in an index of earlier ones (rules R126, R146). -/
theorem Inv.search_positions {s : State} (h : Inv s) (hp : s.phase = .encSearch) :
    s.enc.r < 65536 ∧ SlotsBelow s := by
  have henc := h.encoder
  simp only [EncoderInv, hp] at henc
  obtain ⟨-, hwindow, hn, -, -, -, hslots⟩ := henc
  have hmax : s.enc.n ≤ 65536 := hn
  exact ⟨by omega, hslots⟩

/-- Settles O47: both operations as one write to a slot; the answer of a search is bounded by the invariant. -/
theorem lookupInsertReadsThenInserts : Obligations.LookupInsertReadsThenInserts := by
  refine ⟨fun s h p hp => ⟨?_, ?_⟩, Scratch.zero_slot, fun s h hinv hphase => ?_⟩
  · exact ⟨_, lookupInsert_ok s h p hp, rfl, s.scratch.slot_setSlot_self_toNat h hp,
      fun k hk => s.scratch.slot_setSlot_of_ne hk _, rfl⟩
  · exact ⟨_, insertPosition_ok s h p hp, s.scratch.slot_setSlot_self_toNat h hp,
      fun k hk => s.scratch.slot_setSlot_of_ne hk _, rfl⟩
  · obtain ⟨hr, hslots⟩ := hinv.search_positions hphase
    exact ⟨_, lookupInsert_ok s h s.enc.r hr, hslots h⟩

end Sys2Proof.Machine
end

section
/-! PROOFS. Match extension (rules R8, R42, R136, R137, R138): the bits of the word compared are the bits of its bytes, so its
lowest set bit lies in the first byte that differs; then the two phases by induction over their passes. -/

namespace Sys2Proof.Machine

/-! ### The bytes of a word -/

/-- Bit `8j + k` of a little-endian value is bit `k` of byte `j` (rule R42). -/
theorem testBit_leValue_bytesFrom (read : Nat → Byte) (a k : Nat) {i : Nat} (hi : i < 8 * k) :
    (leValue (bytesFrom read a k)).testBit i = (read (a + i / 8)).getLsbD (i % 8) := by
  induction k generalizing a i with
  | zero => omega
  | succ k ih =>
    have hcons : leValue (bytesFrom read a (k + 1)) =
        2 ^ 8 * leValue (bytesFrom read (a + 1) k) + (read a).toNat := Nat.add_comm _ _
    rw [hcons, Nat.testBit_two_pow_mul_add _ (read a).isLt]
    by_cases h8 : i < 8
    · rw [if_pos h8, Nat.div_eq_of_lt h8, Nat.mod_eq_of_lt h8]
      rfl
    · have hbyte : a + 1 + (i - 8) / 8 = a + i / 8 := by omega
      have hbit : (i - 8) % 8 = i % 8 := by omega
      rw [if_neg h8, ih (a + 1) (by omega), hbyte, hbit]

/-- Bit `8j + k` of the word at an index is bit `k` of the byte `j` further on (rules R42, R138). -/
theorem word64_getLsbD (read : Nat → Byte) (a : Nat) {i : Nat} (hi : i < 64) :
    (word64 read a).getLsbD i = (read (a + i / 8)).getLsbD (i % 8) := by
  rw [word64, BitVec.getLsbD_ofNat, decide_eq_true hi, Bool.true_and, testBit_leValue_bytesFrom read a 8 hi]

/-- Where the bits `8j` to `8j + 7` of two words' difference are 0, their bytes `j` agree (rule R138). -/
theorem byte_eq_of_xor_bits_false {read : Nat → Byte} {a b j : Nat} (hj : j < 8)
    (h : ∀ k, k < 8 → (word64 read a ^^^ word64 read b).getLsbD (8 * j + k) = false) :
    read (a + j) = read (b + j) := by
  refine BitVec.eq_of_getLsbD_eq fun k hk => ?_
  have hbit := h k hk
  have hdiv : (8 * j + k) / 8 = j := by omega
  have hmod : (8 * j + k) % 8 = k := by omega
  rw [BitVec.getLsbD_xor, word64_getLsbD read a (by omega), word64_getLsbD read b (by omega), hdiv, hmod] at hbit
  simpa using hbit

/-- The lowest set bit of a nonzero word is set, and every bit below it is not (rule R8). -/
theorem ctz64_spec {x : BitVec 64} (h : x ≠ 0) :
    x.getLsbD (ctz64 x) = true ∧ ∀ i, i < ctz64 x → x.getLsbD i = false := by
  have hlt := ctz64_lt h
  unfold ctz64 at hlt ⊢
  cases hf : (List.range 64).find? (fun i => x.getLsbD i) with
  | none => simp [hf] at hlt
  | some i =>
    obtain ⟨hset, -, hbelow⟩ := List.find?_range_eq_some.1 hf
    exact ⟨hset, fun j hj => by simpa using hbelow j hj⟩

/-- Two words whose difference is 0 have the same eight bytes (rule R138). -/
theorem bytes_eq_of_word64_xor_zero {read : Nat → Byte} {a b : Nat} (h : word64 read a ^^^ word64 read b = 0) :
    ∀ j, j < 8 → read (a + j) = read (b + j) :=
  fun _ hj => byte_eq_of_xor_bits_false hj fun _ _ => by rw [h]; exact BitVec.getLsbD_zero

/-- `ctz64(x) / 8` is the first byte at which two words differ (rule R138). -/
theorem first_byte_ne_of_word64_xor {read : Nat → Byte} {a b : Nat} (h : word64 read a ^^^ word64 read b ≠ 0) :
    let j := ctz64 (word64 read a ^^^ word64 read b) / 8
    read (a + j) ≠ read (b + j) ∧ ∀ i, i < j → read (a + i) = read (b + i) := by
  intro j
  have hlt := ctz64_lt h
  obtain ⟨hset, hbelow⟩ := ctz64_spec h
  refine ⟨fun heq => ?_, fun i hi => byte_eq_of_xor_bits_false (by omega) fun k hk => hbelow _ (by omega)⟩
  rw [BitVec.getLsbD_xor, word64_getLsbD read a hlt, word64_getLsbD read b hlt, heq, Bool.xor_self] at hset
  exact Bool.false_ne_true hset

/-! ### The walk -/

/-- From `b` on to below `e` every byte equals the one `d` before it, and at `e` they differ or the end is reached (rule R137). -/
def EndsAgreement (read : Nat → Byte) (d b stop e : Nat) : Prop :=
  (e = stop ∨ read (e - d) ≠ read e) ∧ ∀ i, b ≤ i → i < e → read (i - d) = read i

section EndsAgreement

variable {read : Nat → Byte} {a d b stop : Nat}

/-- What ends the agreement from `k` agreeing bytes further on ends it from here. -/
theorem EndsAgreement.of_agree {k e : Nat} (hab : a + d = b) (hk : ∀ j, j < k → read (a + j) = read (b + j))
    (h : EndsAgreement read d (b + k) stop e) : EndsAgreement read d b stop e := by
  obtain ⟨hend, hagree⟩ := h
  refine ⟨hend, fun i hbi hie => ?_⟩
  by_cases hi : i < b + k
  · have := hk (i - b) (by omega)
    rwa [Nat.add_sub_cancel' hbi, show a + (i - b) = i - d by omega] at this
  · exact hagree i (by omega) hie

/-- An answer that is the end itself or shows a difference ends the agreement where it starts. -/
theorem EndsAgreement.here (h : b = stop ∨ read (b - d) ≠ read b) : EndsAgreement read d b stop b :=
  ⟨h, fun _ hbi hib => absurd hib (Nat.not_lt.2 hbi)⟩

/-- The byte phase, with fuel for every byte left (rule R136). -/
theorem extendBytes_endsAgreement {fuel : Nat} (hab : a + d = b) (hb : b ≤ stop) (hf : stop - b ≤ fuel) :
    EndsAgreement read d b stop (extendBytes read fuel a b stop) := by
  induction fuel generalizing a b with
  | zero => exact .here (.inl (by omega))
  | succ fuel ih =>
    rw [extendBytes]
    by_cases hc : b < stop ∧ read a = read b
    · rw [if_pos hc]
      refine .of_agree (k := 1) hab (fun j hj => ?_) (ih (by omega) (by omega) (by omega))
      rw [Nat.lt_one_iff.1 hj]
      exact hc.2
    · rw [if_neg hc]
      refine .here ((Nat.eq_or_lt_of_le hb).imp_right fun hlt heq => hc ⟨hlt, ?_⟩)
      rwa [show b - d = a by omega] at heq

/-- The word phase, with fuel for every pass left: eight equal bytes are stepped over, a difference is found by its lowest set
bit, and fewer than eight bytes are left to the byte phase (rule R136). -/
theorem extendWords_endsAgreement {fuel : Nat} (hab : a + d = b) (hb : b ≤ stop) (hf : stop - b < fuel) :
    EndsAgreement read d b stop (extendWords read fuel a b stop) := by
  induction fuel generalizing a b with
  | zero => omega
  | succ fuel ih =>
    rw [extendWords]
    by_cases h8 : 8 ≤ stop - b
    · rw [if_pos h8]
      by_cases hx : word64 read a ^^^ word64 read b = 0
      · rw [if_pos hx]
        exact .of_agree hab (bytes_eq_of_word64_xor_zero hx) (ih (by omega) (by omega) (by omega))
      · rw [if_neg hx]
        obtain ⟨hne, heq⟩ := first_byte_ne_of_word64_xor hx
        generalize ctz64 (word64 read a ^^^ word64 read b) / 8 = j at hne heq ⊢
        refine .of_agree hab heq (.here (.inr ?_))
        rwa [show b + j - d = a + j by omega]
    · rw [if_neg h8]
      exact extendBytes_endsAgreement hab hb (Nat.le_refl _)

end EndsAgreement

/-- Settles O48: the answer's bounds are `extendWalk_bounds`, what ends the walk is `extendWords_endsAgreement`. -/
theorem extendFindsFirstMismatch : Obligations.ExtendFindsFirstMismatch := by
  intro read a b stop hab hb
  obtain ⟨hlow, hhigh⟩ := extendWalk_bounds read a b stop hb
  obtain ⟨hend, hagree⟩ : EndsAgreement read (b - a) b stop (extendWalk read a b stop) :=
    extendWords_endsAgreement (Nat.add_sub_cancel' (Nat.le_of_lt hab)) hb (Nat.lt_succ_self _)
  exact ⟨hlow, hhigh, hend, fun i hbi hie => ⟨by omega, hagree i hbi hie⟩⟩

end Sys2Proof.Machine
end

section
/-! PROOFS. COMPRESS ends (rules R165, R219): every turn of the encoder ends the command or lowers a bound on the turns left. -/

namespace Sys2Proof.Machine

/-! ### Turns of the encoder -/

/-- A turn of the encoder is an encoder step. -/
theorem Inv.encPost_of_step {s t : State} (h : Inv s) (ha : s.agenda = []) (he : s.encoding) (ht : step s = .next t) :
    EncPost s t := by
  rw [step_nil ha] at ht
  rcases h.engine_cases ht with ⟨hidle, -⟩ | ⟨-, hp⟩ | ⟨hd, -⟩
  · exact absurd hidle he.ne_idle
  · exact hp
  · exact absurd hd he.not_decoding

/-- An encoder step leaves the agenda as it was. -/
theorem EncPost.agenda {s t : State} (hp : EncPost s t) : t.agenda = s.agenda := by
  obtain ⟨-, -, hagenda, -⟩ := hp.frame
  exact hagenda

/-- An encoder step reads the same source as the one before it. -/
theorem EncPost.srcByte {s t : State} (hp : EncPost s t) : t.srcByte = s.srcByte := by
  obtain ⟨-, -, -, -, -, -, -, hsrc⟩ := hp.frame
  funext i
  rw [State.srcByte, State.srcByte, hsrc]

/-- An encoder step ends the command or leaves the encoder running. -/
theorem EncPost.idle_or_encoding {s t : State} (hp : EncPost s t) : t.phase = .idle ∨ t.encoding :=
  hp.ends.imp And.left fun hruns => .inr hruns.1

/-- FLUSH ends the command (rule R157). -/
theorem Inv.idle_of_step_flush {s t : State} (h : Inv s) (ha : s.agenda = []) (hp : s.phase = .encFlush)
    (ht : step s = .next t) : t.phase = .idle := by
  obtain ⟨u, hu, -, hidle⟩ := encPost_flushStep hp h.encoder
  rw [step_flush ha hp hu] at ht
  cases ht
  exact hidle

/-- The most turns a running encoder still takes: each pass through SEARCH moves `r` on. -/
def State.encoderTurns (s : State) : Nat :=
  match s.phase with
  | .encStart => s.enc.n + 2
  | .encSearch => s.enc.n - s.enc.r + 2
  | _ => 1

theorem State.encoderTurns_le {s : State} : s.encoderTurns ≤ s.enc.n + 2 := by
  unfold State.encoderTurns
  split <;> omega

/-- A turn that leaves the encoder running leaves it fewer turns (rules R147, R151, R156). -/
theorem Inv.encoderTurns_lt {s t : State} (h : Inv s) (ha : s.agenda = []) (he : s.encoding) (ht : step s = .next t)
    (hne : t.phase ≠ .idle) : t.encoderTurns < s.encoderTurns := by
  rcases (h.encPost_of_step ha he ht).ends with ⟨hidle, -⟩ | ⟨hruns, -, -, -, hinv, -, hn, -, hmoves⟩
  · exact absurd hidle hne
  rcases hruns with hsearch | hflush
  · simp only [EncoderInv, hsearch] at hinv
    obtain ⟨hr1, hr8, -⟩ := hinv
    have hmoves := hmoves hsearch
    rcases he with hp | hp | hp
    · simp only [State.encoderTurns, hp, hsearch]
      omega
    · simp only [hp, reduceCtorEq, false_or] at hmoves
      simp only [State.encoderTurns, hp, hsearch]
      omega
    · exact absurd (h.idle_of_step_flush ha hp ht) hne
  · rcases he with hp | hp | hp
    · simp only [State.encoderTurns, hp, hflush]
      omega
    · simp only [State.encoderTurns, hp, hflush]
      omega
    · exact absurd (h.idle_of_step_flush ha hp ht) hne

/-- A running encoder comes to its end within its bound. -/
theorem Inv.encoder_ends {s : State} (h : Inv s) (ha : s.agenda = []) (he : s.encoding) :
    ∃ k t, k ≤ s.encoderTurns ∧ runsTo k s t ∧ t.phase = .idle ∧ t.done = true := by
  induction hm : s.encoderTurns using Nat.strong_induction_on generalizing s with
  | h m ih =>
    obtain ⟨t, ht⟩ : ∃ t, step s = .next t := by
      rw [step_nil ha]
      exact h.selectEngine_next
    have hp := h.encPost_of_step ha he ht
    have hpos : 1 ≤ m := by
      rw [← hm, State.encoderTurns]
      split <;> omega
    by_cases hidle : t.phase = .idle
    · refine ⟨1, t, hpos, runsTo_succ ht rfl, hidle, ?_⟩
      rcases hp.ends_of_idle hidle with ⟨-, ⟨hst, -⟩ | ⟨hst, -⟩⟩ <;> rw [State.done, hst] <;> rfl
    · have hlt := hm ▸ h.encoderTurns_lt ha he ht hidle
      obtain ⟨k, u, hk, hrun, hend⟩ := ih _ hlt (stepKeepsInvariant s t h ht) (hp.agenda.trans ha)
        (hp.idle_or_encoding.resolve_left hidle) rfl
      exact ⟨k + 1, u, by omega, runsTo_succ ht hrun, hend⟩

/-- Settles O45: the bound of `Inv.encoder_ends` is at most `n + 2`. -/
theorem compressAlwaysCompletes : Obligations.CompressAlwaysCompletes := by
  intro s h ha he
  obtain ⟨k, t, hk, hend⟩ := h.encoder_ends ha he
  exact ⟨k, t, hk.trans State.encoderTurns_le, hend⟩

end Sys2Proof.Machine
end

section
/-! PROOFS. One step of the encoder: the entry tests (rules R146, R147) and one pass through SEARCH (rules R148 to R156), a miss, a
match dropped or a match emitted. -/

namespace Sys2Proof.Machine

/-! ### The entry tests -/

theorem encStart_of_long {s : State} (h : 65536 < s.enc.n) : encStart s = raise s .sourceTooLong := if_pos h

theorem encStart_of_flush {s : State} (hn : s.enc.n ≤ 65536) (h : s.enc.n < s.enc.r + s.cfg.searchTail) :
    encStart s = { s with phase := .encFlush } := (if_neg (Nat.not_lt.2 hn)).trans (if_pos h)

theorem encStart_of_search {s : State} (hn : s.enc.n ≤ 65536) (h : s.enc.r + s.cfg.searchTail ≤ s.enc.n) :
    encStart s = { s with phase := .encSearch } := (if_neg (Nat.not_lt.2 hn)).trans (if_neg (Nat.not_lt.2 h))

/-- Settles O52: the two tests in their order; the failure forgets DST below `cap` and SCRATCH. -/
theorem encoderEntryTests : Obligations.EncoderEntryTests := by
  intro s ha hp
  have hstep : step s = .next (encStart s) := by rw [step_nil ha, selectEngine, hp]; rfl
  refine ⟨fun hlong => ?_, fun hn hshort => ?_, fun hn hfits => ?_⟩
  · have hget := Memory.get?_forget s.dst 0 s.enc.cap
    rw [hstep, encStart_of_long hlong]
    exact ⟨_, rfl, rfl, fun i hi => (hget i).trans (if_pos ⟨Nat.zero_le i, hi⟩),
      fun i hi => (hget i).trans (if_neg fun hlt => Nat.not_lt.2 hi hlt.2), fun i _ => Scratch.forget_get? s.scratch i⟩
  · rw [hstep, encStart_of_flush hn hshort]
  · rw [hstep, encStart_of_search hn hfits]

/-! ### What the invariant says of the encoder's registers -/

/-- Just started (rules R18, R147). -/
theorem Inv.start_registers {s : State} (h : Inv s) (hp : s.phase = .encStart) :
    s.enc.r = 1 ∧ s.enc.anchor = 0 ∧ s.enc.o = 0 ∧ s.enc.miss = 0 ∧ SlotsBelow s := by
  have henc := h.encoder
  simp only [EncoderInv, hp] at henc
  obtain ⟨hr, hanchor, ho, hmiss, -, hslots⟩ := henc
  exact ⟨hr, hanchor, ho, hmiss, hslots⟩

/-- In a search (rules R126, R147, R158). -/
theorem Inv.search_registers {s : State} (h : Inv s) (hp : s.phase = .encSearch) :
    (1 ≤ s.enc.r ∧ s.enc.r + 8 ≤ s.enc.n ∧ s.enc.n ≤ 65536) ∧ s.enc.anchor ≤ s.enc.r ∧ s.enc.o ≤ s.enc.cap ∧
      SlotsBelow s := by
  have henc := h.encoder
  simp only [EncoderInv, hp] at henc
  obtain ⟨hr, hwindow, hn, hanchor, ho, -, hslots⟩ := henc
  exact ⟨⟨hr, hwindow, hn⟩, hanchor, ho, hslots⟩

/-- At FLUSH (rules R157, R158). -/
theorem Inv.flush_registers {s : State} (h : Inv s) (hp : s.phase = .encFlush) :
    s.enc.anchor ≤ s.enc.n ∧ s.enc.o ≤ s.enc.cap := by
  have henc := h.encoder
  simp only [EncoderInv, hp] at henc
  obtain ⟨hanchor, -, ho, -⟩ := henc
  exact ⟨hanchor, ho⟩

/-- The lookahead is at least a hash window (rule R6). -/
theorem Inv.lookahead_ge {s : State} (h : Inv s) : 8 ≤ s.cfg.lookahead := by
  have hcfg := h.cfg
  simp only [Config.wf, Bool.and_eq_true, decide_eq_true_eq] at hcfg
  obtain ⟨⟨-, hlook⟩, -⟩ := hcfg
  exact hlook

/-! ### The candidate (rules R148, R150) -/

/-- A window that lies in the source has the same hash on the same source (rule R121). -/
theorem hashAt_congr {s t : State} {p : Nat} (hcfg : t.cfg = s.cfg) (hn : t.enc.n = s.enc.n)
    (hsrc : ∀ i, i < s.enc.n → t.srcByte i = s.srcByte i) (hp : p + 8 ≤ s.enc.n) : hashAt t p = hashAt s p := by
  rw [hashAt_ok s p hp, hashAt_ok t p (hn ▸ hp), hcfg, bytesFrom_eq_of_agree_below hsrc hp]

/-- Two little-endian values of one width are equal exactly where their bytes are. -/
theorem leValue_bytesFrom_eq_iff (read : Nat → Byte) (a b k : Nat) :
    leValue (bytesFrom read a k) = leValue (bytesFrom read b k) ↔ ∀ j, j < k → read (a + j) = read (b + j) := by
  induction k generalizing a b with
  | zero => simp [bytesFrom]
  | succ k ih =>
    have hcons : leValue (bytesFrom read a (k + 1)) = leValue (bytesFrom read b (k + 1)) ↔
        read a = read b ∧ leValue (bytesFrom read (a + 1) k) = leValue (bytesFrom read (b + 1) k) := by
      have h1 := (read a).isLt
      have h2 := (read b).isLt
      rw [BitVec.toNat_eq, bytesFrom, bytesFrom, leValue, leValue]
      omega
    rw [hcons, ih]
    simp only [Nat.add_assoc, Nat.add_comm 1]
    exact ⟨fun ⟨h0, h⟩ j hj => by cases j with | zero => exact h0 | succ j => exact h j (by omega),
      fun h => ⟨h 0 (by omega), fun j hj => h (j + 1) (by omega)⟩⟩

/-- The state of a pass after its LOOKUP_INSERT (rules R123, R148). -/
def lookedUp (s : State) (h : BitVec 12) : State :=
  { s with
    scratch := s.scratch.setSlot h (BitVec.ofNat 16 s.enc.r)
    enc := { s.enc with h := h, q := s.scratch.slot h } }

section Pass

variable {s : State} {h : BitVec 12} {q : Nat} (hinv : Inv s) (hp : s.phase = .encSearch) (hslot : SearchSlotIs s h q)
include hinv hp hslot

/-- A pass up to its candidate test, whose answer `b` is given (rules R148, R150). -/
theorem searchStep_eq {b : Bool} (hb : b = true ↔ ∀ j, j < 4 → s.srcByte (q + j) = s.srcByte (s.enc.r + j)) :
    searchStep s = if b then searchMatch (lookedUp s h) else .ok (searchMiss (lookedUp s h)) := by
  obtain ⟨hh, rfl⟩ := hslot
  obtain ⟨⟨-, hwindow, hn⟩, -, -, hbelow⟩ := hinv.search_registers hp
  have hq : (s.scratch.slot h).toNat < s.enc.r := hbelow h
  have hlookup : lookupInsert s h s.enc.r = .ok (lookedUp s h) := lookupInsert_ok s h _ (by omega)
  have htest : candidateAccepted (lookedUp s h) = .ok b := by
    rw [candidateAccepted_ok (lookedUp s h) (by simp only [lookedUp]; omega) (by simp only [lookedUp]; omega)]
    refine congrArg Except.ok (Bool.eq_iff_iff.2 ?_)
    rw [hb, decide_eq_true_iff]
    exact leValue_bytesFrom_eq_iff s.srcByte _ _ 4
  simp only [searchStep, hh, hlookup, htest]
  cases b <;> rfl

/-- A pass whose candidate differs (rule R151). -/
theorem step_of_miss (ha : s.agenda = []) {j : Nat} (hj : j < 4) (hne : s.srcByte (q + j) ≠ s.srcByte (s.enc.r + j)) :
    step s = .next (searchMiss (lookedUp s h)) := by
  rw [step_nil ha, selectEngine, hp]
  refine congrArg toOutcome (searchStep_eq hinv hp hslot (b := false) ?_)
  exact iff_of_false Bool.false_ne_true fun hall => hne (hall j hj)

end Pass

/-- What the slot looked up holds, as the register `q` takes it. -/
theorem SearchSlotIs.slot_eq {s : State} {h : BitVec 12} {q : Nat} (hslot : SearchSlotIs s h q) :
    s.scratch.slot h = BitVec.ofNat 16 q := by
  rw [← hslot.2, BitVec.ofNat_toNat, BitVec.setWidth_eq]

/-- A pass looks up a slot (rule R148). -/
theorem Inv.exists_searchSlot {s : State} (h : Inv s) (hp : s.phase = .encSearch) : ∃ k q, SearchSlotIs s k q := by
  obtain ⟨⟨-, hwindow, -⟩, -⟩ := h.search_registers hp
  exact ⟨_, _, hashAt_ok s _ hwindow, rfl⟩

/-- Settles O53: the pass is `step_of_miss`. -/
theorem missAdvancesByAcceleratingStep : Obligations.MissAdvancesByAcceleratingStep := by
  intro s h q j hinv ha hp hslot hj hne
  refine ⟨_, step_of_miss hinv hp hslot ha hj hne, ?_⟩
  rw [← hslot.slot_eq]
  rfl

/-! ### The match (rules R152 to R156) -/

/-- The sequence of a measured match (rules R72, R155). -/
def State.measuredSequence (s : State) : Sequence :=
  ⟨BitVec.ofNat 16 s.enc.off, bytesFrom s.srcByte s.enc.anchor s.enc.lit, s.enc.mlen⟩

theorem State.measuredSequence_length (s : State) :
    s.measuredSequence.encode.length = sequenceSize s.enc.lit s.enc.mlen := by
  rw [State.measuredSequence, sequence_encode_length, bytesFrom_length]

/-- A match whose sequence does not fit is dropped (rule R154). -/
theorem emitMatch_of_noRoom {s : State}
    (hroom : s.enc.cap - s.enc.o < s.measuredSequence.encode.length + s.cfg.encMargin) :
    emitMatch s = .ok { s with phase := .encFlush } := by
  rw [State.measuredSequence_length] at hroom
  exact if_pos hroom

/-- A match whose sequence fits has just its bytes written, and the search goes on from its end (rules R155, R156). -/
theorem emitMatch_of_room {s : State} (hoff : s.enc.off < 65536) (hn : s.enc.anchor + s.enc.lit ≤ s.enc.n)
    (ho : s.enc.o ≤ s.enc.cap) (hroom : s.measuredSequence.encode.length + s.cfg.encMargin ≤ s.enc.cap - s.enc.o) :
    ∃ u, emitMatch s = continueSearch (matchTaken u) ∧ Wrote s u s.measuredSequence.encode := by
  have hsize := s.measuredSequence_length
  obtain ⟨u, hu, hw⟩ := emit_ok s s.enc.off s.enc.lit s.enc.mlen hoff hn (by omega)
  refine ⟨u, ?_, hw⟩
  rw [emitMatch, if_neg (by omega), hu]

/-- The search ends where the lookahead would overrun the source (rule R156). -/
theorem continueSearch_of_end {s : State} (h : s.enc.n < s.enc.r + s.cfg.lookahead) :
    continueSearch s = .ok { s with phase := .encFlush } := if_pos h

/-- The search goes on with the position before `r` inserted (rule R156). -/
theorem continueSearch_of_lookahead {s : State} {g : BitVec 12} (h : s.enc.r + s.cfg.lookahead ≤ s.enc.n)
    (hr : s.enc.r - 1 < 65536) (hg : hashAt s (s.enc.r - 1) = .ok g) :
    continueSearch s = .ok { s with
      phase := .encSearch, scratch := s.scratch.setSlot g (BitVec.ofNat 16 (s.enc.r - 1)) } := by
  rw [continueSearch, if_neg (Nat.not_lt.2 h)]
  simp only [hg, insertPosition_ok _ g _ hr]

/-- Where the match with a candidate ends (rule R152). -/
def State.matchEndFrom (s : State) (q : Nat) : Nat := extendWalk s.srcByte (q + 4) (s.enc.r + 4) s.enc.n

/-- A pass whose candidate agrees, its match measured up to `e`: the state that `emitMatch` takes (rules R152, R153). -/
def matchMeasuredTo (s : State) (h : BitVec 12) (q e : Nat) : State :=
  { s with
    scratch := s.scratch.setSlot h (BitVec.ofNat 16 s.enc.r)
    enc := { s.enc with
      h := h, q := BitVec.ofNat 16 q, e := e, lit := s.enc.r - s.enc.anchor, mlen := e - s.enc.r, off := s.enc.r - q } }

theorem measureMatch_lookedUp {s : State} {h : BitVec 12} {q : Nat} (hslot : SearchSlotIs s h q) :
    measureMatch (lookedUp s h) = matchMeasuredTo s h q (s.matchEndFrom q) := by
  rw [matchMeasuredTo, ← hslot.slot_eq, ← hslot.2]
  rfl

section Match

variable {s : State} {h : BitVec 12} {q : Nat} (hinv : Inv s) (hp : s.phase = .encSearch) (hslot : SearchSlotIs s h q)
include hinv hp hslot

/-- The candidate lies before `r`, and the match ends inside the source, four bytes or more past `r` (rules R126, R152). -/
theorem match_bounds : q < s.enc.r ∧ s.enc.r + 4 ≤ s.matchEndFrom q ∧ s.matchEndFrom q ≤ s.enc.n := by
  obtain ⟨⟨-, hwindow, -⟩, -, -, hbelow⟩ := hinv.search_registers hp
  exact ⟨hslot.2 ▸ hbelow h, extendWalk_bounds _ _ _ _ (by omega)⟩

/-- A pass whose candidate agrees, up to the emission (rules R152, R153). -/
theorem step_of_match (ha : s.agenda = []) (hall : ∀ j, j < 4 → s.srcByte (q + j) = s.srcByte (s.enc.r + j)) :
    step s = toOutcome (emitMatch (matchMeasuredTo s h q (s.matchEndFrom q))) := by
  obtain ⟨⟨-, hwindow, -⟩, -, -, hbelow⟩ := hinv.search_registers hp
  rw [step_nil ha, selectEngine, hp, ← measureMatch_lookedUp hslot]
  have hbelow' : (lookedUp s h).enc.q.toNat < s.enc.r ∧ s.enc.r + 4 ≤ s.enc.n := ⟨hbelow h, by omega⟩
  exact congrArg toOutcome ((searchStep_eq hinv hp hslot (b := true) (iff_of_true rfl hall)).trans (if_pos hbelow'))

end Match

/-- A measured match whose sequence fits has just its bytes written (rules R154, R155). -/
theorem emitMatch_measured {s : State} {h : BitVec 12} {q e : Nat} (hinv : Inv s) (hp : s.phase = .encSearch)
    (hroom : (matchMeasuredTo s h q e).measuredSequence.encode.length + s.cfg.encMargin ≤ s.enc.cap - s.enc.o) :
    ∃ u, emitMatch (matchMeasuredTo s h q e) = continueSearch (matchTaken u) ∧
      Wrote (matchMeasuredTo s h q e) u (matchMeasuredTo s h q e).measuredSequence.encode := by
  obtain ⟨⟨-, hwindow, hn⟩, hanchor, ho, -⟩ := hinv.search_registers hp
  exact emitMatch_of_room (show s.enc.r - q < 65536 by omega)
    (show s.enc.anchor + (s.enc.r - s.enc.anchor) ≤ s.enc.n by omega) ho hroom

/-- Settles O54: the match measured, then dropped or written; after a written one the search ends or goes on. -/
theorem matchEmitsItsSequence : Obligations.MatchEmitsItsSequence := by
  intro s h q hinv ha hp hslot hall e
  have hlook := hinv.lookahead_ge
  obtain ⟨⟨-, -, hn⟩, -⟩ := hinv.search_registers hp
  have hb : q < s.enc.r ∧ s.enc.r + 4 ≤ e ∧ e ≤ s.enc.n := match_bounds hinv hp hslot
  have hstep : step s = toOutcome (emitMatch (matchMeasuredTo s h q e)) := step_of_match hinv hp hslot ha hall
  clear_value e
  refine ⟨fun hroom => ?_, fun hroom => ?_⟩
  · obtain ⟨u, hu, hrest, -, hkept, hholds⟩ := emitMatch_measured hinv hp hroom
    rw [hstep, hu]
    generalize u.dst = d at hrest hkept hholds
    subst hrest
    by_cases hend : s.enc.n < e + s.cfg.lookahead
    · rw [continueSearch_of_end hend]
      exact ⟨_, rfl, hholds, hkept, rfl, fun _ => ⟨rfl, rfl⟩, fun hle => absurd hend (Nat.not_lt.2 hle)⟩
    · have hle := Nat.not_lt.1 hend
      have hwin : e - 1 + 8 ≤ s.enc.n := by omega
      obtain ⟨g, hg⟩ : ∃ g, hashAt s (e - 1) = .ok g := ⟨_, hashAt_ok s (e - 1) hwin⟩
      rw [continueSearch_of_lookahead hle (show e - 1 < 65536 by omega)
        ((hashAt_congr rfl rfl (fun _ _ => rfl) hwin).trans hg)]
      exact ⟨_, rfl, hholds, hkept, rfl, fun hlt => absurd hlt hend, fun _ => ⟨rfl, g, hg, rfl⟩⟩
  · rw [hstep, emitMatch_of_noRoom (s := matchMeasuredTo s h q e) hroom]
    rfl

end Sys2Proof.Machine
end

section
/-! PROOFS. Runs of the encoder: what a turn does to the output, nothing or one sequence that reproduces the source, and induction
over the turns of a run; then the bound of rule R162. -/

namespace Sys2Proof.Machine

/-! ### Runs -/

/-- A run of one turn more is a turn and a run. -/
theorem runsTo_succ_iff {k : Nat} {s u : State} : runsTo (k + 1) s u ↔ ∃ t, step s = .next t ∧ runsTo k t u := by
  refine ⟨fun h => ?_, fun ⟨t, hs, h⟩ => runsTo_succ hs h⟩
  have hcore : core.step s = step s := rfl
  simp only [runsTo, Host.Core.run, hcore] at h
  cases hs : step s with
  | next t => rw [hs] at h; exact ⟨t, rfl, h⟩
  | fault f => rw [hs] at h; cases h
  | refused r => rw [hs] at h; cases h

/-- A turn ends in one state. -/
theorem step_unique {s t u : State} (h : step s = .next t) (h' : step s = .next u) : t = u :=
  Host.Outcome.next.inj (h.symm.trans h')

/-- One run after another. -/
theorem runsTo_trans {j k : Nat} {s t u : State} (h : runsTo j s t) (h' : runsTo k t u) : runsTo (j + k) s u := by
  induction j generalizing s with
  | zero =>
    obtain rfl : s = t := Host.Outcome.next.inj h
    rwa [Nat.zero_add]
  | succ j ih =>
    obtain ⟨v, hv, hrun⟩ := runsTo_succ_iff.1 h
    rw [Nat.add_right_comm]
    exact runsTo_succ hv (ih hrun)

/-- A run ends in one state. -/
theorem runsTo_unique {k : Nat} {s t u : State} (h : runsTo k s t) (h' : runsTo k s u) : t = u :=
  Host.Outcome.next.inj (h.symm.trans h')

/-- An idle block waits (rule R37). -/
theorem runsTo_of_idle {k : Nat} {s : State} (ha : s.agenda = []) (hidle : s.phase = .idle) : runsTo k s s := by
  induction k with
  | zero => rfl
  | succ k ih =>
    have hs : step s = .next s := by rw [step_nil ha, selectEngine, hidle]; rfl
    exact runsTo_succ hs ih

/-- Induction over a run of the encoder to its end: what every turn keeps while the encoder runs gives what the last turn gives. -/
theorem Inv.encoder_run {P Q : State → Prop}
    (hstep : ∀ s t, Inv s → s.agenda = [] → s.encoding → P s → step s = .next t →
      (t.encoding ∧ P t) ∨ (t.phase = .idle ∧ Q t))
    {k : Nat} {s t : State} (h : Inv s) (ha : s.agenda = []) (he : s.encoding) (hP : P s) (hrun : runsTo k s t)
    (hidle : t.phase = .idle) : Q t := by
  induction k generalizing s with
  | zero =>
    obtain rfl : s = t := Host.Outcome.next.inj hrun
    exact absurd hidle he.ne_idle
  | succ k ih =>
    obtain ⟨u, hu, hrun'⟩ := runsTo_succ_iff.1 hrun
    have hagenda : u.agenda = [] := (h.encPost_of_step ha he hu).agenda.trans ha
    rcases hstep s u h ha he hP hu with ⟨hue, hPu⟩ | ⟨huidle, hQ⟩
    · exact ih (stepKeepsInvariant s u h hu) hagenda hue hPu hrun'
    · exact runsTo_unique (runsTo_of_idle hagenda huidle) hrun' ▸ hQ

/-! ### What a turn does to the output -/

/-- A sequence gives the bytes that `read` holds from `a` on, where the `a` bytes before them are known (rules R72, R176). -/
structure Reproduces (read : Nat → Byte) (a : Nat) (q : Sequence) : Prop where
  off_ne : q.off ≠ 0
  four_le : 4 ≤ q.mlen
  off_le : q.off.toNat ≤ a + q.literals.length
  literals : ∀ i, i < q.literals.length → q.literals[i]? = some (read (a + i))
  repeats : ∀ j, j < q.mlen → read (a + q.literals.length + j) = read (a + q.literals.length + j - q.off.toNat)

/-- A turn that writes nothing. -/
structure Kept (s t : State) : Prop where
  dst : t.dst = s.dst
  o : t.enc.o = s.enc.o
  anchor : t.enc.anchor = s.enc.anchor

/-- A turn that writes a sequence for the source from `anchor` on (rules R155, R156). -/
structure Emitted (s t : State) (q : Sequence) : Prop where
  reproduces : Reproduces s.srcByte s.enc.anchor q
  holds : t.dst.holds s.enc.o q.encode
  kept : DstKept s.dst t.dst s.enc.o s.enc.cap
  o : t.enc.o = s.enc.o + q.encode.length
  anchor : t.enc.anchor = s.enc.anchor + q.literals.length + q.mlen

/-- The sequence of a pass whose candidate agrees (rules R152, R153). -/
def State.matchSequence (s : State) (q : Nat) : Sequence :=
  ⟨BitVec.ofNat 16 (s.enc.r - q), bytesFrom s.srcByte s.enc.anchor (s.enc.r - s.enc.anchor), s.matchEndFrom q - s.enc.r⟩

section Match

variable {s : State} {h : BitVec 12} {q : Nat} (hinv : Inv s) (hp : s.phase = .encSearch) (hslot : SearchSlotIs s h q)
  (hall : ∀ j, j < 4 → s.srcByte (q + j) = s.srcByte (s.enc.r + j))
include hinv hp hslot hall

/-- From `r` to the end of the match every byte equals the one at its candidate (rules R137, R150, R152). -/
theorem match_agrees {j : Nat} (hj : j < s.matchEndFrom q - s.enc.r) :
    s.srcByte (s.enc.r + j) = s.srcByte (s.enc.r + j - (s.enc.r - q)) := by
  obtain ⟨hq, hb⟩ := match_bounds hinv hp hslot
  by_cases h4 : j < 4
  · rw [show s.enc.r + j - (s.enc.r - q) = q + j by omega, hall j h4]
  · obtain ⟨-, -, -, hwalk⟩ := extendFindsFirstMismatch s.srcByte (q + 4) (s.enc.r + 4) s.enc.n (by omega) (by omega)
    obtain ⟨-, heq⟩ := hwalk (s.enc.r + j) (by omega) (show s.enc.r + j < s.matchEndFrom q by omega)
    rwa [show s.enc.r + 4 - (q + 4) = s.enc.r - q by omega, eq_comm] at heq

/-- The sequence of a match reproduces the source from `anchor` on. -/
theorem reproduces_matchSequence : Reproduces s.srcByte s.enc.anchor (s.matchSequence q) := by
  obtain ⟨hq, hb⟩ := match_bounds hinv hp hslot
  obtain ⟨⟨-, hwindow, hn⟩, hanchor, -⟩ := hinv.search_registers hp
  have hlit : (s.matchSequence q).literals.length = s.enc.r - s.enc.anchor := bytesFrom_length ..
  have hoff : (s.matchSequence q).off.toNat = s.enc.r - q := Nat.mod_eq_of_lt (show s.enc.r - q < 65536 by omega)
  have hmlen : (s.matchSequence q).mlen = s.matchEndFrom q - s.enc.r := rfl
  refine ⟨fun h0 => ?_, by omega, by omega, fun i hi => ?_, fun j hj => ?_⟩
  · rw [h0] at hoff
    have hzero : (0 : BitVec 16).toNat = 0 := rfl
    omega
  · rw [State.matchSequence, bytesFrom_getElem?, if_pos (hlit ▸ hi)]
  · rw [hlit, hoff, Nat.add_sub_cancel' hanchor]
    exact match_agrees hinv hp hslot hall hj

end Match

/-- A pass through SEARCH leaves the encoder running and writes nothing or one sequence (rules R151, R154 to R156). -/
theorem Inv.search_turn {s t : State} (hinv : Inv s) (ha : s.agenda = []) (hp : s.phase = .encSearch)
    (ht : step s = .next t) : t.encoding ∧ (Kept s t ∨ ∃ q, Emitted s t q) := by
  obtain ⟨-, hanchor, -⟩ := hinv.search_registers hp
  obtain ⟨h, q, hslot⟩ := hinv.exists_searchSlot hp
  by_cases hall : ∀ j, j < 4 → s.srcByte (q + j) = s.srcByte (s.enc.r + j)
  · obtain ⟨hfits, hdrops⟩ := matchEmitsItsSequence s h q hinv ha hp hslot hall
    by_cases hroom : (s.matchSequence q).encode.length + s.cfg.encMargin ≤ s.enc.cap - s.enc.o
    · obtain ⟨u, hu, hholds, hkept, hrest, hend, hgo⟩ := hfits hroom
      obtain rfl : u = t := step_unique hu ht
      have hb := match_bounds hinv hp hslot
      have hlit : (s.matchSequence q).literals.length = s.enc.r - s.enc.anchor := bytesFrom_length ..
      have hmlen : (s.matchSequence q).mlen = s.matchEndFrom q - s.enc.r := rfl
      have ho : u.enc.o = s.enc.o + (s.matchSequence q).encode.length := congrArg (fun v => v.enc.o) hrest
      have hanch : u.enc.anchor = s.matchEndFrom q := congrArg (fun v => v.enc.anchor) hrest
      refine ⟨?_, .inr ⟨s.matchSequence q, reproduces_matchSequence hinv hp hslot hall, hholds, hkept, ho, by omega⟩⟩
      rcases Nat.lt_or_ge s.enc.n (s.matchEndFrom q + s.cfg.lookahead) with hlt | hle
      · exact .inr (.inr (hend hlt).1)
      · exact .inr (.inl (hgo hle).1)
    · have hstep := hdrops (Nat.lt_of_not_le hroom)
      obtain rfl := step_unique hstep ht
      exact ⟨.inr (.inr rfl), .inl ⟨rfl, rfl, rfl⟩⟩
  · simp only [not_forall] at hall
    obtain ⟨j, hj, hne⟩ := hall
    obtain ⟨u, hu, hrest⟩ := missAdvancesByAcceleratingStep s h q j hinv ha hp hslot hj hne
    obtain rfl : u = t := step_unique hu ht
    have hdst := congrArg State.dst hrest
    refine ⟨?_, .inl ⟨hdst, congrArg (fun v => v.enc.o) hrest, congrArg (fun v => v.enc.anchor) hrest⟩⟩
    have hphase : u.phase = if s.enc.n < u.enc.r + s.cfg.searchTail then .encFlush else .encSearch :=
      congrArg State.phase hrest
    split at hphase
    · exact .inr (.inr hphase)
    · exact .inr (.inl hphase)

/-- A turn of the encoder: it goes on, having written nothing or one sequence; or FLUSH ends the command; or the source was too
long (rules R146, R147, R157). -/
theorem Inv.encoder_turn {s t : State} (hinv : Inv s) (ha : s.agenda = []) (he : s.encoding) (ht : step s = .next t) :
    (t.encoding ∧ (Kept s t ∨ ∃ q, Emitted s t q)) ∨ (t.phase = .idle ∧ s.phase = .encFlush) ∨
      (t.phase = .idle ∧ 65536 < s.enc.n ∧ t.status = 6) := by
  rcases he with hp | hp | hp
  · obtain ⟨hlong, hflush, hsearch⟩ := encoderEntryTests s ha hp
    rcases Nat.lt_or_ge 65536 s.enc.n with hn | hn
    · obtain ⟨u, hu, hrest, -⟩ := hlong hn
      obtain rfl : u = t := step_unique hu ht
      exact .inr (.inr ⟨congrArg State.phase hrest, hn, congrArg State.status hrest⟩)
    · rcases Nat.lt_or_ge s.enc.n (s.enc.r + s.cfg.searchTail) with hlt | hle
      · obtain rfl := step_unique (hflush hn hlt) ht
        exact .inl ⟨.inr (.inr rfl), .inl ⟨rfl, rfl, rfl⟩⟩
      · obtain rfl := step_unique (hsearch hn hle) ht
        exact .inl ⟨.inr (.inl rfl), .inl ⟨rfl, rfl, rfl⟩⟩
  · exact .inl (hinv.search_turn ha hp ht)
  · exact .inr (.inl ⟨hinv.idle_of_step_flush ha hp ht, hp⟩)

/-- A turn that leaves the encoder running keeps its sampled lengths and leaves `anchor` inside the source (rule R158). -/
theorem EncPost.lengths {s t : State} (hpost : EncPost s t) (he : t.encoding) :
    t.enc.n = s.enc.n ∧ t.enc.cap = s.enc.cap ∧ t.enc.anchor ≤ t.enc.n := by
  rcases hpost.ends with ⟨hidle, -⟩ | ⟨hruns, -, -, -, hregs, -, hn, hcap, -⟩
  · exact absurd hidle he.ne_idle
  refine ⟨hn, hcap, ?_⟩
  rcases hruns with hp | hp
  · simp only [EncoderInv, hp] at hregs
    omega
  · simp only [EncoderInv, hp] at hregs
    exact hregs.1

/-! ### The bound (rules R162, R163) -/

/-- Two lengths need at most one escape byte more than their sum. -/
theorem escCount_add_le (x y : Nat) : escCount x + escCount y ≤ escCount (x + y) + 1 := by
  unfold escCount
  split <;> split <;> split <;> omega

theorem escCount_mono {x y : Nat} (h : x ≤ y) : escCount x ≤ escCount y := by
  unfold escCount
  split <;> split <;> omega

/-- A sequence is no longer than its literals and its match, once the escape bytes the rest may need are counted (rule R162). -/
theorem sequenceSize_le {lit mlen : Nat} (h : 4 ≤ mlen) (rest : Nat) :
    sequenceSize lit mlen + escCount rest ≤ lit + mlen + escCount (lit + mlen + rest) := by
  have hsum := escCount_add_le lit rest
  have hmono := escCount_mono (show lit + rest ≤ lit + mlen + rest by omega)
  have hmlen := escCount_le (mlen - 4)
  unfold sequenceSize
  omega

/-- The output so far, with the escape bytes that one END for the rest of the source needs, is no longer than the source so far
with the escape bytes that one END for all of it needs. -/
def WithinBound (n cap : Nat) (s : State) : Prop :=
  s.enc.n = n ∧ s.enc.cap = cap ∧ s.enc.o + escCount (n - s.enc.anchor) ≤ s.enc.anchor + escCount n

theorem WithinBound.of_turn {n cap : Nat} {s t : State} (hP : WithinBound n cap s) (hpost : EncPost s t) (he : t.encoding)
    (hturn : Kept s t ∨ ∃ q, Emitted s t q) : WithinBound n cap t := by
  obtain ⟨hn, hcap, hle⟩ := hP
  obtain ⟨htn, htcap, hanchor⟩ := hpost.lengths he
  refine ⟨htn.trans hn, htcap.trans hcap, ?_⟩
  rcases hturn with hk | ⟨q, hq⟩
  · rwa [hk.o, hk.anchor]
  · have hsize := sequenceSize_le (lit := q.literals.length) hq.reproduces.four_le (n - t.enc.anchor)
    have hlen : q.encode.length = sequenceSize q.literals.length q.mlen := sequence_encode_length ..
    have ho := hq.o
    have ha := hq.anchor
    rw [show q.literals.length + q.mlen + (n - t.enc.anchor) = n - s.enc.anchor by omega] at hsize
    omega

/-- FLUSH within the bound succeeds where the capacity is at least the bound (rules R157, R162). -/
theorem WithinBound.flush {n cap bound : Nat} {s t : State} (hP : WithinBound n cap s) (hinv : Inv s) (ha : s.agenda = [])
    (hp : s.phase = .encFlush) (ht : step s = .next t) (hbound : bound = if n = 0 then 0 else n + 3 + escCount n)
    (hroom : bound ≤ cap) : t.status = 2 ∧ t.result ≤ bound := by
  obtain ⟨rfl, rfl, hle⟩ := hP
  obtain ⟨hanchor, -⟩ := hinv.flush_registers hp
  obtain ⟨hempty, hfits, -⟩ := flushEndsTheStream s hinv ha hp
  rcases Nat.eq_or_lt_of_le hanchor with heq | hlt
  · obtain ⟨u, hu, -, hst, -, hres, -⟩ := hempty heq
    obtain rfl : u = t := step_unique hu ht
    rw [heq, Nat.sub_self] at hle
    refine ⟨hst, ?_⟩
    by_cases h0 : s.enc.n = 0
    · rw [h0] at hle
      omega
    · rw [if_neg h0] at hbound
      omega
  · have hsize : s.tailSequence.encode.length =
        3 + escCount (s.enc.n - s.enc.anchor) + (s.enc.n - s.enc.anchor) := s.tailSequence_length
    rw [if_neg (by omega)] at hbound
    obtain ⟨u, hu, -, hst, -, hres, -⟩ := hfits hlt (show s.tailSequence.encode.length ≤ _ by omega)
    obtain rfl : u = t := step_unique hu ht
    have hres' : u.result = s.enc.o + s.tailSequence.encode.length := hres
    exact ⟨hst, by omega⟩

/-- Settles O56: the run ends, and its last turn is a FLUSH within the bound. -/
theorem compressSucceedsWithRoom : Obligations.CompressSucceedsWithRoom := by
  intro s bound hinv ha hp hn hbound hcap
  obtain ⟨k, t, -, hrun, hidle, -⟩ := hinv.encoder_ends ha (.inl hp)
  obtain ⟨-, hanchor, ho, -⟩ := hinv.start_registers hp
  have hP : WithinBound s.enc.n s.enc.cap s := ⟨rfl, rfl, by rw [hanchor, ho, Nat.sub_zero]⟩
  refine ⟨k, t, hrun, hidle, Inv.encoder_run (P := WithinBound s.enc.n s.enc.cap)
    (Q := fun v => v.status = 2 ∧ v.result ≤ bound) (fun u v hu hua hue hPu hv => ?_) hinv ha (.inl hp) hP hrun hidle⟩
  rcases hu.encoder_turn hua hue hv with ⟨hve, hturn⟩ | ⟨hvidle, hflush⟩ | ⟨-, hlong, -⟩
  · exact .inl ⟨hve, hPu.of_turn (hu.encPost_of_step hua hue hv) hve hturn⟩
  · exact .inr ⟨hvidle, hPu.flush hu hua hflush hv hbound hcap⟩
  · exact absurd hn (by rw [← hPu.1]; omega)

end Sys2Proof.Machine
end

section
/-! PROOFS. The round trip (rule R160): the stream of a COMPRESS is sequences that reproduce the source one after another and an END
for the rest; a DECOMPRESS of such a stream gives the source back. -/

namespace Sys2Proof.Machine

/-! ### Streams that reproduce a source -/

/-- Sequences one after another give the bytes that `read` holds from the first index to the second. -/
inductive Expands (read : Nat → Byte) : Nat → List Sequence → Nat → Prop
  | nil (a : Nat) : Expands read a [] a
  | cons {a b : Nat} {q : Sequence} {qs : List Sequence} (hq : Reproduces read a q)
      (hqs : Expands read (a + q.literals.length + q.mlen) qs b) : Expands read a (q :: qs) b

/-- The encoder puts its next sequence behind the ones it wrote. -/
theorem Expands.snoc {read : Nat → Byte} {a b : Nat} {q : Sequence} {qs : List Sequence} (h : Expands read a qs b)
    (hq : Reproduces read b q) : Expands read a (qs ++ [q]) (b + q.literals.length + q.mlen) := by
  induction h with
  | nil a => exact .cons hq (.nil _)
  | cons hq' _ ih => exact .cons hq' (ih hq)

theorem Expands.le {read : Nat → Byte} {a b : Nat} {qs : List Sequence} (h : Expands read a qs b) : a ≤ b := by
  induction h with
  | nil a => exact Nat.le_refl a
  | cons _ _ ih => omega

/-- The bytes of sequences one after another. -/
def streamOf (qs : List Sequence) : List Byte := qs.flatMap Sequence.encode

/-- How a stream ends (rule R157): one END for the bytes from `b` to `n`, nothing where there are none. -/
def streamEnd (read : Nat → Byte) (b n : Nat) : List Byte :=
  if b < n then Sequence.encode ⟨0, bytesFrom read b (n - b), 4⟩ else []

/-- A stream for the first `n` bytes that `read` holds. -/
def Encodes (read : Nat → Byte) (n : Nat) (stream : List Byte) : Prop :=
  ∃ qs b, Expands read 0 qs b ∧ b ≤ n ∧ stream = streamOf qs ++ streamEnd read b n

/-! ### What the encoder writes -/

/-- What is held of two strings one after the other. -/
theorem Memory.holds.append {m : Memory} {a : Nat} {x y : List Byte} (hx : m.holds a x) (hy : m.holds (a + x.length) y) :
    m.holds a (x ++ y) := fun i hi => by
  rw [List.length_append] at hi
  by_cases hix : i < x.length
  · rw [hx i hix, List.getElem?_append_left hix]
  · rw [List.getElem?_append_right (by omega), ← hy (i - x.length) (by omega), Nat.add_assoc,
      Nat.add_sub_cancel' (Nat.le_of_not_lt hix)]

/-- The output so far is sequences that reproduce the source up to `anchor`. -/
structure Streamed (read : Nat → Byte) (n : Nat) (s : State) : Prop where
  src : s.srcByte = read
  n : s.enc.n = n
  out : ∃ qs, Expands read 0 qs s.enc.anchor ∧ s.dst.holds 0 (streamOf qs) ∧ (streamOf qs).length = s.enc.o

theorem Streamed.of_turn {read : Nat → Byte} {n : Nat} {s t : State} (hP : Streamed read n s) (hpost : EncPost s t)
    (he : t.encoding) (hturn : Kept s t ∨ ∃ q, Emitted s t q) : Streamed read n t := by
  obtain ⟨hsrc, hn, qs, hexp, hholds, hlen⟩ := hP
  obtain ⟨htn, -, -⟩ := hpost.lengths he
  refine ⟨hpost.srcByte.trans hsrc, htn.trans hn, ?_⟩
  rcases hturn with hk | ⟨q, hq⟩
  · exact ⟨qs, by rwa [hk.anchor], by rwa [hk.dst], by rwa [hk.o]⟩
  · have hstream : streamOf (qs ++ [q]) = streamOf qs ++ q.encode := by simp [streamOf]
    refine ⟨qs ++ [q], ?_, ?_, ?_⟩
    · rw [hq.anchor]
      exact hexp.snoc (hsrc ▸ hq.reproduces)
    · rw [hstream]
      refine (hq.kept.holds (by omega) hholds).append ?_
      rw [Nat.zero_add, hlen]
      exact hq.holds
    · rw [hstream, List.length_append, hlen, hq.o]

/-- DST begins with a stream for the first `n` bytes that `read` holds, and `RESULT` is its length. -/
def LeavesStream (read : Nat → Byte) (n : Nat) (t : State) : Prop :=
  ∃ stream, Encodes read n stream ∧ t.dst.holds 0 stream ∧ t.result = stream.length

/-- A FLUSH that succeeds ends the stream (rule R157). -/
theorem Streamed.flush {read : Nat → Byte} {n : Nat} {s t : State} (hP : Streamed read n s) (hinv : Inv s)
    (ha : s.agenda = []) (hp : s.phase = .encFlush) (ht : step s = .next t) (hst : t.status = 2) : LeavesStream read n t := by
  obtain ⟨rfl, rfl, qs, hexp, hholds, hlen⟩ := hP
  obtain ⟨hanchor, -⟩ := hinv.flush_registers hp
  obtain ⟨hempty, hfits, hfails⟩ := flushEndsTheStream s hinv ha hp
  refine ⟨_, ⟨qs, _, hexp, hanchor, rfl⟩, ?_⟩
  rcases Nat.eq_or_lt_of_le hanchor with heq | hlt
  · obtain ⟨u, hu, -, -, -, hres, -, -, hkept⟩ := hempty heq
    obtain rfl : u = t := step_unique hu ht
    rw [streamEnd, if_neg (by omega), List.append_nil]
    exact ⟨hkept.holds (by omega) hholds, hres.trans hlen.symm⟩
  · have hend : streamEnd s.srcByte s.enc.anchor s.enc.n = s.tailSequence.encode := if_pos hlt
    rw [hend]
    rcases Nat.lt_or_ge (s.enc.cap - s.enc.o) s.tailSequence.encode.length with hroom | hroom
    · obtain ⟨u, hu, -, hsix, -⟩ := hfails hlt hroom
      obtain rfl : u = t := step_unique hu ht
      rw [hsix] at hst
      cases hst
    · obtain ⟨u, hu, -, -, -, hres, hout, -, -, -, -, hkept⟩ := hfits hlt hroom
      obtain rfl : u = t := step_unique hu ht
      refine ⟨(hkept.holds (by omega) hholds).append ?_, ?_⟩
      · rw [Nat.zero_add, hlen]
        exact hout
      · rw [List.length_append, hlen]
        exact hres

/-- A COMPRESS that succeeds leaves a stream for its source. -/
theorem Inv.compress_encodes {s t : State} {k : Nat} (hinv : Inv s) (ha : s.agenda = []) (hp : s.phase = .encStart)
    (hrun : runsTo k s t) (hidle : t.phase = .idle) (hst : t.status = 2) :
    LeavesStream s.srcByte s.enc.n t := by
  obtain ⟨-, hanchor, ho, -⟩ := hinv.start_registers hp
  have hP : Streamed s.srcByte s.enc.n s :=
    ⟨rfl, rfl, [], by rw [hanchor]; exact .nil 0, fun _ hi => absurd hi (Nat.not_lt_zero _), ho.symm⟩
  refine Inv.encoder_run (P := Streamed s.srcByte s.enc.n)
    (Q := fun v => v.status = 2 → LeavesStream s.srcByte s.enc.n v) (fun u v hu hua hue hPu hv => ?_) hinv ha (.inl hp) hP
    hrun hidle hst
  rcases hu.encoder_turn hua hue hv with ⟨hve, hturn⟩ | ⟨hvidle, hflush⟩ | ⟨hvidle, -, hsix⟩
  · exact .inl ⟨hve, hPu.of_turn (hu.encPost_of_step hua hue hv) hve hturn⟩
  · exact .inr ⟨hvidle, hPu.flush hu hua hflush hv⟩
  · exact .inr ⟨hvidle, fun h2 => by rw [hsix] at h2; cases h2⟩

/-! ### What the decoder makes of it -/

/-- A decoder at a sequence boundary with the first `a` bytes that `read` holds as its output and a given rest of its stream. -/
structure DecodesFrom (read : Nat → Byte) (u : State) (a : Nat) (stream : List Byte) : Prop where
  agenda : u.agenda = []
  phase : u.phase = .decBoundary
  ready : DecoderReady u
  op : u.dec.op = a
  out : ∀ i, i < a → u.dst.get? i = some (read i)
  holds : u.srcHolds u.dec.ip stream
  ends : u.dec.ip + stream.length = u.dec.n

/-- Literals and a match that reproduce what `read` holds are what `read` holds (rules R172, R176). -/
theorem Reproduces.output {read : Nat → Byte} {a : Nat} {q : Sequence} {d : Memory} (h : Reproduces read a q)
    (hout : ∀ i, i < a → d.get? i = some (read i)) (hlits : d.holds a q.literals)
    (hmatch : MatchAt d (a + q.literals.length) q.off.toNat q.mlen) :
    ∀ i, i < a + q.literals.length + q.mlen → d.get? i = some (read i) := by
  have hoff : q.off.toNat ≠ 0 := fun h0 => h.off_ne (BitVec.eq_of_toNat_eq h0)
  intro i
  induction i using Nat.strong_induction_on with
  | h i ih =>
    intro hi
    by_cases hia : i < a
    · exact hout i hia
    by_cases hil : i < a + q.literals.length
    · have hget := (hlits (i - a) (by omega)).trans (h.literals (i - a) (by omega))
      rwa [Nat.add_sub_cancel' (Nat.le_of_not_lt hia)] at hget
    · have hcopy := hmatch (i - (a + q.literals.length)) (by omega)
      have hrep := h.repeats (i - (a + q.literals.length)) (by omega)
      have hle := h.off_le
      rw [Nat.add_sub_cancel' (Nat.le_of_not_lt hil)] at hcopy hrep
      rw [hcopy, hrep]
      exact ih (i - q.off.toNat) (by omega) (by omega)

/-- One sequence of the stream decoded (rules R193 to R201). -/
theorem DecodesFrom.sequence {read : Nat → Byte} {u : State} {a : Nat} {q : Sequence} {rest : List Byte}
    (h : DecodesFrom read u a (q.encode ++ rest)) (hq : Reproduces read a q)
    (hcap : a + q.literals.length + q.mlen ≤ u.dec.cap) :
    ∃ k v, runsTo k u v ∧ DecodesFrom read v (a + q.literals.length + q.mlen) rest ∧ v.dec.cap = u.dec.cap := by
  obtain ⟨hagenda, hphase, hready, rfl, hout, hstream, hends⟩ := h
  rw [List.length_append] at hends
  obtain ⟨v, hrun, hrest, vready, vn, vcap, vip, vop, vlits, vmatch, vkept⟩ := wholeSequenceRuns u q hagenda hphase hready
    hq.off_ne hq.four_le (by omega) hstream.left hcap hq.off_le
  have vout : ∀ i, i < u.dec.op → v.dst.get? i = some (read i) := fun i hi => (vkept i (.inl hi)).trans (hout i hi)
  refine ⟨_, v, hrun, ⟨(congrArg State.agenda hrest).trans hagenda, congrArg State.phase hrest, vready, vop,
    hq.output vout vlits vmatch, ?_, by omega⟩, vcap⟩
  have hsrc := congrArg State.src hrest
  rw [vip]
  exact hstream.right.of_src hsrc

/-- The sequences of the stream decoded, one after another. -/
theorem Expands.decodes {read : Nat → Byte} {a b : Nat} {qs : List Sequence} (hx : Expands read a qs b) {u : State}
    {rest : List Byte} (h : DecodesFrom read u a (streamOf qs ++ rest)) (hcap : b ≤ u.dec.cap) :
    ∃ k v, runsTo k u v ∧ DecodesFrom read v b rest ∧ v.dec.cap = u.dec.cap := by
  induction hx generalizing u with
  | nil a => exact ⟨0, u, rfl, h, rfl⟩
  | cons hq hqs ih =>
    rw [streamOf, List.flatMap_cons, List.append_assoc] at h
    obtain ⟨j, v, hrun, hv, hvcap⟩ := h.sequence hq (hqs.le.trans hcap)
    obtain ⟨k, w, hrun', hw, hwcap⟩ := ih hv (hvcap ▸ hcap)
    exact ⟨j + k, w, runsTo_trans hrun hrun', hw, hwcap.trans hvcap⟩

/-- The end test where the stream is used up (rule R202). -/
theorem step_of_usedUp {s : State} (ha : s.agenda = []) (hp : s.phase = .decBoundary) (hn : s.dec.ip = s.dec.n) :
    step s = .next (complete s s.dec.cap s.dec.op) := by
  rw [step_nil ha, selectEngine, hp]
  simp only [selectBoundary, hn, Nat.sub_self, Nat.zero_lt_succ, if_true, Selected.outcome, tailStep, ne_eq,
    not_true_eq_false, if_false]

/-- The end of the stream decoded: the command returns with the whole of what `read` holds (rules R197, R202). -/
theorem DecodesFrom.finish {read : Nat → Byte} {u : State} {b n : Nat} (h : DecodesFrom read u b (streamEnd read b n))
    (hbn : b ≤ n) (hcap : n ≤ u.dec.cap) :
    ∃ k v, runsTo k u v ∧ v.phase = .idle ∧ v.status = 2 ∧ v.result = n ∧ ∀ i, i < n → v.dst.get? i = some (read i) := by
  obtain ⟨hagenda, hphase, hready, rfl, hout, hstream, hends⟩ := h
  have ⟨_, _, hwidth, _⟩ := hready
  rcases Nat.eq_or_lt_of_le hbn with rfl | hlt
  · rw [streamEnd, if_neg (Nat.lt_irrefl _)] at hends
    refine ⟨1, _, runsTo_succ (step_of_usedUp hagenda hphase hends) rfl, rfl, rfl, ?_, fun i hi => ?_⟩
    · exact Config.fit_of_lt (Nat.lt_of_le_of_lt hcap hwidth)
    · rw [complete_dst, Memory.get?_forget, if_neg (by omega), hout i hi]
  · rw [streamEnd, if_pos hlt] at hstream hends
    have hlit : (bytesFrom read u.dec.op (n - u.dec.op)).length = n - u.dec.op := bytesFrom_length ..
    have hne : bytesFrom read u.dec.op (n - u.dec.op) ≠ [] := fun h0 => by
      rw [h0, List.length_nil] at hlit
      omega
    obtain ⟨v, hrun, hidle, hst, -, hres, hlits, hkept, -⟩ := wholeEndRuns u _ hagenda hphase hready rfl rfl hne hends
      hstream (by simp only [hlit]; omega)
    simp only [hlit] at hres
    refine ⟨_, v, hrun, hidle, hst, by omega, fun i hi => ?_⟩
    by_cases hio : i < u.dec.op
    · rw [hkept i (.inl hio), hout i hio]
    · have hget := hlits (i - u.dec.op) (by simp only [hlit]; omega)
      rwa [bytesFrom_getElem?, if_pos (by omega), Nat.add_sub_cancel' (Nat.le_of_not_lt hio)] at hget

/-- Settles O57: the stream encodes the source, and a stream that encodes a source decodes to it. -/
theorem compressThenDecompressIsIdentity : Obligations.CompressThenDecompressIsIdentity := by
  intro s t u k hinv ha hp hrun hidle hst hu hua hup huip huop hun hucap hsame
  obtain ⟨stream, ⟨qs, b, hexp, hbn, rfl⟩, hholds, hres⟩ := hinv.compress_encodes ha hp hrun hidle hst
  have hready := hu.decoder
  simp only [DecoderInv, hup] at hready
  have hsrc : u.srcHolds u.dec.ip (streamOf qs ++ streamEnd s.srcByte b s.enc.n) := fun i hi => by
    have hget := hholds i hi
    rw [Nat.zero_add, ← hsame i (hres ▸ hi), List.getElem?_eq_getElem hi] at hget
    rw [huip, Nat.zero_add, State.srcByte, Memory.byte_of_get? hget, List.getElem?_eq_getElem hi]
  have hstart : DecodesFrom s.srcByte u 0 (streamOf qs ++ streamEnd s.srcByte b s.enc.n) :=
    ⟨hua, hup, hready, huop, fun i hi => absurd hi (Nat.not_lt_zero i), hsrc, by rw [huip, Nat.zero_add, hun, hres]⟩
  obtain ⟨j, v, hrun1, hv, hvcap⟩ := hexp.decodes hstart (hbn.trans hucap)
  obtain ⟨m, w, hrun2, hend⟩ := hv.finish hbn (hvcap ▸ hucap)
  exact ⟨j + m, w, runsTo_trans hrun1 hrun2, hend⟩

end Sys2Proof.Machine
end

section
/-! PROOFS. Two encoders on one source (rules R161, R252): blocks that agree on what a COMPRESS reads, its source, its parameters, its
cursors, the hash index and the output so far, agree on it after every turn, and end alike. -/

namespace Sys2Proof.Machine

/-- Two running encoders agree on everything a turn reads. -/
structure Twins (s u : State) : Prop where
  phase : u.phase = s.phase
  cfg : u.cfg = s.cfg
  n : u.enc.n = s.enc.n
  cap : u.enc.cap = s.enc.cap
  r : u.enc.r = s.enc.r
  anchor : u.enc.anchor = s.enc.anchor
  o : u.enc.o = s.enc.o
  miss : u.enc.miss = s.enc.miss
  src : ∀ i, i < s.enc.n → u.srcByte i = s.srcByte i
  out : ∀ i, i < s.enc.o → u.dst.get? i = s.dst.get? i
  slots : ∀ h, u.scratch.slot h = s.scratch.slot h

/-- Two commands ended alike, with the same stream where they succeeded. -/
structure EndedAlike (s u : State) : Prop where
  idle : s.phase = .idle ∧ u.phase = .idle
  status : u.status = s.status
  result : u.result = s.result
  errKind : u.errKind = s.errKind
  out : s.status = 2 → ∀ i, i < s.result → u.dst.get? i = s.dst.get? i

/-- What two encoders' turns answer: both go on and agree, or both end alike. -/
def AnswersAlike (a b : Except Fault State) : Prop :=
  ∃ t v, a = .ok t ∧ b = .ok v ∧ (t.encoding ∧ Twins t v ∨ EndedAlike t v)

/-- A miss leaves the encoder running (rule R151). -/
theorem searchMiss_encoding (s : State) : (searchMiss s).encoding := by
  by_cases h : s.enc.n < missCursor s + s.cfg.searchTail
  · exact .inr (.inr (if_pos h))
  · exact .inr (.inl (if_neg h))

section Twins

variable {s u : State} (hT : Twins s u)
include hT

/-! ### The operations of a turn -/

theorem Twins.withPhase (p : Phase) : Twins { s with phase := p } { u with phase := p } := { hT with phase := rfl }

/-- The hash of a window in the source is the same (rule R121). -/
theorem Twins.hashAt_eq {p : Nat} (hp : p + 8 ≤ s.enc.n) : hashAt u p = hashAt s p := hashAt_congr hT.cfg hT.n hT.src hp

/-- A write to a slot on both sides (rules R123, R124). -/
theorem Twins.slot_setSlot (h k : BitVec 12) (p : BitVec 16) :
    (u.scratch.setSlot h p).slot k = (s.scratch.setSlot h p).slot k := by
  rw [Scratch.slot_setSlot, Scratch.slot_setSlot, hT.slots]

/-- The slot a pass looks up is the same, with the same candidate (rule R148). -/
theorem Twins.searchSlotIs {h : BitVec 12} {q : Nat} (hslot : SearchSlotIs s h q) (hwindow : s.enc.r + 8 ≤ s.enc.n) :
    SearchSlotIs u h q := by
  obtain ⟨hh, hq⟩ := hslot
  refine ⟨?_, (congrArg BitVec.toNat (hT.slots h)).trans hq⟩
  rw [hT.r, hT.hashAt_eq hwindow, hh]

theorem Twins.lookedUp (h : BitVec 12) : Twins (lookedUp s h) (lookedUp u h) :=
  { hT with
    slots := fun k => by
      show (u.scratch.setSlot h (BitVec.ofNat 16 u.enc.r)).slot k = (s.scratch.setSlot h (BitVec.ofNat 16 s.enc.r)).slot k
      rw [hT.r, hT.slot_setSlot] }

theorem Twins.missCursor_eq : missCursor u = missCursor s := by rw [missCursor, missCursor, hT.r, hT.miss, hT.cfg]

theorem Twins.searchMiss : Twins (searchMiss s) (searchMiss u) :=
  { hT with
    phase := by
      show (if u.enc.n < missCursor u + u.cfg.searchTail then Phase.encFlush else Phase.encSearch) =
        if s.enc.n < missCursor s + s.cfg.searchTail then Phase.encFlush else Phase.encSearch
      rw [hT.n, hT.missCursor_eq, hT.cfg]
    r := hT.missCursor_eq
    miss := congrArg (· + 1) hT.miss }

/-- The same bytes written on both sides (rules R101, R105, R155). -/
theorem Twins.wrote {a b : State} {bytes : List Byte} (ha : Wrote s a bytes) (hb : Wrote u b bytes) : Twins a b := by
  obtain ⟨arest, -, akept, aholds⟩ := ha
  obtain ⟨brest, -, bkept, bholds⟩ := hb
  rw [hT.o] at brest bholds bkept
  generalize a.dst = d at arest akept aholds
  generalize b.dst = d' at brest bkept bholds
  subst arest brest
  refine { hT with o := rfl, out := fun i hi => ?_ }
  have hi' : i < s.enc.o + bytes.length := hi
  show d'.get? i = d.get? i
  by_cases hio : i < s.enc.o
  · rw [akept i (.inl hio), bkept i (.inl hio), hT.out i hio]
  · have hboth := (bholds (i - s.enc.o) (by omega)).trans (aholds (i - s.enc.o) (by omega)).symm
    rwa [Nat.add_sub_cancel' (Nat.le_of_not_lt hio)] at hboth

/-- Going on after a match (rule R156). -/
theorem Twins.continueSearch (hr : s.enc.r ≤ s.enc.n) (hn : s.enc.n ≤ 65536) (hr1 : 1 ≤ s.enc.r)
    (hlook : 8 ≤ s.cfg.lookahead) :
    AnswersAlike (continueSearch s) (continueSearch u) := by
  rcases Nat.lt_or_ge s.enc.n (s.enc.r + s.cfg.lookahead) with hend | hle
  · have hend' : u.enc.n < u.enc.r + u.cfg.lookahead := by rwa [hT.n, hT.r, hT.cfg]
    exact ⟨_, _, continueSearch_of_end hend, continueSearch_of_end hend', .inl ⟨.inr (.inr rfl), hT.withPhase _⟩⟩
  · have hle' : u.enc.r + u.cfg.lookahead ≤ u.enc.n := by rwa [hT.n, hT.r, hT.cfg]
    have hwin : s.enc.r - 1 + 8 ≤ s.enc.n := by omega
    have hg := hashAt_ok s _ hwin
    have hg' := (hT.hashAt_eq hwin).trans hg
    rw [← hT.r] at hg'
    refine ⟨_, _, continueSearch_of_lookahead hle (by omega) hg, continueSearch_of_lookahead hle' (by rw [hT.r]; omega) hg',
      .inl ⟨.inr (.inl rfl), { hT with phase := rfl, slots := fun k => ?_ }⟩⟩
    simp only [hT.r, hT.slot_setSlot]

theorem Twins.measured (h : BitVec 12) (q e : Nat) : Twins (matchMeasuredTo s h q e) (matchMeasuredTo u h q e) :=
  { hT.lookedUp h with }

/-- Where the match ends is the same (rules R137, R152). -/
theorem Twins.matchEndFrom_eq {q : Nat} (hq : q < s.enc.r) :
    u.matchEndFrom q = s.matchEndFrom q := by
  rw [State.matchEndFrom, State.matchEndFrom, hT.r, hT.n]
  exact extendWords_eq_of_agree_below hT.src _ (by omega)

/-- The sequence of the match is the same (rules R152, R153). -/
theorem Twins.measuredSequence_eq (h : BitVec 12) (q e : Nat) (hanchor : s.enc.anchor ≤ s.enc.r) (hr : s.enc.r ≤ s.enc.n) :
    (matchMeasuredTo u h q e).measuredSequence = (matchMeasuredTo s h q e).measuredSequence := by
  show (⟨BitVec.ofNat 16 (u.enc.r - q), bytesFrom u.srcByte u.enc.anchor (u.enc.r - u.enc.anchor), e - u.enc.r⟩ : Sequence) =
    ⟨BitVec.ofNat 16 (s.enc.r - q), bytesFrom s.srcByte s.enc.anchor (s.enc.r - s.enc.anchor), e - s.enc.r⟩
  rw [hT.r, hT.anchor, bytesFrom_eq_of_agree_below hT.src (by omega)]

/-- The END of the stream is the same (rule R157). -/
theorem Twins.tailSequence_eq (hanchor : s.enc.anchor ≤ s.enc.n) : u.tailSequence = s.tailSequence := by
  rw [State.tailSequence, State.tailSequence, hT.n, hT.anchor, bytesFrom_eq_of_agree_below hT.src (by omega)]

/-- Both succeed (rule R221). -/
theorem Twins.finishCompress : EndedAlike (finishCompress s) (finishCompress u) where
  idle := ⟨rfl, rfl⟩
  status := rfl
  result := by rw [finishCompress_result, finishCompress_result, hT.cfg, hT.o]
  errKind := rfl
  out _ i hi := by
    have hio : i < s.enc.o := Nat.lt_of_lt_of_le hi (Nat.mod_le _ _)
    rw [finishCompress_dst, finishCompress_dst, Memory.get?_forget, Memory.get?_forget, hT.o, if_neg (by omega),
      if_neg (by omega), hT.out i hio]

/-- Both fail of one cause (rule R222). -/
theorem Twins.raise (c : Cause) : EndedAlike (raise s c) (raise u c) where
  idle := ⟨rfl, rfl⟩
  status := rfl
  result := by rw [raise_result, raise_result, hT.cfg]
  errKind := rfl
  out h := by cases h

/-! ### The turns -/

/-- The entry tests (rules R146, R147). -/
theorem Twins.encStart : AnswersAlike (.ok (encStart s)) (.ok (encStart u)) := by
  refine ⟨_, _, rfl, rfl, ?_⟩
  rcases Nat.lt_or_ge 65536 s.enc.n with hlong | hn
  · rw [encStart_of_long hlong, encStart_of_long (hT.n ▸ hlong)]
    exact .inr (hT.raise _)
  have hn' : u.enc.n ≤ 65536 := hT.n ▸ hn
  rcases Nat.lt_or_ge s.enc.n (s.enc.r + s.cfg.searchTail) with hshort | hfits
  · rw [encStart_of_flush hn hshort, encStart_of_flush hn' (by rwa [hT.n, hT.r, hT.cfg])]
    exact .inl ⟨.inr (.inr rfl), hT.withPhase _⟩
  · rw [encStart_of_search hn hfits, encStart_of_search hn' (by rwa [hT.n, hT.r, hT.cfg])]
    exact .inl ⟨.inr (.inl rfl), hT.withPhase _⟩

/-- FLUSH (rule R157). -/
theorem Twins.flushStep (hs : Inv s) (hp : s.phase = .encFlush) : AnswersAlike (flushStep s) (flushStep u) := by
  obtain ⟨hanchor, ho⟩ := hs.flush_registers hp
  have hmeasured : Twins (measureTail s) (measureTail u) := { hT with }
  have htail := hT.tailSequence_eq hanchor
  have hlit : u.enc.n - u.enc.anchor = s.enc.n - s.enc.anchor := by rw [hT.n, hT.anchor]
  have hspace : u.enc.cap - u.enc.o = s.enc.cap - s.enc.o := by rw [hT.cap, hT.o]
  by_cases h0 : s.enc.n - s.enc.anchor = 0
  · exact ⟨_, _, flushStep_of_empty h0, flushStep_of_empty (hlit.trans h0), .inr hmeasured.finishCompress⟩
  rcases Nat.lt_or_ge (s.enc.cap - s.enc.o) s.tailSequence.encode.length with hroom | hroom
  · exact ⟨_, _, flushStep_of_noRoom h0 hroom, flushStep_of_noRoom (hlit ▸ h0) (by rwa [hspace, htail]),
      .inr (hmeasured.raise _)⟩
  · obtain ⟨a, ha, hwa⟩ := flushStep_of_room h0 ho hroom
    obtain ⟨b, hb, hwb⟩ := flushStep_of_room (s := u) (hlit ▸ h0) (by rwa [hT.o, hT.cap]) (by rwa [hspace, htail])
    have htaken : Twins (takeTail (measureTail s)) (takeTail (measureTail u)) := { hT with }
    rw [htail] at hwb
    exact ⟨_, _, ha, hb, .inr (htaken.wrote hwa hwb).finishCompress⟩

/-- A measured match, dropped or written (rules R154 to R156). -/
theorem Twins.emitMatch (hs : Inv s) (hu : Inv u) (hp : s.phase = .encSearch) (h : BitVec 12) {q e : Nat}
    (he : s.enc.r ≤ e) (hen : e ≤ s.enc.n) :
    AnswersAlike (emitMatch (matchMeasuredTo s h q e)) (emitMatch (matchMeasuredTo u h q e)) := by
  obtain ⟨⟨hr, hwindow, hn⟩, hanchor, -⟩ := hs.search_registers hp
  have hseq := hT.measuredSequence_eq h q e hanchor (by omega)
  have hspace : u.enc.cap - u.enc.o = s.enc.cap - s.enc.o := by rw [hT.cap, hT.o]
  rcases Nat.lt_or_ge (s.enc.cap - s.enc.o)
    ((matchMeasuredTo s h q e).measuredSequence.encode.length + s.cfg.encMargin) with hroom | hroom
  · refine ⟨_, _, emitMatch_of_noRoom (s := matchMeasuredTo s h q e) hroom,
      emitMatch_of_noRoom (s := matchMeasuredTo u h q e) ?_, .inl ⟨.inr (.inr rfl), (hT.measured h q e).withPhase _⟩⟩
    show u.enc.cap - u.enc.o < _ + u.cfg.encMargin
    rwa [hspace, hseq, hT.cfg]
  · obtain ⟨a, ha, hwa⟩ := emitMatch_measured hs hp hroom
    obtain ⟨b, hb, hwb⟩ := emitMatch_measured (h := h) (q := q) (e := e) hu (hT.phase.trans hp) (by rwa [hspace, hseq, hT.cfg])
    rw [hseq] at hwb
    have hab := (hT.measured h q e).wrote hwa hwb
    have hae : a.enc.e = e := by rw [hwa.rest]; rfl
    have hbe : b.enc.e = e := by rw [hwb.rest]; rfl
    have han : a.enc.n = s.enc.n := hwa.n
    have hacfg : a.cfg = s.cfg := by rw [hwa.rest]; rfl
    have hend : b.enc.e = a.enc.e := hbe.trans hae.symm
    have htaken : Twins (matchTaken a) (matchTaken b) := { hab with r := hend, anchor := hend, miss := rfl }
    rw [ha, hb]
    refine htaken.continueSearch ?_ ?_ ?_ ?_
    · show a.enc.e ≤ a.enc.n
      omega
    · show a.enc.n ≤ 65536
      omega
    · show 1 ≤ a.enc.e
      omega
    · show 8 ≤ a.cfg.lookahead
      rw [hacfg]
      exact hs.lookahead_ge

/-- Two running encoders that agree take turns that answer alike. -/
theorem Twins.turn (hs : Inv s) (hu : Inv u) (hsa : s.agenda = []) (hua : u.agenda = []) (he : s.encoding) :
    ∃ a b, step s = toOutcome a ∧ step u = toOutcome b ∧ AnswersAlike a b := by
  rcases he with hp | hp | hp
  · exact ⟨_, _, by rw [step_nil hsa, selectEngine, hp]; rfl, by rw [step_nil hua, selectEngine, hT.phase, hp]; rfl,
      hT.encStart⟩
  · obtain ⟨⟨-, hwindow, -⟩, -⟩ := hs.search_registers hp
    have hup := hT.phase.trans hp
    obtain ⟨h, q, hslot⟩ := hs.exists_searchSlot hp
    have hslot' := hT.searchSlotIs hslot hwindow
    have hb := match_bounds hs hp hslot
    have hbytes : ∀ j, j < 4 → u.srcByte (q + j) = s.srcByte (q + j) ∧ u.srcByte (u.enc.r + j) = s.srcByte (s.enc.r + j) :=
      fun j hj => ⟨hT.src _ (by omega), by rw [hT.r, hT.src _ (by omega)]⟩
    by_cases hall : ∀ j, j < 4 → s.srcByte (q + j) = s.srcByte (s.enc.r + j)
    · have hall' : ∀ j, j < 4 → u.srcByte (q + j) = u.srcByte (u.enc.r + j) := fun j hj => by
        rw [(hbytes j hj).1, (hbytes j hj).2, hall j hj]
      have hstep := step_of_match hu hup hslot' hua hall'
      rw [hT.matchEndFrom_eq hb.1] at hstep
      exact ⟨_, _, step_of_match hs hp hslot hsa hall, hstep, hT.emitMatch hs hu hp h (by omega) hb.2.2⟩
    · simp only [not_forall] at hall
      obtain ⟨j, hj, hne⟩ := hall
      have hne' : u.srcByte (q + j) ≠ u.srcByte (u.enc.r + j) := by rwa [(hbytes j hj).1, (hbytes j hj).2]
      exact ⟨.ok _, .ok _, step_of_miss hs hp hslot hsa hj hne, step_of_miss hu hup hslot' hua hj hne', _, _, rfl, rfl,
        .inl ⟨searchMiss_encoding _, (hT.lookedUp h).searchMiss⟩⟩
  · exact ⟨_, _, by rw [step_nil hsa, selectEngine, hp]; rfl, by rw [step_nil hua, selectEngine, hT.phase, hp]; rfl,
      hT.flushStep hs hp⟩

end Twins

/-! ### The runs -/

/-- Two encoders that have just started on the same source agree: every slot of the hash index is empty (rules R18, R126). -/
theorem twins_of_started {s u : State} (hs : Inv s) (hu : Inv u) (hsp : s.phase = .encStart) (hup : u.phase = .encStart)
    (hn : u.enc.n = s.enc.n) (hcap : u.enc.cap = s.enc.cap) (hcfg : u.cfg = s.cfg)
    (hsrc : ∀ i, i < s.enc.n → u.srcByte i = s.srcByte i) : Twins s u := by
  obtain ⟨sr, sa, so, sm, sslots⟩ := hs.start_registers hsp
  obtain ⟨ur, ua, uo, um, uslots⟩ := hu.start_registers hup
  refine ⟨hup.trans hsp.symm, hcfg, hn, hcap, ur.trans sr.symm, ua.trans sa.symm, uo.trans so.symm, um.trans sm.symm, hsrc,
    fun i hi => ?_, fun h => BitVec.eq_of_toNat_eq ?_⟩
  · rw [so] at hi
    exact absurd hi (Nat.not_lt_zero i)
  · have hsslot := sslots h
    have huslot := uslots h
    omega

/-- Two encoders that agree end alike, after as many turns. -/
theorem Twins.run {k : Nat} {s u t : State} (hT : Twins s u) (hs : Inv s) (hu : Inv u) (hsa : s.agenda = [])
    (hua : u.agenda = []) (he : s.encoding) (hrun : runsTo k s t) (hidle : t.phase = .idle) :
    ∃ v, runsTo k u v ∧ EndedAlike t v := by
  induction k generalizing s u with
  | zero =>
    obtain rfl : s = t := Host.Outcome.next.inj hrun
    exact absurd hidle he.ne_idle
  | succ k ih =>
    obtain ⟨_, _, hsstep, hustep, s', u', rfl, rfl, hboth⟩ := hT.turn hs hu hsa hua he
    have hue : u.encoding := by rwa [State.encoding, hT.phase]
    have hspost := hs.encPost_of_step hsa he hsstep
    have hsa' := hspost.agenda.trans hsa
    have hua' := (hu.encPost_of_step hua hue hustep).agenda.trans hua
    obtain ⟨w, hw, hrun'⟩ := runsTo_succ_iff.1 hrun
    obtain rfl : s' = w := step_unique hsstep hw
    rcases hboth with ⟨he', hT'⟩ | hend
    · obtain ⟨v, hv, hend⟩ := ih hT' (stepKeepsInvariant _ _ hs hsstep) (stepKeepsInvariant _ _ hu hustep) hsa' hua' he' hrun'
      exact ⟨v, runsTo_succ hustep hv, hend⟩
    · obtain rfl : s' = t := runsTo_unique (runsTo_of_idle hsa' hend.idle.1) hrun'
      exact ⟨u', runsTo_succ hustep (runsTo_of_idle hua' hend.idle.2), hend⟩

/-- Settles O59: from the start on the two encoders agree. -/
theorem compressDependsOnlyOnItsSource : Obligations.CompressDependsOnlyOnItsSource := by
  intro s u t k hs hu hsa hua hsp hup hn hcap hcfg hsrc hrun hidle
  have hT := twins_of_started hs hu hsp hup hn hcap hcfg hsrc
  obtain ⟨v, hv, hend⟩ := hT.run hs hu hsa hua (.inl hsp) hrun hidle
  exact ⟨v, hv, hend.idle.2, hend.status, hend.result, hend.errKind, hend.out⟩

end Sys2Proof.Machine
end

section
/-! PROOFS. The copies as their burst strategies walk them (rules R172 to R184): what a run written up to some length means, the
reads a match copy makes, the five tiers one by one, the bursts of the literal copies. -/

namespace Sys2Proof.Machine

/-! ### A run of bytes, written from its start -/

/-- `m` is `d` with the first `w` bytes of the run `f` written from `start` on; between the run's end and `cap` anything may
stand (slack, rule R183). -/
structure RunStands (cap : Nat) (d : Memory) (start : Nat) (f : Nat → Byte) (w : Nat) (m : Memory) : Prop where
  draw : m.draw = d.draw
  below : ∀ i, i < start → m.get? i = d.get? i
  run : ∀ i, i < w → m.get? (start + i) = some (f i)
  above : ∀ i, cap ≤ i → m.get? i = d.get? i

/-- A walk of a copy stops at no check and leaves the run standing. -/
def LeavesRun (cap : Nat) (d : Memory) (start : Nat) (f : Nat → Byte) (w : Nat) (r : Except TierStop Memory) : Prop :=
  ∃ m, r = .ok m ∧ RunStands cap d start f w m

section Run

variable {cap start w : Nat} {d m : Memory} {f : Nat → Byte}

theorem RunStands.refl : RunStands cap d start f 0 d :=
  ⟨rfl, fun _ _ => rfl, fun i hi => absurd hi (Nat.not_lt_zero i), fun _ _ => rfl⟩

theorem RunStands.mono (h : RunStands cap d start f w m) {v : Nat} (hv : v ≤ w) : RunStands cap d start f v m :=
  { h with run := fun i hi => h.run i (hi.trans_le hv) }

/-- Two memories with the same run agree below its end. -/
theorem RunStands.get?_eq {m' : Memory} (h : RunStands cap d start f w m) (h' : RunStands cap d start f w m') {i : Nat}
    (hi : i < start + w) : m.get? i = m'.get? i := by
  by_cases hlt : i < start
  · rw [h.below i hlt, h'.below i hlt]
  · obtain ⟨j, rfl⟩ := Nat.exists_eq_add_of_le (Nat.le_of_not_lt hlt)
    rw [h.run j (by omega), h'.run j (by omega)]

/-- The run grows by bytes written at its end. -/
theorem RunStands.writeBytes (h : RunStands cap d start f w m) {bytes : List Byte}
    (hbytes : ∀ i, i < bytes.length → bytes[i]? = some (f (w + i))) (hcap : start + w + bytes.length ≤ cap) :
    RunStands cap d start f (w + bytes.length) (m.writeBytes (start + w) bytes) where
  draw := (Memory.writeBytes_draw ..).trans h.draw
  below i hi := by rw [Memory.get?_writeBytes, if_neg (by omega), h.below i hi]
  run i hi := by
    rw [Memory.get?_writeBytes]
    by_cases hlt : i < w
    · rw [if_neg (by omega), h.run i hlt]
    · obtain ⟨j, rfl⟩ := Nat.exists_eq_add_of_le (Nat.le_of_not_lt hlt)
      rw [if_pos (by omega), ← Nat.add_assoc, Nat.add_sub_cancel_left, hbytes j (by omega)]
  above i hi := by rw [Memory.get?_writeBytes, if_neg (by omega), h.above i hi]

/-- The run grows by a chunk copied to its end. -/
theorem RunStands.writeBytes_bytesFrom (h : RunStands cap d start f w m) {read : Nat → Byte} {a k : Nat}
    (hread : ∀ i, i < k → read (a + i) = f (w + i)) (hcap : start + w + k ≤ cap) :
    RunStands cap d start f (w + k) (m.writeBytes (start + w) (bytesFrom read a k)) := by
  have hlen := bytesFrom_length read a k
  have hrun := h.writeBytes (bytes := bytesFrom read a k)
    (fun i hi => by rw [bytesFrom_getElem?, if_pos (hlen ▸ hi), hread i (hlen ▸ hi)]) (hlen.symm ▸ hcap)
  rwa [hlen] at hrun

/-- A walk that leaves the run has the effect of whatever else writes it (rules R173, R175, R183). -/
theorem LeavesRun.agrees {r : Except TierStop Memory} (h : LeavesRun cap d start f w r) (hm : RunStands cap d start f w m) :
    ∃ d', r = .ok d' ∧ (∀ i, i < start + w → d'.get? i = m.get? i) ∧ (∀ i, cap ≤ i → d'.get? i = d.get? i) := by
  obtain ⟨d', hr, hd'⟩ := h
  exact ⟨d', hr, fun i hi => hd'.get?_eq hm hi, hd'.above⟩

end Run

/-! ### The run of a match copy (rule R176) -/

/-- Byte `i` of a match: the `off` bytes before `op`, repeated. -/
def matchPattern (d : Memory) (op off i : Nat) : Byte := d.byte 1 (op - off + i % off)

/-- DST with the first `w` bytes of a match copied. -/
abbrev MatchStands (cap : Nat) (d : Memory) (op off w : Nat) (m : Memory) : Prop :=
  RunStands cap d op (matchPattern d op off) w m

/-- The last byte of a match run is written last. -/
theorem matchRun_succ_last (d : Memory) (op off k : Nat) :
    matchRun d op off (k + 1) =
      (matchRun d op off k).write (op + k) ((matchRun d op off k).byte 1 (op + k - off)) := by
  induction k generalizing d op with
  | zero => rfl
  | succ k ih =>
    rw [matchRun, ih, matchRun, Nat.add_right_comm op 1 k]
    rfl

section Match

variable {cap op off w : Nat} {d m : Memory} (hop : off ≤ op)

include hop in
/-- From `op - off` on, up to the end of what is copied, the pattern stands. -/
theorem RunStands.byte_eq_matchPattern (h : MatchStands cap d op off w m) {t : Nat} (ht : t < off + w) :
    m.byte 1 (op - off + t) = matchPattern d op off t := by
  by_cases hlt : t < off
  · rw [matchPattern, Nat.mod_eq_of_lt hlt, Memory.byte, Memory.byte, h.below _ (by omega), h.draw]
  · obtain ⟨i, rfl⟩ := Nat.exists_eq_add_of_le (Nat.le_of_not_lt hlt)
    rw [← Nat.add_assoc, Nat.sub_add_cancel hop, Memory.byte_of_get? (h.run i (by omega)), matchPattern, matchPattern,
      Nat.add_mod_left]

include hop in
/-- A chunk read a multiple of `off` back, and no longer than that, carries the match on (rule R181). -/
theorem RunStands.chunkBack (h : MatchStands cap d op off w m) {k dist : Nat} (hdvd : off ∣ dist) (hk : k ≤ dist)
    (hdist : dist ≤ off + w) (hcap : op + w + k ≤ cap) :
    MatchStands cap d op off (w + k) (m.writeBytes (op + w) (bytesFrom (m.byte 1) (op + w - dist) k)) := by
  refine h.writeBytes_bytesFrom (fun i hi => ?_) hcap
  have hperiod : (off + w - dist + i) % off = (w + i) % off := by
    obtain ⟨c, rfl⟩ := hdvd
    rw [← Nat.add_mul_mod_self_left (off + w - off * c + i) off c, ← Nat.add_mod_left off (w + i)]
    congr 1
    omega
  rw [show op + w - dist + i = op - off + (off + w - dist + i) by omega, h.byte_eq_matchPattern hop (by omega), matchPattern,
    matchPattern, hperiod]

include hop in
/-- COPYk from DST to DST, where it carries the match on (rule R171). -/
theorem RunStands.leavesRun_copyChunk (h : MatchStands cap d op off w m) {k dist : Nat} (hdvd : off ∣ dist) (hk : k ≤ dist)
    (hdist : dist ≤ off + w) (hcap : op + w + k ≤ cap) :
    LeavesRun cap d op (matchPattern d op off) (w + k) (copyChunk cap m k (op + w - dist) (op + w)) :=
  ⟨_, if_pos ⟨by omega, hcap⟩, h.chunkBack hop hdvd hk hdist hcap⟩

include hop in
/-- The reference effect leaves the match: each byte is a chunk of one. -/
theorem matchStands_matchRun (h1 : 1 ≤ off) {mlen : Nat} (hcap : op + mlen ≤ cap) :
    MatchStands cap d op off mlen (matchRun d op off mlen) := by
  induction mlen with
  | zero => exact .refl
  | succ k ih =>
    rw [matchRun_succ_last]
    exact (ih (by omega)).chunkBack hop (Nat.dvd_refl off) h1 (Nat.le_add_right ..) hcap

/-! ### The tiers (rules R178 to R182) -/

/-- FILL: the pattern of one byte (rule R180). -/
theorem fillTier_leavesRun (h1 : 1 ≤ op) {mlen : Nat} (hcap : op + mlen ≤ cap) :
    LeavesRun cap d op (matchPattern d op 1) mlen (fillTier cap d op mlen) := by
  refine ⟨_, if_pos ⟨by omega, hcap⟩, ?_⟩
  have hrun := RunStands.refl (cap := cap) (d := d) (start := op) (f := matchPattern d op 1)
    |>.writeBytes (bytes := List.replicate mlen (d.byte 1 (op - 1)))
    (fun i hi => by
      rw [List.length_replicate] at hi
      rw [List.getElem?_replicate, if_pos hi, matchPattern, Nat.mod_one, Nat.add_zero])
    (by rwa [List.length_replicate])
  rwa [List.length_replicate, Nat.zero_add] at hrun

include hop in
/-- BULK: `w` stays within the double-chunks that the guard leaves room for (rule R178). -/
theorem bulkTier_leavesRun {fuel mlen : Nat} (h : MatchStands cap d op off w m) (h16 : 16 ≤ off)
    (hroom : w < mlen → op + w + 32 * ((mlen - w + 31) / 32) ≤ cap) (hfuel : mlen - w ≤ fuel) :
    LeavesRun cap d op (matchPattern d op off) mlen (bulkTier cap fuel m op off mlen w) := by
  induction fuel generalizing w m with
  | zero => exact ⟨m, rfl, h.mono (by omega)⟩
  | succ fuel ih =>
    rw [bulkTier]
    by_cases hw : mlen ≤ w
    · rw [if_pos hw]
      exact ⟨m, rfl, h.mono hw⟩
    · have hr := hroom (by omega)
      obtain ⟨m1, hc1, h1⟩ := h.leavesRun_copyChunk hop (Nat.dvd_refl off) h16 (by omega) (by omega)
      obtain ⟨m2, hc2, h2⟩ := h1.leavesRun_copyChunk hop (Nat.dvd_refl off) h16 (by omega) (by omega)
      rw [if_neg hw, hc1]
      simp only [Nat.add_assoc] at hc2 ⊢
      rw [hc2]
      exact ih h2 (fun _ => by omega) (by omega)

/-- Where TIGHT stands: the match copied up to `w`, fewer than `k` bytes left. -/
structure TightLeft (cap : Nat) (d : Memory) (op off mlen k : Nat) (mw : Memory × Nat) : Prop where
  stands : MatchStands cap d op off mw.2 mw.1
  le : mw.2 ≤ mlen
  left : mlen - mw.2 < k

include hop in
/-- The 16-byte chunks of TIGHT leave fewer than 16 bytes (rule R179). -/
theorem tightChunks_left {fuel mlen : Nat} (h : MatchStands cap d op off w m) (h16 : 16 ≤ off) (hw : w ≤ mlen)
    (hcap : op + mlen ≤ cap) (hfuel : mlen - w ≤ fuel) :
    ∃ a, tightChunks cap fuel m op off mlen w = .ok a ∧ TightLeft cap d op off mlen 16 a := by
  induction fuel generalizing w m with
  | zero => exact ⟨(m, w), rfl, h, hw, by omega⟩
  | succ fuel ih =>
    rw [tightChunks]
    by_cases hleft : 16 ≤ mlen - w
    · obtain ⟨m', hc, h'⟩ := h.leavesRun_copyChunk hop (Nat.dvd_refl off) h16 (by omega) (by omega)
      rw [if_pos hleft, hc]
      exact ih h' (by omega) (by omega)
    · rw [if_neg hleft]
      exact ⟨(m, w), rfl, h, hw, by omega⟩

include hop in
/-- A step of TIGHT by `k` bytes halves what may be left (rule R179). -/
theorem TightLeft.halve {mlen k : Nat} {a : Memory × Nat} (h : TightLeft cap d op off mlen (2 * k) a) (hk : k ≤ off)
    (hcap : op + mlen ≤ cap) :
    ∃ b, tightStep cap k op off mlen a = .ok b ∧ TightLeft cap d op off mlen k b := by
  obtain ⟨hstands, hle, hlt⟩ := h
  rw [tightStep]
  by_cases hleft : k ≤ mlen - a.2
  · obtain ⟨m', hc, h'⟩ := hstands.leavesRun_copyChunk hop (Nat.dvd_refl off) hk (by omega) (by omega)
    rw [if_pos hleft, hc]
    exact ⟨_, rfl, h', by simp only; omega, by simp only; omega⟩
  · rw [if_neg hleft]
    exact ⟨a, rfl, hstands, hle, by omega⟩

include hop in
/-- TIGHT: 16-byte chunks, then 8, 4, 2 and 1 (rule R179). -/
theorem tightTier_leavesRun {mlen : Nat} (h16 : 16 ≤ off) (hcap : op + mlen ≤ cap) :
    LeavesRun cap d op (matchPattern d op off) mlen (tightTier cap d op off mlen) := by
  obtain ⟨a, ha, left16⟩ := tightChunks_left (fuel := mlen) hop .refl h16 (Nat.zero_le mlen) hcap (Nat.sub_le ..)
  obtain ⟨b, hb, left8⟩ := left16.halve hop (k := 8) (by omega) hcap
  obtain ⟨c, hc, left4⟩ := left8.halve hop (k := 4) (by omega) hcap
  obtain ⟨e, he, left2⟩ := left4.halve hop (k := 2) (by omega) hcap
  obtain ⟨g, hg, left1⟩ := left2.halve hop (k := 1) (by omega) hcap
  refine ⟨g.1, by simp only [tightTier, ha, hb, hc, he, hg], left1.stands.mono ?_⟩
  exact Nat.le_of_sub_eq_zero (Nat.lt_one_iff.1 left1.left)

include hop in
/-- DOUBLING: the distance is a multiple of the period and reaches back no further than `op - off` while bytes are left (rule
R181). -/
theorem doublingTier_leavesRun {fuel mlen dist : Nat} (h : MatchStands cap d op off w m) (h1 : 1 ≤ dist) (hdvd : off ∣ dist)
    (hdist : w < mlen → dist ≤ off + w) (hcap : op + mlen ≤ cap) (hfuel : mlen - w ≤ fuel) :
    LeavesRun cap d op (matchPattern d op off) mlen (doublingTier cap fuel m op mlen w dist) := by
  induction fuel generalizing w m dist with
  | zero => exact ⟨m, rfl, h.mono (by omega)⟩
  | succ fuel ih =>
    rw [doublingTier]
    by_cases hw : mlen ≤ w
    · rw [if_pos hw]
      exact ⟨m, rfl, h.mono hw⟩
    · have hback := hdist (by omega)
      rw [if_neg hw]
      by_cases hphase : dist < 16
      · obtain ⟨m', hc, h'⟩ := h.leavesRun_copyChunk hop (k := min dist (mlen - w)) hdvd (by omega) hback (by omega)
        rw [if_pos hphase, hc]
        exact ih h' (by omega) (hdvd.mul_left 2) (by omega) (by omega)
      · obtain ⟨m', hc, h'⟩ := h.leavesRun_copyChunk hop (k := min 16 (mlen - w)) hdvd (by omega) hback (by omega)
        rw [if_neg hphase, hc]
        exact ih h' h1 hdvd (by omega) (by omega)

/-- BYTEWISE is the reference effect, since its check never fires (rule R182). -/
theorem bytewiseTier_eq_matchRun {mlen : Nat} (hcap : op + mlen ≤ cap) :
    bytewiseTier cap d op off mlen = .ok (matchRun d op off mlen) := by
  induction mlen generalizing d op with
  | zero => rfl
  | succ k ih =>
    rw [bytewiseTier, if_neg (by omega), ih (by omega)]
    rfl

include hop in
/-- The tier that the guards of rule R177 select leaves the match. -/
theorem matchTier_leavesRun (h1 : 1 ≤ off) {mlen : Nat} (hcap : op + mlen ≤ cap) :
    LeavesRun cap d op (matchPattern d op off) mlen (matchTier cap d op off mlen) := by
  rw [matchTier, tierOf]
  by_cases hfill : off = 1
  · subst hfill
    exact fillTier_leavesRun hop hcap
  rw [if_neg hfill]
  by_cases h16 : 16 ≤ off
  · rw [if_pos h16]
    by_cases hbulk : 32 * ((mlen + 31) / 32) ≤ cap - op
    · rw [if_pos hbulk]
      exact bulkTier_leavesRun hop .refl h16 (by omega) (Nat.le_refl _)
    · rw [if_neg hbulk]
      exact tightTier_leavesRun hop h16 hcap
  rw [if_neg h16]
  by_cases hdoubling : mlen + 16 ≤ cap - op
  · rw [if_pos hdoubling]
    exact doublingTier_leavesRun hop .refl h1 (Nat.dvd_refl off) (fun _ => Nat.le_refl _) hcap (Nat.le_refl _)
  · rw [if_neg hdoubling]
    exact ⟨_, bytewiseTier_eq_matchRun hcap, matchStands_matchRun hop h1 hcap⟩

end Match

/-- Settles O50: the selected tier and the reference effect leave the same match. -/
theorem tiersHaveReferenceEffect : Obligations.TiersHaveReferenceEffect := by
  intro cap d op off mlen h1 hop hcap
  exact (matchTier_leavesRun hop h1 hcap).agrees (matchStands_matchRun hop h1 hcap)

/-- Settles O49: the periodic form is `matchStands_matchRun`; the match copy adds the slack up to `cap`. -/
theorem matchCopyIsPeriodic : Obligations.MatchCopyIsPeriodic := by
  refine ⟨fun d op off mlen h1 hop => ⟨(matchStands_matchRun hop h1 (Nat.le_refl _)).run, get?_matchRun_outside d op off mlen⟩,
    fun s h1 hop hmlen hcap => ?_⟩
  have hroom : s.dec.op + s.dec.mlen ≤ s.dec.cap := by omega
  have hrun := matchStands_matchRun (d := s.dst) hop h1 hroom
  refine ⟨_, matchCopy_ok s (fun h => by simp [h] at h1) hop hroom, rfl, fun i hi => ?_, fun i hi => ?_, fun i hlo hhi => ?_⟩
  · rw [Memory.get?_forget, if_neg (by omega), hrun.run i hi]
    rfl
  · rw [Memory.get?_forget, if_neg (by omega)]
    exact hi.elim (hrun.below i) (hrun.above i)
  · rw [Memory.get?_forget, if_pos ⟨hlo, hhi⟩]

/-! ### The literal copies (rules R172, R173, R175) -/

section Literals

variable {read : Nat → Byte} {n cap si di len : Nat} {d : Memory}

/-- The reference effect leaves the literals (rule R172). -/
theorem runStands_literalRun (hcap : di + len ≤ cap) :
    RunStands cap d di (fun i => read (si + i)) len (literalRun read d si di len) where
  draw := literalRun_draw ..
  below i hi := by rw [get?_literalRun, if_neg (by omega)]
  run i hi := by rw [get?_literalRun, if_pos (by omega), Nat.add_sub_cancel_left]
  above i hi := by rw [get?_literalRun, if_neg (by omega)]

/-- COPYk from SRC to DST, where it carries the literals on (rule R171). -/
theorem RunStands.leavesRun_copyChunkSrc {w k : Nat} {m : Memory} (h : RunStands cap d di (fun i => read (si + i)) w m)
    (hn : si + w + k ≤ n) (hcap : di + w + k ≤ cap) :
    LeavesRun cap d di (fun i => read (si + i)) (w + k) (copyChunkSrc read n cap m k (si + w) (di + w)) :=
  ⟨_, (if_neg (by omega)).trans (if_neg (by omega)),
    h.writeBytes_bytesFrom (fun i _ => congrArg read (Nat.add_assoc si w i)) hcap⟩

/-- The bursts leave the literals: 16 bytes where both buffers have them, else all that is left (rules R173, R175). -/
theorem litBursts_leavesRun {fuel w : Nat} {m : Memory} (h : RunStands cap d di (fun i => read (si + i)) w m)
    (hn : si + len ≤ n) (hcap : di + len ≤ cap) (hfuel : len - w ≤ fuel) :
    LeavesRun cap d di (fun i => read (si + i)) len (litBursts read n cap fuel m si di len w) := by
  induction fuel generalizing w m with
  | zero => exact ⟨m, rfl, h.mono (by omega)⟩
  | succ fuel ih =>
    rw [litBursts]
    by_cases hw : len ≤ w
    · rw [if_pos hw]
      exact ⟨m, rfl, h.mono hw⟩
    · rw [if_neg hw]
      by_cases hburst : 16 ≤ n - (si + w) ∧ 16 ≤ cap - (di + w)
      · obtain ⟨m', hc, h'⟩ := h.leavesRun_copyChunkSrc (n := n) (k := 16) (by omega) (by omega)
        rw [if_pos hburst, hc]
        exact ih h' (by omega)
      · rw [if_neg hburst]
        have htail := h.leavesRun_copyChunkSrc (n := n) (k := len - w) (by omega) (by omega)
        rwa [Nat.add_sub_cancel' (Nat.le_of_not_le hw)] at htail

end Literals

/-- Settles O51: the bursts and the reference effect leave the same literals. -/
theorem literalBurstsHaveReferenceEffect : Obligations.LiteralBurstsHaveReferenceEffect := by
  intro read n cap d si di len hn hcap
  exact (litBursts_leavesRun .refl hn hcap (Nat.le_refl _)).agrees (runStands_literalRun hcap)

end Sys2Proof.Machine
end

section
/-! PROOFS. A SEQ in one step (rules R193 to R201), what the decoder's turn is by what stands at `ip` (rules R107, R192, R193), and
the end test (rules R202, R204). -/

namespace Sys2Proof.Machine

/-- Settles O11: the SEQ that fails no test, from the state with its token taken. -/
theorem seqExecutes : Obligations.SeqExecutes := by
  intro s off mf lf hr hoff hmf hlf hn hcap hstart
  have hready : DecoderReady (takeToken s off mf lf) := ⟨show s.dec.ip + 3 ≤ s.dec.n by omega, hr.2⟩
  have hstep : runToken s off mf lf = .ok (sequenceTaken (takeToken s off mf lf)) :=
    (literalLength_of_ne (s := takeToken s off mf lf) hlf).trans
      (literalStep_takesSequence (s := takeToken s off mf lf) hoff hcap hstart hmf hn)
  exact ⟨(sequenceTaken (takeToken s off mf lf)).dst, congrArg toOutcome hstep,
    literalsAt_sequenceTaken (s := takeToken s off mf lf) hcap, matchAt_sequenceTaken hoff hcap hstart hready hn,
    dstKept_sequenceTaken (s := takeToken s off mf lf) hcap⟩

/-! ### The turn at `ip` -/

/-- The token whose bytes stand at `ip` (rules R46, R193). -/
def State.tokenAhead (s : State) : Token :=
  tokenOfBytes (s.srcByte s.dec.ip) (s.srcByte (s.dec.ip + 1)) (s.srcByte (s.dec.ip + 2))

section Turns

variable {s : State} (ha : s.agenda = [])
include ha

/-- The turn at a sequence boundary with three bytes left (rules R192, R193). -/
theorem step_tokenAhead (hp : s.phase = .decBoundary) (hn : s.dec.ip + 3 ≤ s.dec.n) :
    step s = toOutcome (runToken s (tokenOff s.tokenAhead) (tokenMf s.tokenAhead) (tokenLf s.tokenAhead)) := by
  rw [step_nil ha, selectEngine_token hp hn rfl, exec_decodeToken]
  rfl

/-- The turn at a sequence boundary with fewer bytes left (rules R192, R202). -/
theorem step_endTest (hp : s.phase = .decBoundary) (hn : s.dec.n - s.dec.ip < 3) : step s = .next (tailStep s) := by
  rw [step_nil ha, selectEngine, hp]
  exact congrArg Selected.outcome (if_pos hn)

/-- The turn inside a chain with no byte left (rule R107). -/
theorem step_truncated (hp : s.phase = .decChain) (hn : s.dec.n ≤ s.dec.ip) : step s = .next (raise s .escapeTruncated) := by
  rw [step_nil ha, selectEngine, hp]
  exact congrArg Selected.outcome (if_pos (by omega))

end Turns

/-! ### The end test -/

/-- Settles O24: the end test on either side. -/
theorem endTestAtSequenceBoundary : Obligations.EndTestAtSequenceBoundary := by
  intro s ha hp hfew
  refine ⟨fun hne => ⟨raise s .trailingBytes, ?_, (decPost_raise s _ rfl).decodeFailed rfl⟩,
    fun hn => ⟨_, step_of_usedUp ha hp hn, rfl, rfl, rfl, rfl, fun i hi => ?_⟩⟩
  · rw [step_endTest ha hp hfew, tailStep, if_pos hne]
  · rw [complete_dst, Memory.get?_forget, if_neg (by omega)]

/-- Settles O25: DECOMPRESS starts at a boundary of a stream that is used up. -/
theorem emptyStreamDecodesToNothing : Obligations.EmptyStreamDecodesToNothing := by
  intro s hlaunch ha hn
  exact ⟨startDecompress s, _, hlaunch.exec_eq, step_of_usedUp ha rfl hn.symm, rfl, rfl, Nat.zero_mod _, rfl⟩

end Sys2Proof.Machine
end

section
/-! PROOFS. DECOMPRESS ends (rules R208, R219): every turn of the decoder ends the command or consumes a byte of the stream. -/

namespace Sys2Proof.Machine

/-! ### Turns of the decoder -/

/-- The invariant of a running decoder is that it is ready. -/
theorem Inv.decoderReady {s : State} (h : Inv s) (hd : s.decoding) : DecoderReady s := by
  have hdec := h.decoder
  rcases hd with hp | hp <;> simpa only [DecoderInv, hp] using hdec

/-- A turn of the decoder is a decoder step, which ends the command or consumes a byte. -/
theorem Inv.decoder_turn {s : State} (h : Inv s) (ha : s.agenda = []) (hd : s.decoding) :
    ∃ t, step s = .next t ∧ DecPost s t ∧ (t.phase ≠ .idle → s.dec.ip < t.dec.ip) := by
  obtain ⟨t, ht, ⟨hidle, -⟩ | ⟨he, -⟩ | ⟨-, hpost⟩⟩ := engine_turn h
  · exact absurd hidle hd.ne_idle
  · exact absurd hd he.not_decoding
  · exact ⟨t, (step_nil ha).trans ht, hpost⟩

theorem Inv.decPost_of_step {s t : State} (h : Inv s) (ha : s.agenda = []) (hd : s.decoding) (ht : step s = .next t) :
    DecPost s t := by
  obtain ⟨u, hu, hpost, -⟩ := h.decoder_turn ha hd
  obtain rfl : u = t := step_unique hu ht
  exact hpost

/-- A decoder step leaves the agenda as it was. -/
theorem DecPost.agenda {s t : State} (hp : DecPost s t) : t.agenda = s.agenda := by
  obtain ⟨-, -, hagenda, -⟩ := hp.frame
  exact hagenda

/-- A decoder step that does not end the command leaves the decoder running. -/
theorem DecPost.decoding {s t : State} (hp : DecPost s t) (hne : t.phase ≠ .idle) : t.decoding := by
  rcases hp.ends with ⟨hidle, -⟩ | ⟨hd, -⟩
  · exact absurd hidle hne
  · exact hd

/-! ### The bound -/

/-- Settles O44, by induction on the stream bytes left. -/
theorem decompressAlwaysCompletes : Obligations.DecompressAlwaysCompletes := by
  intro s h ha hd
  induction hm : s.dec.n - s.dec.ip using Nat.strong_induction_on generalizing s with
  | h m ih =>
    obtain ⟨t, ht, hpost, hmoves⟩ := h.decoder_turn ha hd
    by_cases hidle : t.phase = .idle
    · refine ⟨1, t, Nat.le_add_left 1 m, runsTo_succ ht rfl, hidle, ?_⟩
      rcases hpost.ends_of_idle hidle with ⟨hst, -⟩ | ⟨hst, -⟩ <;> rw [State.done, hst] <;> rfl
    · have hinv := stepKeepsInvariant s t h ht
      have htd := hpost.decoding hidle
      obtain ⟨hip, -⟩ := hinv.decoderReady htd
      have hmoves := hmoves hidle
      have hn := hpost.sizes.1
      obtain ⟨k, u, hk, hrun, hend⟩ := ih _ (by omega) t hinv (hpost.agenda.trans ha) htd rfl
      exact ⟨k + 1, u, by omega, runsTo_succ ht hrun, hend⟩

end Sys2Proof.Machine
end

section
/-! PROOFS. Two decoders on one stream (rules R206, R210): blocks that agree on what a DECOMPRESS reads, its stream, its cursors and
the output so far, agree on it after every turn, and end alike. Of a decoder beside itself the same says how it ends. -/

namespace Sys2Proof.Machine

/-- Two decoders agree on what is read at a sequence boundary. -/
structure StreamTwins (s u : State) : Prop where
  lenBits : u.cfg.lenBits = s.cfg.lenBits
  n : u.dec.n = s.dec.n
  cap : u.dec.cap = s.dec.cap
  ip : u.dec.ip = s.dec.ip
  op : u.dec.op = s.dec.op
  src : ∀ i, i < s.dec.n → u.srcByte i = s.srcByte i
  out : ∀ i, i < s.dec.op → u.dst.get? i = s.dst.get? i

/-- Two decoders agree on what is read inside a sequence. -/
structure SequenceTwins (s u : State) : Prop extends StreamTwins s u where
  off : u.dec.off = s.dec.off
  mf : u.dec.mf = s.dec.mf
  lit : u.dec.lit = s.dec.lit

/-- Two decoders agree on what is read inside an escape chain. -/
structure ChainTwins (s u : State) : Prop extends SequenceTwins s u where
  acc : u.dec.acc = s.dec.acc
  chain : u.dec.chain = s.dec.chain

/-- Two running decoders agree on everything a turn reads. -/
def DecoderTwins (s u : State) : Prop :=
  (s.phase = .decBoundary ∧ u.phase = .decBoundary ∧ StreamTwins s u) ∨
  (s.phase = .decChain ∧ u.phase = .decChain ∧ ChainTwins s u)

/-- Two decoders' turns have left both running in agreement, failed of one cause, or returned with the whole stream consumed. -/
inductive DecodedAlike : State → State → Prop
  | runs {s u : State} (hT : DecoderTwins s u) : DecodedAlike s u
  | fails {s u : State} (c : Cause) (hc : c.kind = .malformedStream) (hT : StreamTwins s u) :
    DecodedAlike (raise s c) (raise u c)
  | returns {s u : State} (hT : StreamTwins s u) (hr : DecoderReady s) (hn : s.dec.ip = s.dec.n) :
    DecodedAlike (complete s s.dec.cap s.dec.op) (complete u u.dec.cap u.dec.op)

/-- What two decoders' operations answer. -/
def DecodeAlike (a b : Except Fault State) : Prop := ∃ t v, a = .ok t ∧ b = .ok v ∧ DecodedAlike t v

/-- A match run over the same specified output gives the same output (rule R176). -/
theorem get?_matchRun_congr {d d' : Memory} {op off k i : Nat} (h1 : 1 ≤ off) (hop : off ≤ op)
    (hout : ∀ i, i < op → d'.get? i = d.get? i) (hspec : ∀ i, i < op → d.get? i ≠ none) (hi : i < op + k) :
    (matchRun d' op off k).get? i = (matchRun d op off k).get? i := by
  by_cases hlt : i < op
  · rw [get?_matchRun_outside _ _ _ _ _ (.inl hlt), get?_matchRun_outside _ _ _ _ _ (.inl hlt), hout i hlt]
  · obtain ⟨j, rfl⟩ := Nat.exists_eq_add_of_le (Nat.le_of_not_lt hlt)
    have hj : j < k := by omega
    have hmod : j % off < off := Nat.mod_lt _ h1
    have hfrom : op - off + j % off < op := by omega
    obtain ⟨b, hb⟩ := Option.ne_none_iff_exists'.1 (hspec _ hfrom)
    rw [(matchCopyIsPeriodic.1 d' op off k h1 hop).1 j hj, (matchCopyIsPeriodic.1 d op off k h1 hop).1 j hj,
      Memory.byte_of_get? hb, Memory.byte_of_get? ((hout _ hfrom).trans hb)]

section Twins

variable {s u : State}

/-- What a decoder agrees with is ready where it is. -/
theorem StreamTwins.ready (hT : StreamTwins s u) (hr : DecoderReady s) : DecoderReady u := by
  obtain ⟨hip, hop, hcap, hspec⟩ := hr
  refine ⟨by rwa [hT.ip, hT.n], by rwa [hT.op, hT.cap], by rwa [hT.cap, hT.lenBits], fun i hi => ?_⟩
  rw [hT.op] at hi
  exact hT.out i hi ▸ hspec i hi

/-! ### The steps of a sequence -/

/-- Step 5 (rule R197). -/
theorem SequenceTwins.endStep (hT : SequenceTwins s u) (hr : DecoderReady s) :
    DecodedAlike (endStep s) (endStep u) := by
  unfold Machine.endStep
  rw [hT.lit, hT.mf, hT.ip, hT.n]
  split_ifs with hlit hmf hn
  · exact .fails _ rfl hT.toStreamTwins
  · exact .fails _ rfl hT.toStreamTwins
  · exact .fails _ rfl hT.toStreamTwins
  · exact .returns hT.toStreamTwins hr (not_not.1 hn)

/-- The match taken on both sides (rule R201). -/
theorem SequenceTwins.matchCopied (hT : SequenceTwins s u) (hr : DecoderReady s) (hm : u.dec.mlen = s.dec.mlen)
    (h0 : s.dec.off ≠ 0) (h1 : s.dec.off.toNat ≤ s.dec.op) : StreamTwins (matchCopied s) (matchCopied u) := by
  have hop : (Machine.matchCopied u).dec.op = (Machine.matchCopied s).dec.op := congrArg₂ (· + ·) hT.op hm
  refine { hT with op := hop, out := fun i hi => ?_ }
  have hpos : s.dec.off.toNat ≠ 0 := fun e => h0 (BitVec.eq_of_toNat_eq e)
  have hi' : i < s.dec.op + s.dec.mlen := hi
  rw [Machine.matchCopied, Machine.matchCopied, Memory.get?_forget, Memory.get?_forget, hT.op, hm, hT.off,
    if_neg (by omega), if_neg (by omega)]
  exact get?_matchRun_congr (by omega) h1 hT.out hr.2.2.2 hi'

/-- Steps 5 to 7 (rules R197 to R201). -/
theorem SequenceTwins.finishSequence (hT : SequenceTwins s u) (hr : DecoderReady s) (hm : u.dec.mlen = s.dec.mlen) :
    DecodeAlike (finishSequence s) (finishSequence u) := by
  by_cases h0 : s.dec.off = 0
  · exact ⟨_, _, finishSequence_of_end h0, finishSequence_of_end (hT.off.trans h0), hT.endStep hr⟩
  have h0' : u.dec.off ≠ 0 := by rwa [hT.off]
  by_cases h1 : s.dec.op < s.dec.off.toNat
  · have h1' : u.dec.op < u.dec.off.toNat := by rwa [hT.op, hT.off]
    exact ⟨_, _, (finishSequence_of_match h0).trans (if_pos h1), (finishSequence_of_match h0').trans (if_pos h1'),
      .fails _ rfl hT.toStreamTwins⟩
  have h1' : ¬ u.dec.op < u.dec.off.toNat := by rwa [hT.op, hT.off]
  by_cases h2 : s.dec.cap - s.dec.op < s.dec.mlen
  · have h2' : u.dec.cap - u.dec.op < u.dec.mlen := by rwa [hT.cap, hT.op, hm]
    exact ⟨_, _, (finishSequence_of_match h0).trans ((if_neg h1).trans (if_pos h2)),
      (finishSequence_of_match h0').trans ((if_neg h1').trans (if_pos h2')), .fails _ rfl hT.toStreamTwins⟩
  have hroom : s.dec.op + s.dec.mlen ≤ s.dec.cap := by have := hr.2.1; omega
  have hroom' : u.dec.op + u.dec.mlen ≤ u.dec.cap := by rwa [hT.op, hm, hT.cap]
  exact ⟨_, _, finishSequence_of_fits h0 (Nat.le_of_not_lt h1) hroom, finishSequence_of_fits h0' (Nat.le_of_not_lt h1') hroom',
    .runs (.inl ⟨rfl, rfl, hT.matchCopied hr hm h0 (Nat.le_of_not_lt h1)⟩)⟩

/-- The start of a chain on both sides (rule R107). -/
theorem SequenceTwins.startChain (hT : SequenceTwins s u) (c : ChainKind) :
    DecodedAlike (startChain s c) (startChain u c) :=
  .runs (.inr ⟨rfl, rfl, { hT with acc := rfl, chain := rfl }⟩)

/-- Step 4 (rule R196). -/
theorem SequenceTwins.matchLength (hT : SequenceTwins s u) (hr : DecoderReady s) :
    DecodeAlike (matchLength s) (matchLength u) := by
  have hfield : SequenceTwins (takeMatchField s) (takeMatchField u) := { hT with }
  by_cases hmf : s.dec.mf = 15
  · exact ⟨_, _, matchLength_of_saturated hmf, matchLength_of_saturated (hT.mf.trans hmf), hfield.startChain _⟩
  · rw [matchLength_of_ne hmf, matchLength_of_ne (hT.mf ▸ hmf)]
    exact hfield.finishSequence hr (congrArg (4 + BitVec.toNat ·) hT.mf)

/-- The literals taken on both sides (rules R172, R195). -/
theorem SequenceTwins.literalsTaken (hT : SequenceTwins s u) (hn : s.dec.ip + s.dec.lit ≤ s.dec.n) :
    SequenceTwins (literalsTaken s) (literalsTaken u) := by
  refine { hT with ip := congrArg₂ (· + ·) hT.ip hT.lit, op := congrArg₂ (· + ·) hT.op hT.lit, out := fun i hi => ?_ }
  have hi' : i < s.dec.op + s.dec.lit := hi
  rw [Machine.literalsTaken, Machine.literalsTaken, Memory.get?_forget, Memory.get?_forget, hT.op, hT.lit, hT.ip,
    if_neg (by omega), if_neg (by omega), get?_literalRun, get?_literalRun]
  split
  · rw [hT.src _ (by omega)]
  · exact hT.out i (by omega)

/-- Step 3 (rule R195). -/
theorem SequenceTwins.literalStep (hT : SequenceTwins s u) (hr : DecoderReady s) :
    DecodeAlike (literalStep s) (literalStep u) := by
  have ⟨hip, hop, _⟩ := hr
  by_cases h1 : s.dec.n - s.dec.ip < s.dec.lit
  · have h1' : u.dec.n - u.dec.ip < u.dec.lit := by rwa [hT.n, hT.ip, hT.lit]
    exact ⟨_, _, if_pos h1, if_pos h1', .fails _ rfl hT.toStreamTwins⟩
  have h1' : ¬ u.dec.n - u.dec.ip < u.dec.lit := by rwa [hT.n, hT.ip, hT.lit]
  by_cases h2 : s.dec.cap - s.dec.op < s.dec.lit
  · have h2' : u.dec.cap - u.dec.op < u.dec.lit := by rwa [hT.cap, hT.op, hT.lit]
    exact ⟨_, _, (if_neg h1).trans (if_pos h2), (if_neg h1').trans (if_pos h2'), .fails _ rfl hT.toStreamTwins⟩
  have hn : s.dec.ip + s.dec.lit ≤ s.dec.n := by omega
  have hcap : s.dec.op + s.dec.lit ≤ s.dec.cap := by omega
  rw [literalStep_of_fits hn hcap, literalStep_of_fits (by rwa [hT.ip, hT.lit, hT.n]) (by rwa [hT.op, hT.lit, hT.cap])]
  exact (hT.literalsTaken hn).matchLength (literalsTaken_ready hr hn hcap)

/-! ### The turns -/

/-- A token (rules R193 to R201). -/
theorem StreamTwins.runToken (hT : StreamTwins s u) (hr : DecoderReady s) (hn : s.dec.ip + 3 ≤ s.dec.n) (off : BitVec 16)
    (mf lf : BitVec 4) : DecodeAlike (runToken s off mf lf) (runToken u off mf lf) := by
  have htaken : SequenceTwins (takeToken s off mf lf) (takeToken u off mf lf) :=
    { hT with ip := congrArg (· + 3) hT.ip, off := rfl, mf := rfl, lit := rfl }
  by_cases hlf : lf = 15
  · exact ⟨_, _, literalLength_of_saturated hlf, literalLength_of_saturated hlf, htaken.startChain _⟩
  · rw [Machine.runToken, Machine.runToken, literalLength_of_ne hlf, literalLength_of_ne hlf]
    exact htaken.literalStep ⟨hn, hr.2⟩

/-- The end of a chain (rules R107, R194, R196). -/
theorem ChainTwins.chainDone (hT : ChainTwins s u) (hr : DecoderReady s) : DecodeAlike (chainDone s) (chainDone u) := by
  cases hc : s.dec.chain with
  | literal =>
    rw [chainDone_of_literal hc, chainDone_of_literal (hT.chain.trans hc)]
    have hread : SequenceTwins { s with dec := { s.dec with lit := s.dec.acc } }
      { u with dec := { u.dec with lit := u.dec.acc } } := { hT with lit := hT.acc }
    exact hread.literalStep hr
  | mtch =>
    rw [chainDone_of_match hc, chainDone_of_match (hT.chain.trans hc)]
    have hread : SequenceTwins { s with dec := { s.dec with mlen := 4 + s.dec.acc } }
      { u with dec := { u.dec with mlen := 4 + u.dec.acc } } := { hT with }
    exact hread.finishSequence hr (congrArg (4 + ·) hT.acc)

/-- The end test (rule R202). -/
theorem StreamTwins.tailStep (hT : StreamTwins s u) (hr : DecoderReady s) : DecodedAlike (tailStep s) (tailStep u) := by
  unfold Machine.tailStep
  rw [hT.ip, hT.n]
  split_ifs with hn
  · exact .fails _ rfl hT
  · exact .returns hT hr (not_not.1 hn)

/-- The token at `ip` (rules R46, R193). -/
theorem StreamTwins.tokenAhead (hT : StreamTwins s u) (hn : s.dec.ip + 3 ≤ s.dec.n) : u.tokenAhead = s.tokenAhead := by
  rw [State.tokenAhead, State.tokenAhead, hT.ip, hT.src _ (by omega), hT.src _ (by omega), hT.src _ (by omega)]

/-- A turn at a sequence boundary (rules R192, R202). -/
theorem StreamTwins.turn (hT : StreamTwins s u) (hr : DecoderReady s) (hsa : s.agenda = []) (hua : u.agenda = [])
    (hsp : s.phase = .decBoundary) (hup : u.phase = .decBoundary) :
    ∃ a b, step s = toOutcome a ∧ step u = toOutcome b ∧ DecodeAlike a b := by
  by_cases hend : s.dec.n - s.dec.ip < 3
  · exact ⟨.ok _, .ok _, step_endTest hsa hsp hend, step_endTest hua hup (by rwa [hT.n, hT.ip]), _, _, rfl, rfl, hT.tailStep hr⟩
  · have hn : s.dec.ip + 3 ≤ s.dec.n := by omega
    have hustep := step_tokenAhead hua hup (by rwa [hT.ip, hT.n])
    rw [hT.tokenAhead hn] at hustep
    exact ⟨_, _, step_tokenAhead hsa hsp hn, hustep, hT.runToken hr hn _ _ _⟩

/-- A turn inside a chain (rule R107). -/
theorem ChainTwins.turn (hT : ChainTwins s u) (hr : DecoderReady s) (hsa : s.agenda = []) (hua : u.agenda = [])
    (hsp : s.phase = .decChain) (hup : u.phase = .decChain) :
    ∃ a b, step s = toOutcome a ∧ step u = toOutcome b ∧ DecodeAlike a b := by
  by_cases hend : s.dec.n ≤ s.dec.ip
  · exact ⟨.ok _, .ok _, step_truncated hsa hsp hend, step_truncated hua hup (by rwa [hT.n, hT.ip]), _, _, rfl, rfl,
      .fails _ rfl hT.toStreamTwins⟩
  have hn : s.dec.ip + 1 ≤ s.dec.n := by omega
  have hn' : u.dec.ip + 1 ≤ u.dec.n := by rwa [hT.ip, hT.n]
  have hbyte : u.srcByte u.dec.ip = s.srcByte s.dec.ip := by rw [hT.ip, hT.src _ (by omega)]
  have htaken (b : Byte) : ChainTwins (takeEscape s b) (takeEscape u b) :=
    { hT with ip := congrArg (· + 1) hT.ip, acc := congrArg (· + b.toNat) hT.acc }
  by_cases hfull : s.srcByte s.dec.ip = 255
  · exact ⟨.ok _, .ok _, step_escape_full hsa hsp hn hfull, step_escape_full hua hup hn' (hbyte.trans hfull), _, _, rfl, rfl,
      .runs (.inr ⟨hsp, hup, htaken 255⟩)⟩
  · exact ⟨_, _, step_escape_last hsa hsp hn rfl hfull, step_escape_last hua hup hn' hbyte hfull,
      (htaken _).chainDone (takeEscape_ready hr hn _)⟩

/-- Two running decoders that agree take turns that leave them alike. -/
theorem DecoderTwins.turn (hT : DecoderTwins s u) (hr : DecoderReady s) (hsa : s.agenda = []) (hua : u.agenda = []) :
    ∃ t v, step s = .next t ∧ step u = .next v ∧ DecodedAlike t v := by
  have hturn : ∃ a b, step s = toOutcome a ∧ step u = toOutcome b ∧ DecodeAlike a b := by
    rcases hT with ⟨hsp, hup, hT⟩ | ⟨hsp, hup, hT⟩
    · exact hT.turn hr hsa hua hsp hup
    · exact hT.turn hr hsa hua hsp hup
  obtain ⟨_, _, hs, hu, t, v, rfl, rfl, halike⟩ := hturn
  exact ⟨t, v, hs, hu, halike⟩

end Twins

/-! ### How a command ends (rule R206) -/

/-- A decoder agrees with itself. -/
theorem DecoderTwins.refl {s : State} (hd : s.decoding) : DecoderTwins s s := by
  have hstream : StreamTwins s s := ⟨rfl, rfl, rfl, rfl, rfl, fun _ _ => rfl, fun _ _ => rfl⟩
  rcases hd with hp | hp
  · exact .inl ⟨hp, hp, hstream⟩
  · exact .inr ⟨hp, hp, ⟨hstream, rfl, rfl, rfl⟩, rfl, rfl⟩

theorem DecoderTwins.decoding {s u : State} (hT : DecoderTwins s u) : s.decoding ∧ u.decoding :=
  hT.elim (fun h => ⟨.inl h.1, .inl h.2.1⟩) fun h => ⟨.inr h.1, .inr h.2.1⟩

/-- A decoder's turn that ends the command fails it, or returns with the whole stream consumed. -/
theorem Inv.decoder_ends_in {s t : State} (h : Inv s) (ha : s.agenda = []) (hd : s.decoding) (ht : step s = .next t)
    (hidle : t.phase = .idle) :
    (∃ u c, c.kind = .malformedStream ∧ t = raise u c) ∨
      ∃ u, DecoderReady u ∧ u.dec.ip = u.dec.n ∧ t = complete u u.dec.cap u.dec.op := by
  obtain ⟨t', v, ht', -, halike⟩ := (DecoderTwins.refl hd).turn (h.decoderReady hd) ha ha
  obtain rfl : t' = t := step_unique ht' ht
  cases halike with
  | runs hT => exact absurd hidle hT.decoding.1.ne_idle
  | fails c hc _ => exact .inl ⟨_, c, hc, rfl⟩
  | returns _ hr hn => exact .inr ⟨_, hr, hn, rfl⟩

/-- Settles O42: a failure leaves what every failure leaves; a return has the whole stream consumed and its output below `op`. -/
theorem noPartialSuccess : Obligations.NoPartialSuccess := by
  intro s t h ha hd ht hidle
  have hpost := h.decPost_of_step ha hd ht
  have ⟨_, _, _, _, hsrcLen, hdstCap, _⟩ := hpost.frame
  rcases h.decoder_ends_in ha hd ht hidle with ⟨u, c, hc, rfl⟩ | ⟨u, ⟨-, hop, hwidth, hspec⟩, hn, rfl⟩
  · have hfailed := hpost.decodeFailed hc
    exact .inr ⟨rfl, congrArg some hsrcLen, congrArg some hdstCap, rfl, congrArg some hfailed.result,
      congrArg some hfailed.errKind, hfailed.lost⟩
  · refine .inl ⟨rfl, congrArg some (Config.fit_of_lt (Nat.lt_of_le_of_lt hop hwidth)), rfl, hpost.sizes.1, hn, fun i hi => ?_⟩
    rw [complete_dec] at hi
    rw [complete_dst, Memory.get?_forget, if_neg (by omega)]
    exact hspec i hi

/-! ### The runs -/

/-- What two decoders' turns leave is running in agreement or has ended alike. -/
theorem DecodedAlike.runs_or_ended {s u : State} (h : DecodedAlike s u) : DecoderTwins s u ∨ EndedAlike s u := by
  cases h with
  | runs hT => exact .inl hT
  | @fails s u c hc hT =>
    have hones : u.cfg.allOnes = s.cfg.allOnes := by rw [Config.allOnes, Config.allOnes, hT.lenBits]
    exact .inr { idle := ⟨rfl, rfl⟩, status := rfl, result := hones, errKind := rfl, out := fun h => by cases h }
  | @returns s u hT _ _ =>
    have hfit : u.cfg.fit u.dec.op = s.cfg.fit s.dec.op := by rw [Config.fit, Config.fit, hT.lenBits, hT.op]
    refine .inr { idle := ⟨rfl, rfl⟩, status := rfl, result := hfit, errKind := rfl, out := fun _ i hi => ?_ }
    have hio : i < s.dec.op := Nat.lt_of_lt_of_le hi (Nat.mod_le _ _)
    rw [complete_dst, complete_dst, Memory.get?_forget, Memory.get?_forget, hT.op, if_neg (by omega), if_neg (by omega),
      hT.out i hio]

/-- Two decoders that agree end alike, after as many turns. -/
theorem DecoderTwins.run {k : Nat} {s u t : State} (hT : DecoderTwins s u) (hs : Inv s) (hu : Inv u) (hsa : s.agenda = [])
    (hua : u.agenda = []) (hrun : runsTo k s t) (hidle : t.phase = .idle) :
    ∃ v, runsTo k u v ∧ EndedAlike t v := by
  induction k generalizing s u with
  | zero =>
    obtain rfl : s = t := Host.Outcome.next.inj hrun
    exact absurd hidle hT.decoding.1.ne_idle
  | succ k ih =>
    obtain ⟨hsd, hud⟩ := hT.decoding
    obtain ⟨s', u', hsstep, hustep, halike⟩ := hT.turn (hs.decoderReady hsd) hsa hua
    have hsa' := (hs.decPost_of_step hsa hsd hsstep).agenda.trans hsa
    have hua' := (hu.decPost_of_step hua hud hustep).agenda.trans hua
    obtain ⟨w, hw, hrun'⟩ := runsTo_succ_iff.1 hrun
    obtain rfl : s' = w := step_unique hsstep hw
    rcases halike.runs_or_ended with hT' | hend
    · obtain ⟨v, hv, hend⟩ := ih hT' (stepKeepsInvariant _ _ hs hsstep) (stepKeepsInvariant _ _ hu hustep) hsa' hua' hrun'
      exact ⟨v, runsTo_succ hustep hv, hend⟩
    · obtain rfl : s' = t := runsTo_unique (runsTo_of_idle hsa' hend.idle.1) hrun'
      exact ⟨u', runsTo_succ hustep (runsTo_of_idle hua' hend.idle.2), hend⟩

/-- Settles O58: at the first sequence boundary, with no output yet, the two decoders agree. -/
theorem decompressDependsOnlyOnItsStream : Obligations.DecompressDependsOnlyOnItsStream := by
  intro s u t k hs hu hsa hua hsp hup hsip huip hsop huop hn hcap hbits hsrc hrun hidle
  have hT : StreamTwins s u :=
    ⟨hbits, hn, hcap, huip.trans hsip.symm, huop.trans hsop.symm, hsrc, fun i hi => absurd hi (by omega)⟩
  obtain ⟨v, hv, hend⟩ := DecoderTwins.run (.inl ⟨hsp, hup, hT⟩) hs hu hsa hua hrun hidle
  exact ⟨v, hv, hend.idle.2, hend.status, hend.result, hend.errKind, hend.out⟩

end Sys2Proof.Machine
end
